-- ==== Sys2Proof/Word.lean ====
section
/-! DEFINITION. The bit vectors of CORE (spec/00_scope.md R6, R8): every value is unsigned, bit 0 is the least
significant bit, and each width below is a fixed number of the spec, not a parameter. -/

namespace Sys2Proof

/-- One byte of the message buffer (R27, R35). -/
abbrev Byte := BitVec 8

/-- One substitution-table entry, one lane of the round function (R6: SBOX_ENTRY_BITS = 4). -/
abbrev Nibble := BitVec 4

/-- A half-block, a key word, a round subkey (R6: HALF_BITS = 32). -/
abbrev Word := BitVec 32

/-- A cipher block, an initialization vector, the DAT and RDAT fields (R6: BLOCK_BITS = 64). -/
abbrev Block := BitVec 64

/-- A buffer address or a length as the packet's IDX field and the LEN register carry it (R7, R23). -/
abbrev Addr := BitVec 16

/-- A command packet on the host port (R51, R55). -/
abbrev Packet := BitVec 96

end Sys2Proof
end

