-- ==== Sys2Proof/Syntax.lean ====
section
/-! DEFINITION. The 23 commands of CORE (spec/30_encoding.md R51, R58), one constructor per row of
spec/opcode_table.json, in the table's order.  The operand names are those of the command's own rule (R64).
An index (`i`, `t`, `n`) is a number, whose bound is checked by `Instr.wellFormed`; an operand that software sees as
bits has the width of its field (R56, R57). -/

namespace Sys2Proof

inductive Instr where
  /-- NOP, no operation (R129). -/
  | nop
  /-- RDSR, read the status word (R130). -/
  | rdsr
  /-- CLRERR, clear the error flags (R131). -/
  | clrerr
  /-- CLR, destroy the cipher instance (R69). -/
  | clr
  /-- INIT, construct the cipher instance (R68). -/
  | init
  /-- LDK, load key word `i` (R66). -/
  | ldk (i : Nat) (w : Word)
  /-- LDS, load entry `n` of substitution table `t` (R67). -/
  | lds (t n : Nat) (v : Nibble)
  /-- WRB, write byte (R123). -/
  | wrb (addr : Addr) (b : Byte)
  /-- RDB, read byte (R124). -/
  | rdb (addr : Addr)
  /-- WRQ, write eight bytes (R125). -/
  | wrq (addr : Addr) (q : Block)
  /-- RDQ, read eight bytes (R126). -/
  | rdq (addr : Addr)
  /-- SETLEN, set the message length (R127). -/
  | setlen (len : Addr)
  /-- RNDF, evaluate the round function (R81). -/
  | rndf (half subkey : Word)
  /-- ENCBLK, transform one block with the encryption order (R91). -/
  | encblk (d : Block)
  /-- DECBLK, transform one block with the decryption order (R92). -/
  | decblk (d : Block)
  /-- ENC_ECB (R111). -/
  | encEcb
  /-- DEC_ECB (R112). -/
  | decEcb
  /-- ENC_CBC (R113). -/
  | encCbc (iv : Block)
  /-- DEC_CBC (R114). -/
  | decCbc (iv : Block)
  /-- ENC_CFB (R115). -/
  | encCfb (iv : Block)
  /-- DEC_CFB (R116). -/
  | decCfb (iv : Block)
  /-- ENC_OFB (R117). -/
  | encOfb (iv : Block)
  /-- DEC_OFB (R118). -/
  | decOfb (iv : Block)
  deriving DecidableEq, Repr

end Sys2Proof
end

