-- ==== Sys2Proof/WellFormed.lean ====
section
/-! DEFINITION. Which commands have a packet: every index fits its field of the format (spec/30_encoding.md R56, R60).
All other operands have the width of their field by their type. -/

namespace Sys2Proof

/-- R56: format K has `i` in IDX[2:0]; format S has `t` in IDX[6:4] and `n` in IDX[3:0]. -/
def Instr.wellFormed : Instr → Bool
  | .ldk i _ => decide (i < 8)
  | .lds t n _ => decide (t < 8) && decide (n < 16)
  | .nop => true
  | .rdsr => true
  | .clrerr => true
  | .clr => true
  | .init => true
  | .wrb _ _ => true
  | .rdb _ => true
  | .wrq _ _ => true
  | .rdq _ => true
  | .setlen _ => true
  | .rndf _ _ => true
  | .encblk _ => true
  | .decblk _ => true
  | .encEcb => true
  | .decEcb => true
  | .encCbc _ => true
  | .decCbc _ => true
  | .encCfb _ => true
  | .decCfb _ => true
  | .encOfb _ => true
  | .decOfb _ => true

/-- The command is one a legal packet can carry. -/
abbrev Instr.WellFormed (i : Instr) : Prop := i.wellFormed = true

end Sys2Proof
end

