-- ==== Sys2Proof/Decode.lean ====
section
/-! DEFINITION. The command packet (spec/30_encoding.md R55, R56), the decoder, total on the 2^96 packets and rejecting
by name (R58, R60, R61), the opcode map (R58), and the encoder, written from the formats (R56). -/

namespace Sys2Proof

/-! ## The four fields of a packet (R55, R64) -/

/-- OPC, bits 95:88. -/
def Packet.opc (cw : Packet) : Byte := cw.extractLsb' 88 8

/-- RSV, bits 87:80. -/
def Packet.rsv (cw : Packet) : Byte := cw.extractLsb' 80 8

/-- IDX, bits 79:64. -/
def Packet.idx (cw : Packet) : Addr := cw.extractLsb' 64 16

/-- DAT, bits 63:0. -/
def Packet.dat (cw : Packet) : Block := cw.extractLsb' 0 64

/-- A packet from its four fields (R55). -/
def Packet.ofFields (opc rsv : Byte) (idx : Addr) (dat : Block) : Packet :=
  opc ++ rsv ++ idx ++ dat

/-! ## Decoding -/

/-- Why a packet is illegal (R60). -/
inductive Illegal where
  /-- R60 (a): OPC is not one of the 23 listed values. -/
  | opcode
  /-- R60 (b): RSV is not 0. -/
  | reserved
  /-- R60 (c): a bit the command's format marks "0" is 1. -/
  | mustBeZero
  deriving DecidableEq, Repr

/-- Format Z: IDX = 0, DAT = 0. -/
def formatZ (i : Instr) (idx : Addr) (dat : Block) : Except Illegal Instr :=
  if idx = 0 ∧ dat = 0 then .ok i else .error .mustBeZero

/-- Format K: IDX[2:0] = `i`, IDX[15:3] = 0; DAT[31:0] = `w`, DAT[63:32] = 0. -/
def formatK (mk : Nat → Word → Instr) (idx : Addr) (dat : Block) : Except Illegal Instr :=
  if idx.extractLsb' 3 13 = 0 ∧ dat.extractLsb' 32 32 = 0 then
    .ok (mk (idx.extractLsb' 0 3).toNat (dat.extractLsb' 0 32))
  else .error .mustBeZero

/-- Format S: IDX[3:0] = `n`, IDX[6:4] = `t`, IDX[15:7] = 0; DAT[3:0] = `v`, DAT[63:4] = 0. -/
def formatS (mk : Nat → Nat → Nibble → Instr) (idx : Addr) (dat : Block) : Except Illegal Instr :=
  if idx.extractLsb' 7 9 = 0 ∧ dat.extractLsb' 4 60 = 0 then
    .ok (mk (idx.extractLsb' 4 3).toNat (idx.extractLsb' 0 4).toNat (dat.extractLsb' 0 4))
  else .error .mustBeZero

/-- Format AB: IDX = `addr`; DAT[7:0] = `b`, DAT[63:8] = 0. -/
def formatAB (mk : Addr → Byte → Instr) (idx : Addr) (dat : Block) : Except Illegal Instr :=
  if dat.extractLsb' 8 56 = 0 then .ok (mk idx (dat.extractLsb' 0 8)) else .error .mustBeZero

/-- Formats A and L: IDX = `addr` or `len`; DAT = 0. -/
def formatA (mk : Addr → Instr) (idx : Addr) (dat : Block) : Except Illegal Instr :=
  if dat = 0 then .ok (mk idx) else .error .mustBeZero

/-- Format AQ: IDX = `addr`, DAT = `q`. -/
def formatAQ (mk : Addr → Block → Instr) (idx : Addr) (dat : Block) : Except Illegal Instr :=
  .ok (mk idx dat)

/-- Format D: IDX = 0, DAT = `d`. -/
def formatD (mk : Block → Instr) (idx : Addr) (dat : Block) : Except Illegal Instr :=
  if idx = 0 then .ok (mk dat) else .error .mustBeZero

/-- R56: for RNDF the operand `d` splits as `half = d[63:32]`, `subkey = d[31:0]`. -/
def rndfOperands (d : Block) : Instr := .rndf (d.extractLsb' 32 32) (d.extractLsb' 0 32)

/-- The command that the opcode selects, its format checked and its operands taken (R56, R57, R58). -/
def decodeFields (opc : Byte) (idx : Addr) (dat : Block) : Except Illegal Instr :=
  match opc with
  | 0x00#8 => formatZ .nop idx dat
  | 0x01#8 => formatZ .rdsr idx dat
  | 0x02#8 => formatZ .clrerr idx dat
  | 0x03#8 => formatZ .clr idx dat
  | 0x04#8 => formatZ .init idx dat
  | 0x10#8 => formatK .ldk idx dat
  | 0x11#8 => formatS .lds idx dat
  | 0x20#8 => formatAB .wrb idx dat
  | 0x21#8 => formatA .rdb idx dat
  | 0x22#8 => formatAQ .wrq idx dat
  | 0x23#8 => formatA .rdq idx dat
  | 0x24#8 => formatA .setlen idx dat
  | 0x30#8 => formatD rndfOperands idx dat
  | 0x31#8 => formatD .encblk idx dat
  | 0x32#8 => formatD .decblk idx dat
  | 0x40#8 => formatZ .encEcb idx dat
  | 0x41#8 => formatZ .decEcb idx dat
  | 0x42#8 => formatD .encCbc idx dat
  | 0x43#8 => formatD .decCbc idx dat
  | 0x44#8 => formatD .encCfb idx dat
  | 0x45#8 => formatD .decCfb idx dat
  | 0x46#8 => formatD .encOfb idx dat
  | 0x47#8 => formatD .decOfb idx dat
  | _ => .error .opcode

/-- The decoder: a total function from the packets to the 23 commands plus "illegal" (R60, R61). -/
def decode (cw : Packet) : Except Illegal Instr :=
  if cw.rsv = 0 then decodeFields cw.opc cw.idx cw.dat else .error .reserved

/-! ## The opcode map (R58) -/

/-- One row of the opcode map: a packet `cw` selects it when `(cw and mask) = pattern`. -/
structure OpcodeRow where
  mnemonic : String
  pattern : Packet
  mask : Packet
  deriving DecidableEq, Repr

/-- The row of a command, the numbers as R58 prints them. -/
def Instr.row : Instr → OpcodeRow
  | .nop => ⟨"NOP", 0x000000000000000000000000, 0xFFFFFFFFFFFFFFFFFFFFFFFF⟩
  | .rdsr => ⟨"RDSR", 0x010000000000000000000000, 0xFFFFFFFFFFFFFFFFFFFFFFFF⟩
  | .clrerr => ⟨"CLRERR", 0x020000000000000000000000, 0xFFFFFFFFFFFFFFFFFFFFFFFF⟩
  | .clr => ⟨"CLR", 0x030000000000000000000000, 0xFFFFFFFFFFFFFFFFFFFFFFFF⟩
  | .init => ⟨"INIT", 0x040000000000000000000000, 0xFFFFFFFFFFFFFFFFFFFFFFFF⟩
  | .ldk _ _ => ⟨"LDK", 0x100000000000000000000000, 0xFFFFFFF8FFFFFFFF00000000⟩
  | .lds _ _ _ => ⟨"LDS", 0x110000000000000000000000, 0xFFFFFF80FFFFFFFFFFFFFFF0⟩
  | .wrb _ _ => ⟨"WRB", 0x200000000000000000000000, 0xFFFF0000FFFFFFFFFFFFFF00⟩
  | .rdb _ => ⟨"RDB", 0x210000000000000000000000, 0xFFFF0000FFFFFFFFFFFFFFFF⟩
  | .wrq _ _ => ⟨"WRQ", 0x220000000000000000000000, 0xFFFF00000000000000000000⟩
  | .rdq _ => ⟨"RDQ", 0x230000000000000000000000, 0xFFFF0000FFFFFFFFFFFFFFFF⟩
  | .setlen _ => ⟨"SETLEN", 0x240000000000000000000000, 0xFFFF0000FFFFFFFFFFFFFFFF⟩
  | .rndf _ _ => ⟨"RNDF", 0x300000000000000000000000, 0xFFFFFFFF0000000000000000⟩
  | .encblk _ => ⟨"ENCBLK", 0x310000000000000000000000, 0xFFFFFFFF0000000000000000⟩
  | .decblk _ => ⟨"DECBLK", 0x320000000000000000000000, 0xFFFFFFFF0000000000000000⟩
  | .encEcb => ⟨"ENC_ECB", 0x400000000000000000000000, 0xFFFFFFFFFFFFFFFFFFFFFFFF⟩
  | .decEcb => ⟨"DEC_ECB", 0x410000000000000000000000, 0xFFFFFFFFFFFFFFFFFFFFFFFF⟩
  | .encCbc _ => ⟨"ENC_CBC", 0x420000000000000000000000, 0xFFFFFFFF0000000000000000⟩
  | .decCbc _ => ⟨"DEC_CBC", 0x430000000000000000000000, 0xFFFFFFFF0000000000000000⟩
  | .encCfb _ => ⟨"ENC_CFB", 0x440000000000000000000000, 0xFFFFFFFF0000000000000000⟩
  | .decCfb _ => ⟨"DEC_CFB", 0x450000000000000000000000, 0xFFFFFFFF0000000000000000⟩
  | .encOfb _ => ⟨"ENC_OFB", 0x460000000000000000000000, 0xFFFFFFFF0000000000000000⟩
  | .decOfb _ => ⟨"DEC_OFB", 0x470000000000000000000000, 0xFFFFFFFF0000000000000000⟩

/-- One command of each kind, in the order of the opcode map. -/
def oneOfEach : List Instr :=
  [.nop, .rdsr, .clrerr, .clr, .init, .ldk 0 0, .lds 0 0 0, .wrb 0 0, .rdb 0, .wrq 0 0, .rdq 0, .setlen 0,
   .rndf 0 0, .encblk 0, .decblk 0, .encEcb, .decEcb, .encCbc 0, .decCbc 0, .encCfb 0, .decCfb 0, .encOfb 0,
   .decOfb 0]

/-- The 23 rows of the opcode map. -/
def opcodeTable : List OpcodeRow := oneOfEach.map Instr.row

/-! ## Encoding -/

/-- The OPC field of a command (R58, first column). -/
def Instr.opc : Instr → Byte
  | .nop => 0x00
  | .rdsr => 0x01
  | .clrerr => 0x02
  | .clr => 0x03
  | .init => 0x04
  | .ldk _ _ => 0x10
  | .lds _ _ _ => 0x11
  | .wrb _ _ => 0x20
  | .rdb _ => 0x21
  | .wrq _ _ => 0x22
  | .rdq _ => 0x23
  | .setlen _ => 0x24
  | .rndf _ _ => 0x30
  | .encblk _ => 0x31
  | .decblk _ => 0x32
  | .encEcb => 0x40
  | .decEcb => 0x41
  | .encCbc _ => 0x42
  | .decCbc _ => 0x43
  | .encCfb _ => 0x44
  | .decCfb _ => 0x45
  | .encOfb _ => 0x46
  | .decOfb _ => 0x47

/-- The IDX field of a command (R56, second column). -/
def Instr.idxField : Instr → Addr
  | .ldk i _ => 0#13 ++ BitVec.ofNat 3 i
  | .lds t n _ => 0#9 ++ BitVec.ofNat 3 t ++ BitVec.ofNat 4 n
  | .wrb addr _ => addr
  | .rdb addr => addr
  | .wrq addr _ => addr
  | .rdq addr => addr
  | .setlen len => len
  | .nop => 0
  | .rdsr => 0
  | .clrerr => 0
  | .clr => 0
  | .init => 0
  | .rndf _ _ => 0
  | .encblk _ => 0
  | .decblk _ => 0
  | .encEcb => 0
  | .decEcb => 0
  | .encCbc _ => 0
  | .decCbc _ => 0
  | .encCfb _ => 0
  | .decCfb _ => 0
  | .encOfb _ => 0
  | .decOfb _ => 0

/-- The DAT field of a command (R56, third column). -/
def Instr.datField : Instr → Block
  | .ldk _ w => 0#32 ++ w
  | .lds _ _ v => 0#60 ++ v
  | .wrb _ b => 0#56 ++ b
  | .wrq _ q => q
  | .rndf half subkey => half ++ subkey
  | .encblk d => d
  | .decblk d => d
  | .encCbc iv => iv
  | .decCbc iv => iv
  | .encCfb iv => iv
  | .decCfb iv => iv
  | .encOfb iv => iv
  | .decOfb iv => iv
  | .nop => 0
  | .rdsr => 0
  | .clrerr => 0
  | .clr => 0
  | .init => 0
  | .rdb _ => 0
  | .rdq _ => 0
  | .setlen _ => 0
  | .encEcb => 0
  | .decEcb => 0

/-- The packet of a command: OPC, RSV = 0, IDX, DAT (R55). -/
def encode (i : Instr) : Packet := Packet.ofFields i.opc 0 i.idxField i.datField

/-! ## The opcode table's numbering -/

/-- The instruction the decoder reads from the packet whose bits are `w`, numbered as spec/opcode_table.json numbers
them: one number of 96 bits, bit 95 leftmost (R58, R64; notes/assumptions/10.md); bits from `nbits` up are 0. -/
def decodeTableWord (nbits w : Nat) : Option Instr :=
  match decode (BitVec.ofNat 96 (w % 2 ^ nbits)) with
  | .ok i => some i
  | .error _ => none

end Sys2Proof
end

