-- ==== Sys2Proof/Config.lean ====
section
/-! DEFINITION. What an implementation of CORE fixes, and the values the spec leaves open.
The one open parameter of the spec is MSG_BYTES (spec/00_scope.md R7, 93_implementation_defined.md U1): it is the one
field of `Config`, State carries it, no step writes it, and every statement is for every legal value of it. -/

namespace Sys2Proof

/-- The implementation parameters of one CORE (R7). -/
structure Config where
  /-- MSG_BYTES, the size of the message buffer in bytes. -/
  msgBytes : Nat
  deriving DecidableEq, Repr

namespace Config

/-- R7: "It must satisfy: `MSG_BYTES mod 8 = 0`, `16 <= MSG_BYTES <= 65528`". -/
abbrev legal (c : Config) : Prop :=
  c.msgBytes % 8 = 0 ∧ 16 ≤ c.msgBytes ∧ c.msgBytes ≤ 65528

/-- DESIGN CHOICE (notes/assumptions/1.md): the buffer size of `State.reset`, the size of every vector and program of
spec/95_test_vectors.md.  No statement rests on it: `State.powerUp` takes any configuration. -/
def vectors : Config := { msgBytes := 64 }

/-- DESIGN CHOICE (notes/assumptions/2.md): what a byte of MSG that is not listed in the memory reads as.  R33 and R45
leave the content of MSG at reset open ("it must not assume zero"): `State.powerUp` takes an arbitrary content, and no
statement rests on this value. -/
def unwrittenByte : Byte := 0

/-- Free value (R145, 93_implementation_defined.md U3; notes/assumptions/3.md): what the byte of MSG at an address
holds after a reset taken inside a command that could have written it.  The first argument is the number of such
aborts so far (`State.aborts`), the second the address.  Nothing constrains it. -/
opaque abortedByte : Nat → Nat → Byte

end Config

end Sys2Proof
end

