-- ==== Sys2Proof/Machine/State.lean ====
section
/-! DEFINITION. The state of CORE as plain data (spec/10_state.md): the eight items of R14, the transient registers of
R30, the command in flight on the port (R52, R53), and what the model itself adds to run: the parameter MSG_BYTES, the
host's signals still to come, the responses already delivered, the counter of free values.  And the two ways a step
can stop, neither of which any command of CORE takes. -/

namespace Sys2Proof.Machine

/-- KEY and RK: eight words of 32 bits (R16, R17). -/
abbrev KeyFile := Vector Word 8

/-- SBOX: eight tables of sixteen 4-bit entries (R19). -/
abbrev SboxFile := Vector (Vector Nibble 16) 8

/-- Bytes of MSG by address, addresses strictly rising, none equal to what an unlisted address reads as. -/
abbrev Memory := List Host.Cell

/-- The canonical form of a memory. -/
abbrev Memory.wf (m : Memory) : Prop :=
  m.Pairwise (fun c d => c.1 < d.1) ∧ ∀ c ∈ m, c.2 ≠ Config.unwrittenByte

/-- PHASE, the sequencer state (R29). -/
inductive Phase where
  | idle
  | busy
  deriving DecidableEq, Repr

/-- RoundKeyOrder (R73); in the transient bit ORD Encrypt is 0 and Decrypt is 1. -/
inductive RoundKeyOrder where
  | encrypt
  | decrypt
  deriving DecidableEq, Repr

/-- The six completion codes (R132). -/
inductive Code where
  | ok
  | ill
  | state
  | addr
  | len
  | pad
  deriving DecidableEq, Repr

/-- A response: the completion code and the returned data (R54). -/
structure Response where
  code : Code
  rdat : Block
  deriving DecidableEq, Repr

/-- The transient registers (R30), with their widths.  No command reads one before it has written it (R31). -/
structure Transient where
  /-- N_HI, the half-block called `high`. -/
  nHi : Word
  /-- N_LO, the half-block called `low`. -/
  nLo : Word
  /-- RND, the round counter, 0 to 32. -/
  rnd : BitVec 6
  /-- ORD, the order of the running transform. -/
  ord : RoundKeyOrder
  /-- FB, the feedback register. -/
  fb : Block
  /-- TMP, the ciphertext block of CBC decryption. -/
  tmp : Block
  /-- BLK, the index of the block being processed. -/
  blk : BitVec 13
  /-- NBLK, the number of blocks of the padded message. -/
  nblk : BitVec 14
  /-- PADL, the pad length. -/
  padl : BitVec 4
  deriving DecidableEq, Repr

/-- What the host drives on the port at one clock edge (R52): `rst_n`, `cmd_valid`, `cmd[95:0]`, `rsp_ready`. -/
structure PortInput where
  rstN : Bool
  cmdValid : Bool
  cmd : Packet
  rspReady : Bool
  deriving DecidableEq, Repr

/-- The state of CORE, and the model's own fields (notes/assumptions/15.md). -/
structure State where
  /-- The implementation parameter MSG_BYTES (R7).  No step writes it. -/
  cfg : Config
  /-- KEY, the master key (R16). -/
  key : KeyFile
  /-- RK, the round subkeys (R17). -/
  rk : KeyFile
  /-- SBOX, the substitution tables (R19). -/
  sbox : SboxFile
  /-- READY, a cipher instance exists (R21). -/
  ready : Bool
  /-- ERR, the five sticky error flags, bit 0 E_ILL to bit 4 E_PAD (R22). -/
  err : BitVec 5
  /-- LEN, the length in bytes of the message in MSG (R23). -/
  len : Addr
  /-- MSG, the message buffer (R27, R35). -/
  msg : Memory
  /-- PHASE (R29). -/
  phase : Phase
  /-- The transient registers (R30). -/
  tr : Transient
  /-- The port's `rsp_valid` and `rsp[71:0]`: a response held until the host takes it (R53 b). -/
  rsp : Option Response
  /-- The bytes of MSG that the command in flight could have written, a first address and a count (R145). -/
  inFlight : Option (Nat × Nat)
  /-- The model's own field: the host's signals still to come, the next clock edge first. -/
  inputs : List PortInput
  /-- The model's own field: the responses the host has taken, the oldest first (R147). -/
  delivered : List Response
  /-- The model's own field: how many resets have aborted a command, the counter `Config.abortedByte` is applied to. -/
  aborts : Nat
  deriving DecidableEq, Repr

/-- The ways a step can fault.  There are none: "errors never make CORE stop, hang, stall or reset itself" (R137),
and every list of commands has exactly one result (R156). -/
inductive Fault where
  deriving DecidableEq, Repr

/-- The ways a step can be refused by the model. -/
inductive Refusal where
  /-- An instruction without a meaning yet, raised by `exec`'s arms alone; no arm raises it now.  Safe. -/
  | notModelled (mnemonic : String)
  deriving DecidableEq, Repr

/-- The transient registers of `State.powerUp`.  R33 leaves them "unspecified and unobservable": zero is a DESIGN
CHOICE (notes/assumptions/4.md). -/
def Transient.zero : Transient :=
  { nHi := 0, nLo := 0, rnd := 0, ord := .encrypt, fb := 0, tmp := 0, blk := 0, nblk := 0, padl := 0 }

/-- The state right after reset at power-up (R33, R144), for any MSG_BYTES and any content of MSG (R45: "a model takes
the initial content of MSG as an arbitrary parameter of the start state"). -/
def State.powerUp (cfg : Config) (msg : Memory) : State :=
  { cfg := cfg
    key := Vector.replicate 8 0
    rk := Vector.replicate 8 0
    sbox := Vector.replicate 8 (Vector.replicate 16 0)
    ready := false
    err := 0
    len := 0
    msg := msg
    phase := .idle
    tr := Transient.zero
    rsp := none
    inFlight := none
    inputs := []
    delivered := []
    aborts := 0 }

/-- The machine right after reset: `powerUp` at the buffer size of the spec's vectors (notes/assumptions/1.md), nothing
listed in MSG (notes/assumptions/2.md). -/
def State.reset : State := State.powerUp Config.vectors []

end Sys2Proof.Machine
end

