-- ==== Sys2Proof/Machine/Operands.lean ====
section
/-! DEFINITION. The slices, the byte order, the pad length and the operand checks the commands share (spec/00_scope.md R8
to R11, spec/20_memory.md R38, R41, spec/43_padding.md R93). -/

namespace Sys2Proof.Machine

/-! ## Slices of a value (R8) -/

/-- `nib(v, i)`: nibble `i`, nibble 0 the least significant. -/
def nib (v : Word) (i : Nat) : Nibble := v.extractLsb' (4 * i) 4

/-- `byte(v, k)`: byte `k`, byte 0 the least significant. -/
def byteOf (v : Block) (k : Nat) : Byte := v.extractLsb' (8 * k) 8

/-- `high`, the upper 32 bits of a block (R82). -/
def high (b : Block) : Word := b.extractLsb' 32 32

/-- `low`, the lower 32 bits of a block (R82). -/
def low (b : Block) : Word := b.extractLsb' 0 32

/-- `zext_64` (R9). -/
def zext64 {w : Nat} (v : BitVec w) : Block := v.setWidth 64

/-- `rotl32(v, n) = ((v << n) | (v >> (32 - n))) mod 2^32` (R10), used with `0 < n < 32` only. -/
def rotl32 (v : Word) (n : Nat) : Word := (v <<< n) ||| (v >>> (32 - n))

/-! ## Little-endian blocks (R38) -/

/-- `LE64(b0, ..., b7)`: byte 0 is the least significant byte of the block. -/
def le64 (b0 b1 b2 b3 b4 b5 b6 b7 : Byte) : Block :=
  b7 ++ b6 ++ b5 ++ b4 ++ b3 ++ b2 ++ b1 ++ b0

/-- The bytes of a block in message order, the inverse of `le64`. -/
def blockBytes (v : Block) : List Byte :=
  [byteOf v 0, byteOf v 1, byteOf v 2, byteOf v 3, byteOf v 4, byteOf v 5, byteOf v 6, byteOf v 7]

/-! ## The pad length -/

/-- `padlen(n) = 8 - (n mod 8)` (R93). -/
def padlen (n : Nat) : Nat := 8 - n % 8

/-! ## Operand checks -/

/-- A 1-byte access at `addr` is in the buffer (R41). -/
abbrev ByteAddrValid (cfg : Config) (addr : Addr) : Prop := addr.toNat < cfg.msgBytes

/-- An 8-byte access at `addr` is aligned and in the buffer (R41). -/
abbrev QuadAddrValid (cfg : Config) (addr : Addr) : Prop :=
  addr.toNat % 8 = 0 ∧ addr.toNat + 8 ≤ cfg.msgBytes

end Sys2Proof.Machine
end

