-- ==== Sys2Proof/Machine/Flags.lean ====
section
/-! DEFINITION. The error flags, the completion codes and the status word (spec/10_state.md R21 to R24,
spec/60_exceptions.md R132, spec/30_encoding.md R54).  CORE has no other flag: no carry, zero, sign or overflow (R22). -/

namespace Sys2Proof.Machine

/-- The number of a completion code (R132). -/
def Code.number : Code → BitVec 8
  | .ok => 0x00
  | .ill => 0x01
  | .state => 0x02
  | .addr => 0x03
  | .len => 0x04
  | .pad => 0x05

/-- The ERR bit of a completion code: bit `CODE - 1`, none for OK (R22, R132). -/
def Code.flag : Code → BitVec 5
  | .ok => 0b00000
  | .ill => 0b00001
  | .state => 0b00010
  | .addr => 0b00100
  | .len => 0b01000
  | .pad => 0b10000

/-- Sets the bit of `c` and leaves the other four as they were (R137 a). -/
def raiseFlag (err : BitVec 5) (c : Code) : BitVec 5 := err ||| c.flag

/-- The 72 bits of a response: CODE in 71:64, RDAT in 63:0 (R54). -/
def Response.bits (r : Response) : BitVec 72 := r.code.number ++ r.rdat

/-- The status word `{32'b0, LEN[15:0], 3'b0, ERR[4:0], 7'b0, READY}` (R24, R130). -/
def statusWord (ready : Bool) (err : BitVec 5) (len : Addr) : Block :=
  0#32 ++ len ++ 0#3 ++ err ++ 0#7 ++ BitVec.ofBool ready

end Sys2Proof.Machine
end

