-- ==== Sys2Proof/Machine/Ops.lean ====
section
/-! DEFINITION. The named operations over memory and the port that every command shares: reading and writing MSG
(spec/00_scope.md R11, spec/20_memory.md), completing with a response, the error entry and the clearing of its flags
(spec/60_exceptions.md R137, spec/46_system.md R131), the life-cycle check (R135), and reset (R144, R145). -/

namespace Sys2Proof.Machine

/-- What executing a command answers. -/
abbrev Result := Host.Outcome State Fault Refusal

/-! ## The message buffer -/

namespace Memory

/-- `MemRead(a, 1)`: the byte at address `a`. -/
def readByte : Memory → Nat → Byte
  | [], _ => Config.unwrittenByte
  | (k, v) :: rest, a => if k = a then v else readByte rest a

/-- A cell in front of a memory, left out when it holds what an unlisted address reads as. -/
def cons (a : Nat) (b : Byte) (rest : Memory) : Memory :=
  if b = Config.unwrittenByte then rest else (a, b) :: rest

/-- `MemWrite(a, 1, b)`, keeping the canonical form. -/
def writeByte : Memory → Nat → Byte → Memory
  | [], a, b => cons a b []
  | (k, v) :: rest, a, b =>
    if a < k then cons a b ((k, v) :: rest)
    else if a = k then cons a b rest
    else (k, v) :: writeByte rest a b

/-- The `n` bytes from address `a` up. -/
def readBytes (m : Memory) (a : Nat) : Nat → List Byte
  | 0 => []
  | n + 1 => m.readByte a :: readBytes m (a + 1) n

/-- Writes a list of bytes from address `a` up, in ascending order. -/
def writeBytes (m : Memory) (a : Nat) : List Byte → Memory
  | [] => m
  | b :: bs => writeBytes (m.writeByte a b) (a + 1) bs

/-- `MemRead(a, 8)`: the little-endian block at address `a` (R38). -/
def readBlock (m : Memory) (a : Nat) : Block :=
  le64 (m.readByte a) (m.readByte (a + 1)) (m.readByte (a + 2)) (m.readByte (a + 3))
    (m.readByte (a + 4)) (m.readByte (a + 5)) (m.readByte (a + 6)) (m.readByte (a + 7))

/-- `MemWrite(a, 8, v)`: `byte(v, k)` goes to address `a + k` (R38). -/
def writeBlock (m : Memory) (a : Nat) (v : Block) : Memory := m.writeBytes a (blockBytes v)

end Memory

/-- The message: `MSG[0], ..., MSG[LEN - 1]` (R37). -/
def State.message (s : State) : List Byte := s.msg.readBytes 0 s.len.toNat

/-! ## Completion and error entry -/

/-- The response of the command becomes valid on the port (R53 d, R54). -/
def State.respond (s : State) (code : Code) (rdat : Block) : State :=
  { s with rsp := some ⟨code, rdat⟩ }

/-- The command completes with code OK and the returned data (R12). -/
def complete (rdat : Block) (s : State) : Result := .next (s.respond .ok rdat)

/-- Error entry (R137): sets the code's bit of ERR, the others as they were; responds with the code and RDAT = 0.
Nothing is saved, there is no vector, no handler and no mode change. -/
def State.errorEntry (s : State) (c : Code) : State :=
  { s with err := raiseFlag s.err c }.respond c 0

/-- `raise <CODE>` (R12): the command ends at once with the code. -/
def raise (c : Code) (s : State) : Result := .next (s.errorEntry c)

/-- `ERR <- 0`, the nearest thing to a return from an error (R131, R137). -/
def State.clearErrors (s : State) : State := { s with err := 0 }

/-- `require READY = b else raise STATE`, then the rest of the command (R12, R135). -/
def requireReady (b : Bool) (s : State) (rest : State → Result) : Result :=
  if s.ready = b then rest s else raise .state s

/-! ## Acceptance, delivery and reset on the port -/

/-- The bytes of MSG a command can write, a first address and a count (R145): for WRB or WRQ the addressed bytes, for an
encrypt command the padded message `MSG[0 .. LEN + p - 1]`, for a decrypt command `MSG[0 .. LEN - 1]` (R46), both within
the `MSG[0 .. LEN + 7]` that R145 gives "at most". -/
def couldWrite (len : Addr) : Instr → Option (Nat × Nat)
  | .wrb addr _ => some (addr.toNat, 1)
  | .wrq addr _ => some (addr.toNat, 8)
  | .encEcb => some (0, len.toNat + padlen len.toNat)
  | .decEcb => some (0, len.toNat)
  | .encCbc _ => some (0, len.toNat + padlen len.toNat)
  | .decCbc _ => some (0, len.toNat)
  | .encCfb _ => some (0, len.toNat + padlen len.toNat)
  | .decCfb _ => some (0, len.toNat)
  | .encOfb _ => some (0, len.toNat + padlen len.toNat)
  | .decOfb _ => some (0, len.toNat)
  | .nop => none
  | .rdsr => none
  | .clrerr => none
  | .clr => none
  | .init => none
  | .ldk _ _ => none
  | .lds _ _ _ => none
  | .rdb _ => none
  | .rdq _ => none
  | .setlen _ => none
  | .rndf _ _ => none
  | .encblk _ => none
  | .decblk _ => none

/-- The command is accepted: PHASE becomes BUSY (R53 a); `span` says which bytes of MSG it could write. -/
def State.accept (s : State) (span : Option (Nat × Nat)) : State :=
  { s with phase := .busy, inFlight := span }

/-- The response is delivered: the host has it, PHASE becomes IDLE (R29, R52, R137 c). -/
def State.deliver (s : State) : State :=
  match s.rsp with
  | some r => { s with phase := .idle, rsp := none, inFlight := none, delivered := s.delivered ++ [r] }
  | none => s

/-- The codes whose checks come before every write (R138): with one of them the command has written nothing
(DEDUCED, notes/assumptions/8.md). -/
def Code.cleanRefusal : Code → Bool
  | .ill => true
  | .state => true
  | .addr => true
  | .len => true
  | .ok => false
  | .pad => false

/-- The bytes of MSG that a reset now would leave unspecified (R145): those the command in flight could have written,
none when no command is in flight or the command was refused before every write. -/
def State.exposed (s : State) : Option (Nat × Nat) :=
  match s.phase, s.rsp with
  | .idle, _ => none
  | .busy, some r => if r.code.cleanRefusal then none else s.inFlight
  | .busy, none => s.inFlight

/-- The `n` addresses from `a` up take the free values of abort number `k`, as far as they are in the buffer. -/
def Memory.scramble (limit k : Nat) (m : Memory) (a : Nat) : Nat → Memory
  | 0 => m
  | n + 1 =>
    let m' := if a < limit then m.writeByte a (Config.abortedByte k a) else m
    Memory.scramble limit k m' (a + 1) n

/-- Reset (R144, R145): the registers take their reset values, no response is delivered, PHASE is IDLE; MSG is kept,
but for the bytes a command in flight could have written, which become free values (notes/assumptions/3.md).  The
transient registers, unspecified after reset, keep their values (notes/assumptions/4.md). -/
def State.applyReset (s : State) : State :=
  { State.powerUp s.cfg
      (match s.exposed with
       | none => s.msg
       | some (a, n) => Memory.scramble s.cfg.msgBytes s.aborts s.msg a n) with
    tr := s.tr
    inputs := s.inputs
    delivered := s.delivered
    aborts := match s.exposed with
      | none => s.aborts
      | some _ => s.aborts + 1 }

end Sys2Proof.Machine
end

