-- ==== Sys2Proof/Machine/Buffer.lean ====
section
/-! DEFINITION. The buffer access commands WRB, RDB, WRQ, RDQ, SETLEN (spec/45_buffer_access.md).  None of them reads
READY (R135), and LEN limits none of the four accesses (R37).  The laws of R128 hold of these five meanings: each reads and
writes what its own rule names and nothing else. -/

namespace Sys2Proof.Machine

/-- WRB (R123; R128 a, b, d, f). -/
def execWrb (addr : Addr) (b : Byte) (s : State) : Result :=
  if ByteAddrValid s.cfg addr then complete 0 { s with msg := s.msg.writeByte addr.toNat b }
  else raise .addr s

/-- RDB (R124; R128 a, c, d, f). -/
def execRdb (addr : Addr) (s : State) : Result :=
  if ByteAddrValid s.cfg addr then complete (zext64 (s.msg.readByte addr.toNat)) s
  else raise .addr s

/-- WRQ (R125; R128 a, b, d, f). -/
def execWrq (addr : Addr) (q : Block) (s : State) : Result :=
  if QuadAddrValid s.cfg addr then complete 0 { s with msg := s.msg.writeBlock addr.toNat q }
  else raise .addr s

/-- RDQ (R126; R128 a, c, d, f). -/
def execRdq (addr : Addr) (s : State) : Result :=
  if QuadAddrValid s.cfg addr then complete (s.msg.readBlock addr.toNat) s
  else raise .addr s

/-- SETLEN (R127; R128 e, f). -/
def execSetlen (len : Addr) (s : State) : Result :=
  if s.cfg.msgBytes < len.toNat then raise .len s
  else complete 0 { s with len := len }

end Sys2Proof.Machine
end

