-- ==== Sys2Proof/Machine/Construction.lean ====
section
/-! DEFINITION. Building and destroying a cipher instance: CLR, INIT, LDK, LDS (spec/40_construction_keyschedule.md).
An index that no packet can carry (it fails `Instr.wellFormed`, and the decoder never answers it) is refused with ILL,
as the packet with that bit set is (R60 c; notes/assumptions/5.md). -/

namespace Sys2Proof.Machine

/-- CLR (R69): KEY, RK, SBOX to zero, READY to 0; MSG, LEN and ERR as they were. -/
def execClr (s : State) : Result :=
  complete 0
    { s with
      key := Vector.replicate 8 0
      rk := Vector.replicate 8 0
      sbox := Vector.replicate 8 (Vector.replicate 16 0)
      ready := false }

/-- INIT (R68): `RK[i] <- KEY[i]` for all `i` at once, READY to 1. -/
def execInit (s : State) : Result :=
  requireReady false s fun s => complete 0 { s with rk := s.key, ready := true }

/-- LDK (R66): `KEY[i] <- w`. -/
def execLdk (i : Nat) (w : Word) (s : State) : Result :=
  if h : i < 8 then
    requireReady false s fun s => complete 0 { s with key := s.key.set i w }
  else raise .ill s

/-- LDS (R67): `SBOX[t][n] <- v`. -/
def execLds (t n : Nat) (v : Nibble) (s : State) : Result :=
  if h : t < 8 ∧ n < 16 then
    requireReady false s fun s =>
      complete 0 { s with sbox := s.sbox.set t ((s.sbox.get ⟨t, h.1⟩).set n v h.2) h.1 }
  else raise .ill s

end Sys2Proof.Machine
end

