-- ==== Sys2Proof/Machine/Cipher.lean ====
section
/-! DEFINITION. The cipher: the key schedule's traversal (spec/40_construction_keyschedule.md R71), the round function
(spec/41_round_function.md R75 to R79), the block transform as a pure function (spec/42_feistel_core.md R82 to R84)
and the iteration core that computes it step by step in the transient registers (R88 to R90). -/

namespace Sys2Proof.Machine

/-! ## The key schedule (R71) -/

/-- `S(order)`: the number of rounds in ascending subkey order. -/
def straight : RoundKeyOrder → Nat
  | .encrypt => 24
  | .decrypt => 8

/-- `kidx(order, j)`: which subkey round `j` uses. -/
def kidx (order : RoundKeyOrder) (j : Nat) : Fin 8 :=
  if j < straight order then ⟨j % 8, by omega⟩ else ⟨7 - j % 8, by omega⟩

/-! ## The round function (R75 to R79) -/

/-- `SBOX[t][n]`. -/
def SboxFile.entry (sbox : SboxFile) (t : Fin 8) (n : Nibble) : Nibble := (sbox.get t).get n.toFin

/-- Lane `i` of step 3: nibble `i` goes through table `i` (R77). -/
def lane (sbox : SboxFile) (t : Word) (i : Fin 8) : Nibble := sbox.entry i (nib t i.val)

/-- Step 3: the eight lanes put back in the same nibble order (R77). -/
def substitute (sbox : SboxFile) (t : Word) : Word :=
  lane sbox t 7 ++ lane sbox t 6 ++ lane sbox t 5 ++ lane sbox t 4 ++
    lane sbox t 3 ++ lane sbox t 2 ++ lane sbox t 1 ++ lane sbox t 0

/-- `f(half, subkey)`: add modulo 2^32, substitute, rotate left by 11 (R79). -/
def f (sbox : SboxFile) (half subkey : Word) : Word := rotl32 (substitute sbox (half + subkey)) 11

/-! ## The block transform (R82 to R84) -/

/-- One round with subkey `k` on the pair (high, low) (R83). -/
def feistelRound (sbox : SboxFile) (k : Word) (hl : Word × Word) : Word × Word :=
  (hl.2 ^^^ f sbox hl.1 k, hl.1)

/-- The pair (high, low) after rounds 0 to `n - 1` with the given order (R84). -/
def feistelRounds (rk : KeyFile) (sbox : SboxFile) (order : RoundKeyOrder) (hl : Word × Word) : Nat → Word × Word
  | 0 => hl
  | n + 1 => feistelRound sbox (rk.get (kidx order n)) (feistelRounds rk sbox order hl n)

/-- `transform(block, order)`: 32 rounds, then `{low, high}` (R84). -/
def transform (rk : KeyFile) (sbox : SboxFile) (order : RoundKeyOrder) (block : Block) : Block :=
  let hl := feistelRounds rk sbox order (high block, low block) 32
  hl.2 ++ hl.1

/-- `E(x) = transform(x, Encrypt)` with the state's RK and SBOX. -/
def State.E (s : State) (x : Block) : Block := transform s.rk s.sbox .encrypt x

/-- `D(x) = transform(x, Decrypt)` with the state's RK and SBOX. -/
def State.D (s : State) (x : Block) : Block := transform s.rk s.sbox .decrypt x

/-! ## The iteration core (R88 to R90) -/

/-- Block load (R88). -/
def blockLoad (order : RoundKeyOrder) (x : Block) (tr : Transient) : Transient :=
  { tr with nHi := high x, nLo := low x, rnd := 0, ord := order }

/-- Round step, all right-hand sides read before any write (R89). -/
def roundStep (rk : KeyFile) (sbox : SboxFile) (tr : Transient) : Transient :=
  { tr with
    nHi := tr.nLo ^^^ f sbox tr.nHi (rk.get (kidx tr.ord tr.rnd.toNat))
    nLo := tr.nHi
    rnd := tr.rnd + 1 }

/-- `n` round steps. -/
def roundSteps (rk : KeyFile) (sbox : SboxFile) : Nat → Transient → Transient
  | 0, tr => tr
  | n + 1, tr => roundSteps rk sbox n (roundStep rk sbox tr)

/-- Block unload: N_LO supplies bits 63:32 and N_HI bits 31:0 (R90). -/
def blockUnload (tr : Transient) : Block := tr.nLo ++ tr.nHi

/-- One transform on the datapath: block load, exactly 32 round steps (R89).  `blockUnload` of the answer is the
transform's result. -/
def runTransform (rk : KeyFile) (sbox : SboxFile) (order : RoundKeyOrder) (x : Block) (tr : Transient) : Transient :=
  roundSteps rk sbox 32 (blockLoad order x tr)

end Sys2Proof.Machine
end

