-- ==== Sys2Proof/Machine/Padding.lean ====
section
/-! DEFINITION. Padding (spec/43_padding.md): `pad`, `unpad`, `split` and `join` on byte sequences (R94 to R99), and the
pad step and the unpad step of the mode commands (R100, R101). -/

namespace Sys2Proof.Machine

/-! ## The functions on byte sequences -/

/-- `p` bytes each of value `p` (R94). -/
def padBytes (p : Nat) : List Byte := List.replicate p (BitVec.ofNat 8 p)

/-- `pad(bytes)` (R94). -/
def pad (m : List Byte) : List Byte := m ++ padBytes (padlen m.length)

/-- The pad length byte `p` of a sequence of `n` bytes is a PaddingError (R96, R101). -/
abbrev BadPad (p n : Nat) : Prop := p < 1 ∨ 8 < p ∨ n < p

/-- `unpad(bytes)`: the first `n - p` bytes, or PaddingError (`none`) (R96).  `unpad` requires `n >= 1`; of the empty
sequence, to which CORE never applies it, it answers PaddingError (notes/assumptions/9.md). -/
def unpad (m : List Byte) : Option (List Byte) :=
  match m.getLast? with
  | none => none
  | some b => if BadPad b.toNat m.length then none else some (m.take (m.length - b.toNat))

/-- `split(bytes)`: little-endian blocks, the order preserved (R98).  CORE applies it to whole blocks only
(notes/assumptions/9.md). -/
def split : List Byte → List Block
  | b0 :: b1 :: b2 :: b3 :: b4 :: b5 :: b6 :: b7 :: rest => le64 b0 b1 b2 b3 b4 b5 b6 b7 :: split rest
  | _ => []

/-- `join(blocks)`, the inverse of `split` (R99). -/
def join : List Block → List Byte
  | [] => []
  | b :: bs => blockBytes b ++ join bs

/-! ## The steps in CORE -/

/-- Pad step (R100): PADL, the pad bytes from address LEN up, NBLK.  LEN itself is updated at the end (R107). -/
def State.padStep (s : State) : State :=
  let p := padlen s.len.toNat
  { s with
    tr := { s.tr with padl := BitVec.ofNat 4 p, nblk := BitVec.ofNat 14 ((s.len.toNat + p) / 8) }
    msg := s.msg.writeBytes s.len.toNat (padBytes p) }

/-- Unpad step (R101): PADL and LEN, or PAD with LEN as it was. -/
def unpadStep (s : State) : Result :=
  let p := s.msg.readByte (s.len.toNat - 1)
  if BadPad p.toNat s.len.toNat then raise .pad s
  else complete 0
    { s with
      tr := { s.tr with padl := BitVec.ofNat 4 p.toNat }
      len := BitVec.ofNat 16 (s.len.toNat - p.toNat) }

end Sys2Proof.Machine
end

