-- ==== Sys2Proof/Machine/ModeFrames.lean ====
section
/-! DEFINITION. The mode control of CORE (spec/44_modes.md): the block steps with their feedback datapaths (R111 to
R118), the sequencing of the blocks in place (R109), and the common frames of the four encrypt and the four decrypt
commands (R107, R108). -/

namespace Sys2Proof.Machine

/-- A block step: from RK, SBOX, the transient registers and the input block, the transient registers after it and the
output block. -/
abbrev BlockStep := KeyFile → SboxFile → Transient → Block → Transient × Block

/-- `STEP(x) = E(x)` (R111). -/
def stepEcbEncrypt : BlockStep := fun rk sbox tr x =>
  let t := runTransform rk sbox .encrypt x tr
  (t, blockUnload t)

/-- `STEP(x) = D(x)` (R112). -/
def stepEcbDecrypt : BlockStep := fun rk sbox tr x =>
  let t := runTransform rk sbox .decrypt x tr
  (t, blockUnload t)

/-- `y = E(x xor FB) ; FB <- y ; result y` (R113). -/
def stepCbcEncrypt : BlockStep := fun rk sbox tr x =>
  let t := runTransform rk sbox .encrypt (x ^^^ tr.fb) tr
  let y := blockUnload t
  ({ t with fb := y }, y)

/-- `TMP <- x ; y = D(x) xor FB ; FB <- TMP ; result y` (R114). -/
def stepCbcDecrypt : BlockStep := fun rk sbox tr x =>
  let t := runTransform rk sbox .decrypt x { tr with tmp := x }
  ({ t with fb := t.tmp }, blockUnload t ^^^ t.fb)

/-- `y = E(FB) xor x ; FB <- y ; result y` (R115). -/
def stepCfbEncrypt : BlockStep := fun rk sbox tr x =>
  let t := runTransform rk sbox .encrypt tr.fb tr
  let y := blockUnload t ^^^ x
  ({ t with fb := y }, y)

/-- `y = E(FB) xor x ; FB <- x ; result y` (R116). -/
def stepCfbDecrypt : BlockStep := fun rk sbox tr x =>
  let t := runTransform rk sbox .encrypt tr.fb tr
  ({ t with fb := x }, blockUnload t ^^^ x)

/-- `FB <- E(FB) ; result FB xor x` (R117, R118).  The first keystream block is `E(iv)` (R106; notes/assumptions/13.md). -/
def stepOfb : BlockStep := fun rk sbox tr x =>
  let t := runTransform rk sbox .encrypt tr.fb tr
  let s := blockUnload t
  ({ t with fb := s }, s ^^^ x)

/-- One block in place: read whole at `8 * BLK`, the block step, written whole, BLK up by one (R109). -/
def processBlock (step : BlockStep) (s : State) : State :=
  let a := 8 * s.tr.blk.toNat
  let r := step s.rk s.sbox s.tr (s.msg.readBlock a)
  { s with tr := { r.1 with blk := r.1.blk + 1 }, msg := s.msg.writeBlock a r.2 }

/-- The next `n` blocks, in ascending order (R109). -/
def processBlocks (step : BlockStep) : Nat → State → State
  | 0, s => s
  | n + 1, s => processBlocks step n (processBlock step s)

/-- `FB <- iv`, not for ECB (R107, R108). -/
def State.loadIv (s : State) (iv : Option Block) : State :=
  match iv with
  | none => s
  | some v => { s with tr := { s.tr with fb := v } }

/-- BLK from 0 to NBLK - 1 (R109). -/
def processMessage (step : BlockStep) (s : State) : State :=
  processBlocks step s.tr.nblk.toNat { s with tr := { s.tr with blk := 0 } }

/-- The common frame of the four encrypt commands (R107). -/
def encryptFrame (step : BlockStep) (iv : Option Block) (s : State) : Result :=
  requireReady true s fun s =>
    let p := padlen s.len.toNat
    if s.cfg.msgBytes < s.len.toNat + p then raise .len s
    else
      let t := processMessage step (s.padStep.loadIv iv)
      complete 0 { t with len := BitVec.ofNat 16 (s.len.toNat + p) }

/-- The common frame of the four decrypt commands (R108). -/
def decryptFrame (step : BlockStep) (iv : Option Block) (s : State) : Result :=
  requireReady true s fun s =>
    if s.len.toNat = 0 ∨ s.len.toNat % 8 ≠ 0 then raise .len s
    else
      let t := { s with tr := { s.tr with nblk := BitVec.ofNat 14 (s.len.toNat / 8) } }
      unpadStep (processMessage step (t.loadIv iv))

end Sys2Proof.Machine
end

