-- ==== Sys2Proof/Machine/Modes.lean ====
section
/-! DEFINITION. The eight mode commands (spec/44_modes.md R111 to R118): each is its block step in the common frame. -/

namespace Sys2Proof.Machine

/-- ENC_ECB (R111). -/
def execEncEcb (s : State) : Result := encryptFrame stepEcbEncrypt none s

/-- DEC_ECB (R112). -/
def execDecEcb (s : State) : Result := decryptFrame stepEcbDecrypt none s

/-- ENC_CBC (R113). -/
def execEncCbc (iv : Block) (s : State) : Result := encryptFrame stepCbcEncrypt (some iv) s

/-- DEC_CBC (R114). -/
def execDecCbc (iv : Block) (s : State) : Result := decryptFrame stepCbcDecrypt (some iv) s

/-- ENC_CFB (R115). -/
def execEncCfb (iv : Block) (s : State) : Result := encryptFrame stepCfbEncrypt (some iv) s

/-- DEC_CFB (R116). -/
def execDecCfb (iv : Block) (s : State) : Result := decryptFrame stepCfbDecrypt (some iv) s

/-- ENC_OFB (R117). -/
def execEncOfb (iv : Block) (s : State) : Result := encryptFrame stepOfb (some iv) s

/-- DEC_OFB (R118). -/
def execDecOfb (iv : Block) (s : State) : Result := decryptFrame stepOfb (some iv) s

end Sys2Proof.Machine
end

