-- ==== Sys2Proof/Machine/Primitives.lean ====
section
/-! DEFINITION. The primitives RNDF, ENCBLK, DECBLK, which take their data from the packet and return it in the response
(spec/41_round_function.md R81, spec/42_feistel_core.md R91, R92).  They write no architectural state; a block transform
runs in the transient registers. -/

namespace Sys2Proof.Machine

/-- RNDF (R81). -/
def execRndf (half subkey : Word) (s : State) : Result :=
  requireReady true s fun s => complete (zext64 (f s.sbox half subkey)) s

/-- One block through the iteration core; returns the unloaded block. -/
def transformCommand (order : RoundKeyOrder) (d : Block) (s : State) : Result :=
  requireReady true s fun s =>
    let tr := runTransform s.rk s.sbox order d s.tr
    complete (blockUnload tr) { s with tr := tr }

/-- ENCBLK (R91). -/
def execEncblk (d : Block) (s : State) : Result := transformCommand .encrypt d s

/-- DECBLK (R92). -/
def execDecblk (d : Block) (s : State) : Result := transformCommand .decrypt d s

end Sys2Proof.Machine
end

