-- ==== Sys2Proof/Machine/System.lean ====
section
/-! DEFINITION. The system commands NOP, RDSR, CLRERR (spec/46_system.md). -/

namespace Sys2Proof.Machine

/-- NOP (R129): the response is `OK, 0`. -/
def execNop (s : State) : Result := complete 0 s

/-- RDSR (R130): returns the status word; reading clears nothing. -/
def execRdsr (s : State) : Result := complete (statusWord s.ready s.err s.len) s

/-- CLRERR (R131): all five flags to 0. -/
def execClrerr (s : State) : Result := complete 0 s.clearErrors

end Sys2Proof.Machine
end

