-- ==== Sys2Proof/Machine/Dispatch.lean ====
section
/-! DEFINITION. One arm per command: the effect of a command that has been decoded (spec/30_encoding.md R53, R58). -/

namespace Sys2Proof.Machine

def exec (i : Instr) (s : State) : Host.Outcome State Fault Refusal :=
  match i with
  | .nop => Sys2Proof.Machine.execNop s
  | .rdsr => Sys2Proof.Machine.execRdsr s
  | .clrerr => Sys2Proof.Machine.execClrerr s
  | .clr => Sys2Proof.Machine.execClr s
  | .init => Sys2Proof.Machine.execInit s
  | .ldk k w => Sys2Proof.Machine.execLdk k w s
  | .lds t n v => Sys2Proof.Machine.execLds t n v s
  | .wrb addr b => Sys2Proof.Machine.execWrb addr b s
  | .rdb addr => Sys2Proof.Machine.execRdb addr s
  | .wrq addr q => Sys2Proof.Machine.execWrq addr q s
  | .rdq addr => Sys2Proof.Machine.execRdq addr s
  | .setlen len => Sys2Proof.Machine.execSetlen len s
  | .rndf half subkey => Sys2Proof.Machine.execRndf half subkey s
  | .encblk d => Sys2Proof.Machine.execEncblk d s
  | .decblk d => Sys2Proof.Machine.execDecblk d s
  | .encEcb => Sys2Proof.Machine.execEncEcb s
  | .decEcb => Sys2Proof.Machine.execDecEcb s
  | .encCbc iv => Sys2Proof.Machine.execEncCbc iv s
  | .decCbc iv => Sys2Proof.Machine.execDecCbc iv s
  | .encCfb iv => Sys2Proof.Machine.execEncCfb iv s
  | .decCfb iv => Sys2Proof.Machine.execDecCfb iv s
  | .encOfb iv => Sys2Proof.Machine.execEncOfb iv s
  | .decOfb iv => Sys2Proof.Machine.execDecOfb iv s

end Sys2Proof.Machine
end

