-- ==== Sys2Proof/Machine/Port.lean ====
section
/-! DEFINITION. The host port (spec/30_encoding.md R51 to R54): acceptance, the check order's first check (decode, R136),
delivery, and reset (spec/70_reset_and_hazards.md R144, R145), one clock edge of the host's signals a step.  The work of
a command is done in the step that accepts it and its response is valid at once (R53 d; R148 gives no time;
notes/assumptions/6.md). -/

namespace Sys2Proof.Machine

/-- What CORE drives on the port (R52): `cmd_ready`, `rsp_valid`, and `rsp[71:0]` where it is valid. -/
structure PortOutput where
  cmdReady : Bool
  rspValid : Bool
  rsp : Option (BitVec 72)
  deriving DecidableEq, Repr

/-- `cmd_ready` is 1 exactly when PHASE is IDLE, `rsp_valid` while a response is held (R52, R53 b); both are 0 while
`rst_n` is 0 (R144). -/
def State.outputs (s : State) (rstN : Bool) : PortOutput :=
  { cmdReady := rstN && decide (s.phase = .idle)
    rspValid := rstN && s.rsp.isSome
    rsp := if rstN then s.rsp.map Response.bits else none }

/-- An accepted packet: an illegal one is refused with ILL, a legal one is executed (R60, R136). -/
def runPacket (cw : Packet) (s : State) : Result :=
  match decode cw with
  | .error _ => raise .ill (s.accept none)
  | .ok i => exec i (s.accept (couldWrite s.len i))

/-- One clock edge with the host's signals `c` (R52): reset when `rst_n` is 0; in IDLE a valid packet is accepted; in
BUSY a valid response the host is ready for is delivered; otherwise nothing happens (notes/assumptions/11.md and 12.md). -/
def clockEdge (c : PortInput) (s : State) : Result :=
  if c.rstN = false then .next s.applyReset
  else if (s.outputs c.rstN).cmdReady ∧ c.cmdValid then runPacket c.cmd s
  else if (s.outputs c.rstN).rspValid ∧ c.rspReady then .next s.deliver
  else .next s

/-- The next clock edge the host drives; with none to come the state stays as it is (R147). -/
def portStep (s : State) : Result :=
  match s.inputs with
  | [] => .next s
  | c :: rest => clockEdge c { s with inputs := rest }

/-- The effect of a list of commands: the left fold of the command rules over the list (R47). -/
def execAll : List Instr → State → Result
  | [], s => .next s
  | i :: rest, s =>
    match exec i s with
    | .next t => execAll rest t
    | .fault r => .fault r
    | .refused r => .refused r

/-- The signals of a host that presents a packet. -/
def PortInput.present (cw : Packet) : PortInput :=
  { rstN := true, cmdValid := true, cmd := cw, rspReady := false }

/-- The host presents `cw` at the next clock edge, after it has taken a response that is still held: the packet is
accepted there. -/
def State.presented (s : State) (cw : Packet) : State :=
  { s.deliver with phase := .idle, inputs := .present cw :: s.inputs }

end Sys2Proof.Machine
end

