-- ==== Sys2Proof/Machine/Step.lean ====
section
/-! DEFINITION. The step of the machine, and how the host's probe makes the next step run a given instruction.
CORE fetches nothing (spec/10_state.md R28): commands come from the host port only, so a program is a list of packets
presented there from outside the machine (notes/assumptions/7.md). -/

namespace Sys2Proof.Machine

def step (s : State) : Host.Outcome State Fault Refusal := portStep s

/-- `s` with the packet of bits `w` (those from `nbits` up zero) presented on the port at the very next clock edge. -/
def State.withFetchWord (s : State) (nbits w : Nat) : State :=
  s.presented (BitVec.ofNat 96 (w % 2 ^ nbits))

end Sys2Proof.Machine
end

