-- ==== Sys2Proof/Machine/Assembler.lean ====
section
/-! DEFINITION. The notation for command lists (spec/30_encoding.md R62): a command and a response as a line of text,
and a line read back; and the pseudo-commands, each the list of commands it stands for (R63).  CORE never sees either. -/

namespace Sys2Proof

/-- The operands of a command in the order of R62, as numbers. -/
def Instr.operands : Instr → List Nat
  | .ldk i w => [i, w.toNat]
  | .lds t n v => [t, n, v.toNat]
  | .wrb addr b => [addr.toNat, b.toNat]
  | .rdb addr => [addr.toNat]
  | .wrq addr q => [addr.toNat, q.toNat]
  | .rdq addr => [addr.toNat]
  | .setlen len => [len.toNat]
  | .rndf half subkey => [half.toNat, subkey.toNat]
  | .encblk d => [d.toNat]
  | .decblk d => [d.toNat]
  | .encCbc iv => [iv.toNat]
  | .decCbc iv => [iv.toNat]
  | .encCfb iv => [iv.toNat]
  | .decCfb iv => [iv.toNat]
  | .encOfb iv => [iv.toNat]
  | .decOfb iv => [iv.toNat]
  | .nop => []
  | .rdsr => []
  | .clrerr => []
  | .clr => []
  | .init => []
  | .encEcb => []
  | .decEcb => []

/-- One line of a command list: the mnemonic, then the operands in decimal, separated by commas (R62). -/
def Instr.line (i : Instr) : String :=
  match i.operands with
  | [] => i.row.mnemonic
  | x :: xs => i.row.mnemonic ++ " " ++ xs.foldl (fun acc y => acc ++ ", " ++ toString y) (toString x)

namespace Machine

/-- The name of a completion code (R132). -/
def Code.name : Code → String
  | .ok => "OK"
  | .ill => "ILL"
  | .state => "STATE"
  | .addr => "ADDR"
  | .len => "LEN"
  | .pad => "PAD"

/-- A response as a line: `-> CODE, RDAT` (R62). -/
def Response.line (r : Response) : String := "-> " ++ r.code.name ++ ", " ++ toString r.rdat.toNat

end Machine

/-! ## Reading a line (R62) -/

namespace Asm

/-- The command of a mnemonic and its operands in the order of R62; none for another mnemonic, another number of
operands, or an operand that does not fit its field (R123: such a line "is not expressible in the assembler"). -/
def command (mnemonic : String) (operands : List Nat) : Option Instr :=
  match mnemonic, operands with
  | "NOP", [] => some .nop
  | "RDSR", [] => some .rdsr
  | "CLRERR", [] => some .clrerr
  | "CLR", [] => some .clr
  | "INIT", [] => some .init
  | "LDK", [i, w] => if i < 8 ∧ w < 2 ^ 32 then some (.ldk i (BitVec.ofNat 32 w)) else none
  | "LDS", [t, n, v] => if t < 8 ∧ n < 16 ∧ v < 16 then some (.lds t n (BitVec.ofNat 4 v)) else none
  | "WRB", [addr, b] =>
    if addr < 2 ^ 16 ∧ b < 2 ^ 8 then some (.wrb (BitVec.ofNat 16 addr) (BitVec.ofNat 8 b)) else none
  | "RDB", [addr] => if addr < 2 ^ 16 then some (.rdb (BitVec.ofNat 16 addr)) else none
  | "WRQ", [addr, q] =>
    if addr < 2 ^ 16 ∧ q < 2 ^ 64 then some (.wrq (BitVec.ofNat 16 addr) (BitVec.ofNat 64 q)) else none
  | "RDQ", [addr] => if addr < 2 ^ 16 then some (.rdq (BitVec.ofNat 16 addr)) else none
  | "SETLEN", [len] => if len < 2 ^ 16 then some (.setlen (BitVec.ofNat 16 len)) else none
  | "RNDF", [half, subkey] =>
    if half < 2 ^ 32 ∧ subkey < 2 ^ 32 then some (.rndf (BitVec.ofNat 32 half) (BitVec.ofNat 32 subkey)) else none
  | "ENCBLK", [d] => if d < 2 ^ 64 then some (.encblk (BitVec.ofNat 64 d)) else none
  | "DECBLK", [d] => if d < 2 ^ 64 then some (.decblk (BitVec.ofNat 64 d)) else none
  | "ENC_ECB", [] => some .encEcb
  | "DEC_ECB", [] => some .decEcb
  | "ENC_CBC", [iv] => if iv < 2 ^ 64 then some (.encCbc (BitVec.ofNat 64 iv)) else none
  | "DEC_CBC", [iv] => if iv < 2 ^ 64 then some (.decCbc (BitVec.ofNat 64 iv)) else none
  | "ENC_CFB", [iv] => if iv < 2 ^ 64 then some (.encCfb (BitVec.ofNat 64 iv)) else none
  | "DEC_CFB", [iv] => if iv < 2 ^ 64 then some (.decCfb (BitVec.ofNat 64 iv)) else none
  | "ENC_OFB", [iv] => if iv < 2 ^ 64 then some (.encOfb (BitVec.ofNat 64 iv)) else none
  | "DEC_OFB", [iv] => if iv < 2 ^ 64 then some (.decOfb (BitVec.ofNat 64 iv)) else none
  | _, _ => none

/-- The value of one digit, hexadecimal letters in either case. -/
def digit (c : Char) : Option Nat :=
  if 48 ≤ c.toNat ∧ c.toNat ≤ 57 then some (c.toNat - 48)
  else if 65 ≤ c.toNat ∧ c.toNat ≤ 70 then some (c.toNat - 55)
  else if 97 ≤ c.toNat ∧ c.toNat ≤ 102 then some (c.toNat - 87)
  else none

/-- The digits after the value read so far. -/
def digits (base acc : Nat) : List Char → Option Nat
  | [] => some acc
  | c :: cs =>
    match digit c with
    | none => none
    | some d => if d < base then digits base (base * acc + d) cs else none

/-- "Numbers are decimal, or hexadecimal with the prefix `0x`". -/
def number : List Char → Option Nat
  | [] => none
  | ['0', 'x'] => none
  | '0' :: 'x' :: cs => digits 16 0 cs
  | cs => digits 10 0 cs

/-- The pieces between the commas. -/
def pieces : List Char → List (List Char)
  | [] => [[]]
  | c :: cs =>
    match pieces cs with
    | [] => [[c]]
    | p :: ps => if c = ',' then [] :: p :: ps else (c :: p) :: ps

/-- Without the blanks before and after. -/
def trim (cs : List Char) : List Char :=
  ((cs.dropWhile (· = ' ')).reverse.dropWhile (· = ' ')).reverse

/-- All of a list of optional numbers. -/
def allNumbers : List (Option Nat) → Option (List Nat)
  | [] => some []
  | none :: _ => none
  | some x :: xs => (allNumbers xs).map (x :: ·)

/-- The command of a line: the text from a semicolon on is a comment, blanks around it are dropped; the mnemonic
runs to the next blank, and the operands follow, separated by commas (notes/assumptions/14.md). -/
def line (s : String) : Option Instr :=
  let body := trim (s.toList.takeWhile (· ≠ ';'))
  let mnemonic := body.takeWhile (· ≠ ' ')
  let rest := trim (body.drop mnemonic.length)
  let operands := if rest.isEmpty then some [] else allNumbers ((pieces rest).map fun p => number (trim p))
  operands.bind (command (String.ofList mnemonic))

end Asm

/-! ## Pseudo-commands (R63) -/

namespace Pseudo

open Machine

/-- `LDKEY k`: `LDK i, k[32*i+31 : 32*i]` for `i = 0 .. 7`. -/
def ldkey (k : BitVec 256) : List Instr :=
  (List.range 8).map fun i => .ldk i (k.extractLsb' (32 * i) 32)

/-- `LDSROW t, r`: `LDS t, n, nib(r, n)` for `n = 0 .. 15`. -/
def ldsrow (t : Nat) (r : Block) : List Instr :=
  (List.range 16).map fun n => .lds t n (r.extractLsb' (4 * n) 4)

/-- `LDSALL r0, ..., r7`: `LDSROW t, r_t` for `t = 0 .. 7`. -/
def ldsall (rows : Vector Block 8) : List Instr :=
  (List.finRange 8).flatMap fun t => ldsrow t.val (rows.get t)

/-- `LDMSG b_0 ... b_(n-1)`: `WRB k, b_k` for `k = 0 .. n-1`, then `SETLEN n`.  DESIGN CHOICE (notes/assumptions/16.md): of
more than 65535 bytes R63 gives no meaning, since the operands do not fit their 16 bits; here they wrap. -/
def ldmsg (bytes : List Byte) : List Instr :=
  bytes.zipIdx.map (fun bk => .wrb (BitVec.ofNat 16 bk.2) bk.1) ++ [.setlen (BitVec.ofNat 16 bytes.length)]

/-- `RDMSG n`: `RDB k` for `k = 0 .. n-1`.  DESIGN CHOICE (notes/assumptions/16.md): for `n` above 65536 R63 gives no
meaning, since the addresses do not fit their 16 bits; here they wrap. -/
def rdmsg (n : Nat) : List Instr := (List.range n).map fun k => .rdb (BitVec.ofNat 16 k)

/-- `CONSTRUCT k, r0, ..., r7`: `CLR`, `LDKEY k`, `LDSALL r0, ..., r7`, `INIT`. -/
def construct (k : BitVec 256) (rows : Vector Block 8) : List Instr :=
  [.clr] ++ ldkey k ++ ldsall rows ++ [.init]

end Pseudo

end Sys2Proof
end

