-- ==== Sys2Proof/Machine/ModeFunctions.lean ====
section
/-! DEFINITION. The four modes as functions on sequences of blocks (spec/44_modes.md R104 to R106), by which the
statements say what the mode commands compute. -/

namespace Sys2Proof.Machine

/-- The mode of operation, encoded in the opcode of the mode command (R59). -/
inductive Mode where
  | ecb
  | cbc
  | cfb
  | ofb
  deriving DecidableEq, Repr

/-- CBC encryption: `c_i = E(m_i xor prev_i)`, `prev_(i+1) = c_i`. -/
def cbcEncrypt (E : Block → Block) : Block → List Block → List Block
  | _, [] => []
  | prev, m :: ms =>
    let c := E (m ^^^ prev)
    c :: cbcEncrypt E c ms

/-- CBC decryption: `m_i = D(c_i) xor prev_i`, `prev_(i+1) = c_i`. -/
def cbcDecrypt (D : Block → Block) : Block → List Block → List Block
  | _, [] => []
  | prev, c :: cs => (D c ^^^ prev) :: cbcDecrypt D c cs

/-- CFB encryption: `c_i = E(prev_i) xor m_i`, `prev_(i+1) = c_i`. -/
def cfbEncrypt (E : Block → Block) : Block → List Block → List Block
  | _, [] => []
  | prev, m :: ms =>
    let c := E prev ^^^ m
    c :: cfbEncrypt E c ms

/-- CFB decryption: `m_i = E(prev_i) xor c_i`, `prev_(i+1) = c_i`. -/
def cfbDecrypt (E : Block → Block) : Block → List Block → List Block
  | _, [] => []
  | prev, c :: cs => (E prev ^^^ c) :: cfbDecrypt E c cs

/-- `OFBX`, the keystream xor: `s_0 = E(iv)`, `s_i = E(s_(i-1))`, block `i` xor `s_i` (R106, R120). -/
def ofbXor (E : Block → Block) : Block → List Block → List Block
  | _, [] => []
  | prev, b :: bs =>
    let s := E prev
    (s ^^^ b) :: ofbXor E s bs

/-- The encrypt column of the table of R104. -/
def Mode.encrypt (mode : Mode) (E : Block → Block) (iv : Block) (blocks : List Block) : List Block :=
  match mode with
  | .ecb => blocks.map E
  | .cbc => cbcEncrypt E iv blocks
  | .cfb => cfbEncrypt E iv blocks
  | .ofb => ofbXor E iv blocks

/-- The decrypt column of the table of R104. -/
def Mode.decrypt (mode : Mode) (E D : Block → Block) (iv : Block) (blocks : List Block) : List Block :=
  match mode with
  | .ecb => blocks.map D
  | .cbc => cbcDecrypt D iv blocks
  | .cfb => cfbDecrypt E iv blocks
  | .ofb => ofbXor E iv blocks

/-- The encrypt command of a mode (R59); ECB takes no IV. -/
def Mode.encryptCommand (mode : Mode) (iv : Block) : Instr :=
  match mode with
  | .ecb => .encEcb
  | .cbc => .encCbc iv
  | .cfb => .encCfb iv
  | .ofb => .encOfb iv

/-- The decrypt command of a mode (R59); ECB takes no IV. -/
def Mode.decryptCommand (mode : Mode) (iv : Block) : Instr :=
  match mode with
  | .ecb => .decEcb
  | .cbc => .decCbc iv
  | .cfb => .decCfb iv
  | .ofb => .decOfb iv

end Sys2Proof.Machine
end

