-- ==== Sys2Proof/Safety.lean ====
section
/-! DEFINITION. What a state of a run of CORE satisfies, and the terms in which the statements say what a command changes
and what it leaves (spec/10_state.md R14 to R33, spec/60_exceptions.md R132 to R139). -/

namespace Sys2Proof.Machine

/-! ## The invariant -/

/-- The buffer, its size and LEN are as the spec allows them. -/
structure BufferInv (s : State) : Prop where
  /-- R7: MSG_BYTES is legal. -/
  cfgLegal : s.cfg.legal
  /-- R23: "`0 <= LEN <= MSG_BYTES`; every writer keeps LEN in that range". -/
  lenInRange : s.len.toNat ≤ s.cfg.msgBytes
  /-- The memory is in canonical form. -/
  msgWf : s.msg.wf
  /-- R35: an address is valid when it is below MSG_BYTES; no other byte exists. -/
  msgInRange : ∀ c ∈ s.msg, c.1 < s.cfg.msgBytes

/-- The invariant of every run. -/
structure Inv (s : State) : Prop where
  buffer : BufferInv s
  /-- R17, R18: while READY = 1, `RK[i] = KEY[i]`. -/
  rkIsKey : s.ready = true → s.rk = s.key
  /-- R17: RK is zero until INIT derives it; CLR and reset clear it. -/
  rkClear : s.ready = false → s.rk = Vector.replicate 8 0
  /-- R29, R53: PHASE is IDLE exactly when no response is held. -/
  idleIffNoRsp : s.phase = .idle ↔ s.rsp = none
  /-- R54: RDAT is 0 for every refused command. -/
  refusedRdat : ∀ r, s.rsp = some r → r.code ≠ .ok → r.rdat = 0

/-! ## What stays the same -/

/-- The port's fields but for the response, and the parameter, are unchanged. -/
def SamePort (s t : State) : Prop :=
  t.cfg = s.cfg ∧ t.phase = s.phase ∧ t.inFlight = s.inFlight ∧ t.inputs = s.inputs ∧
    t.delivered = s.delivered ∧ t.aborts = s.aborts

/-- The cipher instance is unchanged: KEY, RK, SBOX, READY. -/
def SameInstance (s t : State) : Prop :=
  t.key = s.key ∧ t.rk = s.rk ∧ t.sbox = s.sbox ∧ t.ready = s.ready

/-- Every byte of MSG reads as before. -/
def SameBytes (s t : State) : Prop := ∀ a, t.msg.readByte a = s.msg.readByte a

/-- Every byte of MSG outside the `n` bytes from address `lo` up reads as before. -/
def SameBytesOutside (lo n : Nat) (s t : State) : Prop :=
  ∀ a, (a < lo ∨ lo + n ≤ a) → t.msg.readByte a = s.msg.readByte a

/-- All architectural state but PHASE is unchanged. -/
def SameArch (s t : State) : Prop :=
  SameInstance s t ∧ t.err = s.err ∧ t.len = s.len ∧ SameBytes s t

/-- Bit `CODE - 1` of ERR is set and the other four bits are as they were (R132, R137 a). -/
def ErrRaised (c : Code) (s t : State) : Prop :=
  ∀ k < 5, t.err.getLsbD k = (s.err.getLsbD k || decide (k + 1 = c.number.toNat))

/-- The state after `n` clock edges. -/
def steps : Nat → State → Result
  | 0, s => .next s
  | n + 1, s =>
    match step s with
    | .next t => steps n t
    | .fault r => .fault r
    | .refused r => .refused r

/-! ## How a command ends -/

/-- The command completes: it answers a next state with the response OK and `rdat`, the port otherwise as it was, and
`P` of the next state. -/
def Completes (i : Instr) (s : State) (rdat : Block) (P : State → Prop) : Prop :=
  ∃ t, exec i s = .next t ∧ t.rsp = some ⟨.ok, rdat⟩ ∧ SamePort s t ∧ P t

/-- A result is a clean refusal (R138): the response is the code with RDAT = 0, one ERR bit is raised, and nothing else
of the architectural state and the port changes. -/
def CleanRefusal (r : Result) (s : State) (c : Code) : Prop :=
  ∃ t, r = .next t ∧ t.rsp = some ⟨c, 0⟩ ∧ ErrRaised c s t ∧ SamePort s t ∧ SameInstance s t ∧
    t.len = s.len ∧ SameBytes s t

/-- The commands that run on the transient registers (R30: the block transform and the mode control). -/
def usesTransients : Instr → Bool
  | .encblk _ => true
  | .decblk _ => true
  | .encEcb => true
  | .decEcb => true
  | .encCbc _ => true
  | .decCbc _ => true
  | .encCfb _ => true
  | .decCfb _ => true
  | .encOfb _ => true
  | .decOfb _ => true
  | .nop => false
  | .rdsr => false
  | .clrerr => false
  | .clr => false
  | .init => false
  | .ldk _ _ => false
  | .lds _ _ _ => false
  | .wrb _ _ => false
  | .rdb _ => false
  | .wrq _ _ => false
  | .rdq _ => false
  | .setlen _ => false
  | .rndf _ _ => false

/-- The value of READY a command needs (R135). -/
def needsReady : Instr → Option Bool
  | .ldk _ _ => some false
  | .lds _ _ _ => some false
  | .init => some false
  | .rndf _ _ => some true
  | .encblk _ => some true
  | .decblk _ => some true
  | .encEcb => some true
  | .decEcb => some true
  | .encCbc _ => some true
  | .decCbc _ => some true
  | .encCfb _ => some true
  | .decCfb _ => some true
  | .encOfb _ => some true
  | .decOfb _ => some true
  | .nop => none
  | .rdsr => none
  | .clrerr => none
  | .clr => none
  | .wrb _ _ => none
  | .rdb _ => none
  | .wrq _ _ => none
  | .rdq _ => none
  | .setlen _ => none

/-- The codes the execution of a command can answer (R133 without its column ILL, which is the decoder's). -/
def possibleCodes : Instr → List Code
  | .nop => [.ok]
  | .rdsr => [.ok]
  | .clrerr => [.ok]
  | .clr => [.ok]
  | .init => [.ok, .state]
  | .ldk _ _ => [.ok, .state]
  | .lds _ _ _ => [.ok, .state]
  | .wrb _ _ => [.ok, .addr]
  | .rdb _ => [.ok, .addr]
  | .wrq _ _ => [.ok, .addr]
  | .rdq _ => [.ok, .addr]
  | .setlen _ => [.ok, .len]
  | .rndf _ _ => [.ok, .state]
  | .encblk _ => [.ok, .state]
  | .decblk _ => [.ok, .state]
  | .encEcb => [.ok, .state, .len]
  | .encCbc _ => [.ok, .state, .len]
  | .encCfb _ => [.ok, .state, .len]
  | .encOfb _ => [.ok, .state, .len]
  | .decEcb => [.ok, .state, .len, .pad]
  | .decCbc _ => [.ok, .state, .len, .pad]
  | .decCfb _ => [.ok, .state, .len, .pad]
  | .decOfb _ => [.ok, .state, .len, .pad]

/-- The plaintext, pad included, that a decrypt command of `mode` makes of the message of `s` (R104, R108). -/
def decrypted (mode : Mode) (iv : Block) (s : State) : List Byte :=
  join (mode.decrypt s.E s.D iv (split s.message))

/-- The ciphertext that an encrypt command of `mode` makes of the message of `s` (R104, R107). -/
def encrypted (mode : Mode) (iv : Block) (s : State) : List Byte :=
  join (mode.encrypt s.E iv (split (pad s.message)))

end Sys2Proof.Machine
end

