-- ==== Sys2Proof/Certificates/Slice0/Obligations.lean ====
section
/-! DEFINITION. The statements about CORE, from the numbered rules of spec/.  Each docstring names the rules it
formalises; OBLIGATIONS.json lists them. -/

open Sys2Proof Sys2Proof.Machine

/-! ## Packets (spec/30_encoding.md) -/

/-- R55 to R58, R61: decoding the packet of a well-formed command gives the command back, every operand included; and a
packet that decodes to a command is that command's packet, of a well-formed command. -/
def Obligations.PacketRoundTrip : Prop :=
  (∀ i : Instr, i.WellFormed → decode (encode i) = .ok i) ∧
  (∀ (cw : Packet) (i : Instr), decode cw = .ok i → i.WellFormed ∧ encode i = cw)

/-- R58: "A packet `cw` selects the row with `(cw and mask) = match`; no two rows can match one packet because the
opcodes differ; a packet that matches no row is illegal". -/
def Obligations.DecoderFollowsOpcodeMap : Prop :=
  opcodeTable.length = 23 ∧
  (∀ (cw : Packet) (i : Instr), decode cw = .ok i → i.row ∈ opcodeTable ∧ cw &&& i.row.mask = i.row.pattern) ∧
  (∀ (cw : Packet) (r : OpcodeRow), r ∈ opcodeTable → cw &&& r.mask = r.pattern →
    ∃ i, decode cw = .ok i ∧ i.row = r) ∧
  (∀ (cw : Packet) (r r' : OpcodeRow), r ∈ opcodeTable → r' ∈ opcodeTable →
    cw &&& r.mask = r.pattern → cw &&& r'.mask = r'.pattern → r = r') ∧
  (∀ cw : Packet, (∀ r ∈ opcodeTable, cw &&& r.mask ≠ r.pattern) → ∃ e, decode cw = .error e)

/-- R60: a packet is illegal exactly when its OPC is not listed, its RSV is not 0, or a bit its format marks "0" is 1;
CORE, in IDLE, refuses it with ILL: E_ILL is set, RDAT is 0, and nothing else changes (PHASE is BUSY until the response
is delivered). -/
def Obligations.IllegalPacketsRefused : Prop :=
  (∀ cw : Packet, (∃ e, decode cw = .error e) ↔
    ((∀ r ∈ opcodeTable, cw.opc ≠ r.pattern.extractLsb' 88 8) ∨ cw.rsv ≠ 0 ∨
      ∃ r ∈ opcodeTable, cw.opc = r.pattern.extractLsb' 88 8 ∧
        cw &&& (r.mask &&& 0x0000FFFFFFFFFFFFFFFFFFFF) ≠ 0)) ∧
  (∀ (s : State) (c : PortInput) (rest : List PortInput) (e : Illegal),
    s.inputs = c :: rest → c.rstN = true → c.cmdValid = true → s.phase = .idle → decode c.cmd = .error e →
    CleanRefusal (step s) { s with inputs := rest, phase := .busy, inFlight := none } .ill)

/-- Words of the opcode map and of spec/95_test_vectors.md, written out bit field by bit field, decode to what they
stand for (a sanity statement). -/
def Obligations.DecodeKnownPackets : Prop :=
  decode 0x000000000000000000000000 = .ok .nop ∧
  decode 0x100000070000000080000000 = .ok (.ldk 7 0x80000000) ∧
  decode 0x1100002F000000000000000A = .ok (.lds 2 15 10) ∧
  decode 0x2000003F00000000000000FF = .ok (.wrb 63 0xFF) ∧
  decode 0x220000081122334455667788 = .ok (.wrq 8 0x1122334455667788) ∧
  decode 0x240000110000000000000000 = .ok (.setlen 17) ∧
  decode 0x30000000123456789ABCDEF0 = .ok (.rndf 0x12345678 0x9ABCDEF0) ∧
  decode 0x460000000101010101010101 = .ok (.encOfb 0x0101010101010101) ∧
  decode 0x480000000000000000000000 = .error .opcode ∧
  decode 0x460100000101010101010101 = .error .reserved ∧
  decode 0x100000080000000000000005 = .error .mustBeZero

/-! ## The port and the step (spec/30_encoding.md R51 to R54, spec/70_reset_and_hazards.md) -/

/-- R52, R53 (a): when CORE is in IDLE and the packet the host presents decodes to the command `i`, the step is `exec i`
at the state in which the packet has been taken, PHASE is BUSY, and the bytes `i` could write are noted (R145).  That the
accepting step does the whole work of the command is the model's choice (notes/assumptions/6.md; R53 allows it: "A
transaction-level model is the function `step : State -> Command -> State x Response`").  The second clause is about the
host's probe: how `withFetchWord` places an instruction (the model's choice, notes/assumptions/7.md) and how the table
numbers its bits (DEDUCED, notes/assumptions/10.md). -/
def Obligations.StepRunsDecodedCommand : Prop :=
  (∀ (s : State) (c : PortInput) (rest : List PortInput) (i : Instr),
    s.inputs = c :: rest → c.rstN = true → c.cmdValid = true → s.phase = .idle → decode c.cmd = .ok i →
    step s = exec i { s with inputs := rest, phase := .busy, inFlight := couldWrite s.len i }) ∧
  (∀ (s : State) (nbits w : Nat) (i : Instr),
    s.phase = .idle → s.rsp = none → decodeTableWord nbits w = some i →
    step (s.withFetchWord nbits w) = exec i { s with phase := .busy, inFlight := couldWrite s.len i })

/-- R52, R53 (a), (b), R147, R154: in BUSY no packet is accepted; the response is held until the host takes it, and
taking it gives the host that response and returns to IDLE with everything else as it was (of the transients this is
the model's choice, notes/assumptions/4.md); in IDLE, with no packet presented or no host signal to come, the state stays
as it is.  R52, R54, R132, R144: `cmd_ready` is 1 exactly in IDLE, `rsp_valid` exactly while a response is held, both 0
while `rst_n` is 0; the response on the port is CODE in bits 71:64, a number 0 to 5, and RDAT in bits 63:0. -/
def Obligations.PortHandshake : Prop :=
  (∀ (s : State) (c : PortInput) (rest : List PortInput) (r : Response),
    s.inputs = c :: rest → c.rstN = true → s.phase = .busy → s.rsp = some r →
    (c.rspReady = false → step s = .next { s with inputs := rest }) ∧
    (c.rspReady = true → step s = .next
      { s with inputs := rest, phase := .idle, rsp := none, inFlight := none, delivered := s.delivered ++ [r] })) ∧
  (∀ (s : State) (c : PortInput) (rest : List PortInput),
    s.inputs = c :: rest → c.rstN = true → c.cmdValid = false → s.phase = .idle → s.rsp = none →
    step s = .next { s with inputs := rest }) ∧
  (∀ s : State, s.inputs = [] → step s = .next s) ∧
  (∀ (s : State) (rstN : Bool),
    ((s.outputs rstN).cmdReady = true ↔ rstN = true ∧ s.phase = .idle) ∧
    ((s.outputs rstN).rspValid = true ↔ rstN = true ∧ ∃ r, s.rsp = some r) ∧
    ∀ r, rstN = true → s.rsp = some r → (s.outputs rstN).rsp = some r.bits) ∧
  (∀ r : Response, r.bits.extractLsb' 64 8 = r.code.number ∧ r.bits.extractLsb' 0 64 = r.rdat) ∧
  [Code.ok, .ill, .state, .addr, .len, .pad].map (fun c => c.number.toNat) = [0, 1, 2, 3, 4, 5]

/-- R53 (b), R132, R137, R156: every command answers one response, with one of the six codes, and touches the port in no
other way; RDAT is 0 unless the code is OK (R54); and no step ever faults or is refused. -/
def Obligations.EveryCommandResponds : Prop :=
  (∀ (i : Instr) (s : State), ∃ t r, exec i s = .next t ∧ t.rsp = some r ∧ SamePort s t ∧
    (r.code ≠ .ok → r.rdat = 0)) ∧
  (∀ s : State, ∃ t, step s = .next t)

/-- R33, R144: the state after reset, for every MSG_BYTES and every content of MSG; and a reset edge gives the registers
their reset values from any state, aborts a command without a response, and leaves the parameter, the responses already
delivered and the host's signals to come. -/
def Obligations.ResetClearsRegisters : Prop :=
  (∀ (cfg : Config) (msg : Memory),
    let s := State.powerUp cfg msg
    (∀ j, s.key.get j = 0) ∧ (∀ j, s.rk.get j = 0) ∧ (∀ j n, (s.sbox.get j).get n = 0) ∧
      s.ready = false ∧ s.err = 0 ∧ s.len = 0 ∧ s.phase = .idle ∧ s.msg = msg ∧ s.cfg = cfg) ∧
  (∀ (s : State) (c : PortInput) (rest : List PortInput), s.inputs = c :: rest → c.rstN = false →
    ∃ t, step s = .next t ∧ (∀ j, t.key.get j = 0) ∧ (∀ j, t.rk.get j = 0) ∧
      (∀ j n, (t.sbox.get j).get n = 0) ∧ t.ready = false ∧ t.err = 0 ∧ t.len = 0 ∧ t.phase = .idle ∧
      t.rsp = none ∧ t.inFlight = none ∧ t.cfg = s.cfg ∧ t.delivered = s.delivered ∧ t.inputs = rest)

/-- R145: "A reset asserted while PHASE is IDLE leaves every byte of MSG as it was".  Asserted while PHASE is BUSY, after
any number of edges at which the host does not take the response, it delivers no response and leaves every byte of MSG
that the command could not have written as it was before the command: all but the addressed bytes of WRB and WRQ, the
padded message of an encrypt command, the message of a decrypt command (R46); and all bytes when the accepted packet is
illegal. -/
def Obligations.ResetKeepsOtherBytes : Prop :=
  (∀ (s t : State) (c : PortInput) (rest : List PortInput), s.inputs = c :: rest → c.rstN = false →
    s.phase = .idle → s.msg.wf → step s = .next t → SameBytes s t) ∧
  (∀ (s : State) (c d : PortInput) (waits rest : List PortInput),
    BufferInv s → s.inputs = c :: (waits ++ d :: rest) → c.rstN = true → c.cmdValid = true → s.phase = .idle →
    (∀ w ∈ waits, w.rstN = true ∧ w.rspReady = false) → d.rstN = false →
    ∃ u, steps (waits.length + 2) s = .next u ∧ u.inputs = rest ∧ u.phase = .idle ∧ u.rsp = none ∧
      u.delivered = s.delivered ∧
      (∀ i, decode c.cmd = .ok i → ∀ a, (∀ b n, couldWrite s.len i = some (b, n) → a < b ∨ b + n ≤ a) →
        u.msg.readByte a = s.msg.readByte a) ∧
      (∀ e, decode c.cmd = .error e → SameBytes s u)) ∧
  (∀ (len addr : Addr) (b : Byte) (q : Block) (mode : Mode) (iv : Block),
    couldWrite len (.wrb addr b) = some (addr.toNat, 1) ∧ couldWrite len (.wrq addr q) = some (addr.toNat, 8) ∧
    couldWrite len (mode.encryptCommand iv) = some (0, 8 * (len.toNat / 8 + 1)) ∧
    couldWrite len (mode.decryptCommand iv) = some (0, len.toNat))

/-! ## Invariants -/

/-- The invariant holds after reset, for every legal MSG_BYTES and every content of MSG. -/
def Obligations.InvariantAtPowerUp : Prop :=
  ∀ (cfg : Config) (msg : Memory), cfg.legal → msg.wf → (∀ c ∈ msg, c.1 < cfg.msgBytes) →
    Inv (State.powerUp cfg msg)

/-- R7, R17, R18, R23, R29, R35, R54: every step, of whatever packet or signal, keeps the invariant. -/
def Obligations.StepKeepsInvariant : Prop :=
  ∀ s t : State, Inv s → step s = .next t → Inv t

/-- R16, R17, R18, R19, R74: while READY = 1 no step changes KEY, RK or SBOX, but for the steps that end the instance,
which erase all three and clear READY. -/
def Obligations.InstanceFrozenWhileReady : Prop :=
  ∀ s t : State, s.ready = true → step s = .next t →
    SameInstance s t ∨
      (t.ready = false ∧ (∀ j, t.key.get j = 0) ∧ (∀ j, t.rk.get j = 0) ∧ ∀ j n, (t.sbox.get j).get n = 0)

/-- R21, R68: only an accepted INIT packet sets READY, and RK is then KEY. -/
def Obligations.OnlyInitSetsReady : Prop :=
  ∀ s t : State, s.ready = false → step s = .next t → t.ready = true →
    (∃ c rest, s.inputs = c :: rest ∧ c.rstN = true ∧ c.cmdValid = true ∧ s.phase = .idle ∧
      decode c.cmd = .ok .init) ∧
    t.rk = s.key ∧ t.key = s.key ∧ t.sbox = s.sbox

/-- R22, R137, R153: only an accepted CLRERR packet and reset clear an ERR flag; no other step does, a successful command
included. -/
def Obligations.OnlyClrerrAndResetClearFlags : Prop :=
  ∀ (s t : State) (k : Nat), step s = .next t → s.err.getLsbD k = true → t.err.getLsbD k = false →
    ∃ c rest, s.inputs = c :: rest ∧
      (c.rstN = false ∨
        (c.rstN = true ∧ c.cmdValid = true ∧ s.phase = .idle ∧ decode c.cmd = .ok .clrerr))

/-! ## What cannot be observed -/

/-- R31: what a command does to the architectural state and to the port, and its response, do not depend on what the
transient registers held. -/
def Obligations.TransientsUnobservable : Prop :=
  ∀ (i : Instr) (s t : State) (tr : Transient), exec i s = .next t →
    ∃ tr', exec i { s with tr := tr } = .next { t with tr := tr' }

/-- R30: only ENCBLK, DECBLK and the mode commands that pass their checks write a transient register.  That every other
command leaves what the last one left there is the model's choice (notes/assumptions/4.md): R31 leaves the values
between commands open. -/
def Obligations.TransientFrame : Prop :=
  ∀ (i : Instr) (s t : State) (r : Response), exec i s = .next t → t.rsp = some r →
    (usesTransients i = false ∨ r.code.cleanRefusal = true) → t.tr = s.tr

/-- R22: "No command's behaviour depends on ERR: a command executes the same whether flags are set or not"; only what
RDSR returns shows the flags (R32). -/
def Obligations.FlagsDoNotSteer : Prop :=
  ∀ (i : Instr) (s t : State) (e : BitVec 5), exec i s = .next t →
    ∃ e' r', exec i { s with err := e } = .next { t with err := e', rsp := r' } ∧ (i ≠ .rdsr → r' = t.rsp)

/-- R16, R142: no command returns anything of KEY: with another KEY the response, MSG, LEN, ERR, READY, SBOX and the
port are the same. -/
def Obligations.KeyNeverReturned : Prop :=
  ∀ (i : Instr) (s t : State) (k : KeyFile), exec i s = .next t →
    ∃ k' r', exec i { s with key := k } = .next { t with key := k', rk := r' }

/-! ## System commands (spec/46_system.md) -/

/-- R129. -/
def Obligations.NopDoesNothing : Prop :=
  ∀ s : State, Completes .nop s 0 (SameArch s)

/-- R24, R130: RDSR returns READY in bit 0, ERR in bits 12:8, LEN in bits 31:16 and 0 elsewhere, and changes nothing. -/
def Obligations.RdsrReturnsStatusWord : Prop :=
  ∀ s : State, ∃ v : Block, Completes .rdsr s v (SameArch s) ∧
    v.getLsbD 0 = s.ready ∧ v.extractLsb' 1 7 = 0 ∧ v.extractLsb' 8 5 = s.err ∧ v.extractLsb' 13 3 = 0 ∧
    v.extractLsb' 16 16 = s.len ∧ v.extractLsb' 32 32 = 0

/-- R131: ERR is 0, everything else as it was. -/
def Obligations.ClrerrClearsFlags : Prop :=
  ∀ s : State, Completes .clrerr s 0 fun t =>
    t.err = 0 ∧ SameInstance s t ∧ t.len = s.len ∧ SameBytes s t

/-! ## Construction (spec/40_construction_keyschedule.md) -/

/-- A command whose index no packet can carry is refused with ILL.  This is the model's choice
(notes/assumptions/5.md): such a command never comes from the decoder. -/
def Obligations.UnencodableIndexRefused : Prop :=
  (∀ (s : State) (i : Nat) (w : Word), 8 ≤ i → CleanRefusal (exec (.ldk i w) s) s .ill) ∧
  (∀ (s : State) (t n : Nat) (v : Nibble), (8 ≤ t ∨ 16 ≤ n) → CleanRefusal (exec (.lds t n v) s) s .ill)

/-- R66: in Unconfigured state LDK writes one word of KEY and nothing else; in Ready state it is refused with STATE. -/
def Obligations.LdkWritesOneWord : Prop :=
  ∀ (s : State) (i : Nat) (w : Word), i < 8 →
    (s.ready = false → Completes (.ldk i w) s 0 fun t =>
      (∀ j : Fin 8, t.key.get j = if j.val = i then w else s.key.get j) ∧
        t.rk = s.rk ∧ t.sbox = s.sbox ∧ t.ready = s.ready ∧ t.err = s.err ∧ t.len = s.len ∧ SameBytes s t) ∧
    (s.ready = true → CleanRefusal (exec (.ldk i w) s) s .state)

/-- R67: in Unconfigured state LDS writes one entry of one table and nothing else; in Ready state it is refused with
STATE. -/
def Obligations.LdsWritesOneEntry : Prop :=
  ∀ (s : State) (t n : Nat) (v : Nibble), t < 8 → n < 16 →
    (s.ready = false → Completes (.lds t n v) s 0 fun u =>
      (∀ (j : Fin 8) (m : Fin 16),
        (u.sbox.get j).get m = if j.val = t ∧ m.val = n then v else (s.sbox.get j).get m) ∧
        u.key = s.key ∧ u.rk = s.rk ∧ u.ready = s.ready ∧ u.err = s.err ∧ u.len = s.len ∧ SameBytes s u) ∧
    (s.ready = true → CleanRefusal (exec (.lds t n v) s) s .state)

/-- R68, R70: in Unconfigured state INIT sets every `RK[i]` to `KEY[i]` and READY to 1, whatever KEY and SBOX hold; in
Ready state it is refused with STATE. -/
def Obligations.InitDerivesRoundKeys : Prop :=
  ∀ s : State,
    (s.ready = false → Completes .init s 0 fun t =>
      (∀ j : Fin 8, t.rk.get j = s.key.get j) ∧ t.ready = true ∧ t.key = s.key ∧ t.sbox = s.sbox ∧
        t.err = s.err ∧ t.len = s.len ∧ SameBytes s t) ∧
    (s.ready = true → CleanRefusal (exec .init s) s .state)

/-- R69: CLR, in either state, zeroes KEY, RK and SBOX and clears READY; MSG, LEN and ERR stay. -/
def Obligations.ClrErasesInstance : Prop :=
  ∀ s : State, Completes .clr s 0 fun t =>
    (∀ j, t.key.get j = 0) ∧ (∀ j, t.rk.get j = 0) ∧ (∀ j n, (t.sbox.get j).get n = 0) ∧ t.ready = false ∧
      t.err = s.err ∧ t.len = s.len ∧ SameBytes s t

/-! ## The key schedule, the round function and the Feistel core -/

/-- R71, R72: the two traversal orders, written out; "`kidx(Decrypt, j) = kidx(Encrypt, 31 - j)` for every
`j = 0 .. 31`". -/
def Obligations.SubkeyOrders : Prop :=
  (List.range 32).map (fun j => (kidx .encrypt j).val) =
    [0, 1, 2, 3, 4, 5, 6, 7, 0, 1, 2, 3, 4, 5, 6, 7, 0, 1, 2, 3, 4, 5, 6, 7, 7, 6, 5, 4, 3, 2, 1, 0] ∧
  (List.range 32).map (fun j => (kidx .decrypt j).val) =
    [0, 1, 2, 3, 4, 5, 6, 7, 7, 6, 5, 4, 3, 2, 1, 0, 7, 6, 5, 4, 3, 2, 1, 0, 7, 6, 5, 4, 3, 2, 1, 0] ∧
  ∀ j < 32, kidx .decrypt j = kidx .encrypt (31 - j)

/-- R75 to R79: bit `b` of the substituted sum, which is bit `b mod 4` of what table `b div 4` gives for nibble
`b div 4` of `half + subkey`, is bit `(b + 11) mod 32` of `f`; and `f(a, b) = f(b, a) = f(a + b, 0)`. -/
def Obligations.RoundFunctionBits : Prop :=
  ∀ (sbox : SboxFile) (half subkey : Word),
    (∀ (l : Fin 8) (k : Nat), k < 4 →
      (f sbox half subkey).getLsbD ((4 * l.val + k + 11) % 32) =
        ((sbox.get l).get ((half + subkey).extractLsb' (4 * l.val) 4).toFin).getLsbD k) ∧
    f sbox half subkey = f sbox subkey half ∧ f sbox half subkey = f sbox (half + subkey) 0

/-- R80: identity tables give `rotl32(half + subkey, 11)`; all-zero tables give 0. -/
def Obligations.SpecialTables : Prop :=
  (∀ (sbox : SboxFile) (half subkey : Word), (∀ (j : Fin 8) (n : Fin 16), ((sbox.get j).get n).toNat = n.val) →
    f sbox half subkey = (half + subkey).rotateLeft 11) ∧
  (∀ (sbox : SboxFile) (half subkey : Word), (∀ (j : Fin 8) (n : Fin 16), (sbox.get j).get n = 0) →
    f sbox half subkey = 0)

/-- R86: "for every 64-bit `b`, every content of RK and every content of SBOX, `D(E(b)) = b` and `E(D(b)) = b`". -/
def Obligations.BlockInvertibility : Prop :=
  ∀ (rk : KeyFile) (sbox : SboxFile) (b : Block),
    transform rk sbox .decrypt (transform rk sbox .encrypt b) = b ∧
    transform rk sbox .encrypt (transform rk sbox .decrypt b) = b

/-- R87: all-zero tables swap the halves, for every key; equal subkeys make `E = D`, an involution; identity tables and
the all-zero key give `E(0) = 0`. -/
def Obligations.DegenerateContents : Prop :=
  (∀ (rk : KeyFile) (sbox : SboxFile) (order : RoundKeyOrder) (b : Block),
    (∀ (j : Fin 8) (n : Fin 16), (sbox.get j).get n = 0) →
    transform rk sbox order b = b.extractLsb' 0 32 ++ b.extractLsb' 32 32) ∧
  (∀ (rk : KeyFile) (sbox : SboxFile) (b : Block), (∀ j, rk.get j = rk.get 0) →
    transform rk sbox .encrypt b = transform rk sbox .decrypt b ∧
    transform rk sbox .encrypt (transform rk sbox .encrypt b) = b) ∧
  (∀ (rk : KeyFile) (sbox : SboxFile), (∀ j, rk.get j = 0) →
    (∀ (j : Fin 8) (n : Fin 16), ((sbox.get j).get n).toNat = n.val) → transform rk sbox .encrypt 0 = 0)

/-- R88 to R90: after a block load of `x` with order `o`, 32 round steps and an unload, the result is
`transform(x, o)`; RND counts the round steps. -/
def Obligations.DatapathComputesTransform : Prop :=
  ∀ (rk : KeyFile) (sbox : SboxFile) (order : RoundKeyOrder) (x : Block) (tr : Transient),
    blockUnload (roundSteps rk sbox 32 (blockLoad order x tr)) = transform rk sbox order x ∧
    ∀ n ≤ 32, (roundSteps rk sbox n (blockLoad order x tr)).rnd.toNat = n

/-- R81: RNDF returns `f(half, subkey)`, zero-extended, and changes nothing; it does not read RK.  In Unconfigured state
it is refused with STATE. -/
def Obligations.RndfReturnsRoundFunction : Prop :=
  ∀ (s : State) (half subkey : Word),
    (s.ready = true → Completes (.rndf half subkey) s (0#32 ++ f s.sbox half subkey) (SameArch s)) ∧
    (s.ready = false → CleanRefusal (exec (.rndf half subkey) s) s .state)

/-- R91, R92: ENCBLK returns `E(d)` and DECBLK returns `D(d)`; neither writes architectural state.  In Unconfigured
state they are refused with STATE. -/
def Obligations.BlockCommandsReturnTransform : Prop :=
  ∀ (s : State) (d : Block),
    (s.ready = true →
      Completes (.encblk d) s (transform s.rk s.sbox .encrypt d) (fun t =>
        SameInstance s t ∧ t.err = s.err ∧ t.len = s.len ∧ SameBytes s t) ∧
      Completes (.decblk d) s (transform s.rk s.sbox .decrypt d) (fun t =>
        SameInstance s t ∧ t.err = s.err ∧ t.len = s.len ∧ SameBytes s t)) ∧
    (s.ready = false →
      CleanRefusal (exec (.encblk d) s) s .state ∧ CleanRefusal (exec (.decblk d) s) s .state)

/-! ## Padding (spec/43_padding.md) -/

/-- R93, R95: what `pad` guarantees of every byte sequence. -/
def Obligations.PadGuarantees : Prop :=
  ∀ m : List Byte,
    (pad m).length % 8 = 0 ∧ m.length < (pad m).length ∧ 8 ≤ (pad m).length ∧
    (pad m).length = 8 * (m.length / 8 + 1) ∧ (pad m).take m.length = m ∧
    (∃ b, (pad m).getLast? = some b ∧ 1 ≤ b.toNat ∧ b.toNat ≤ 8 ∧ (pad m).length = m.length + b.toNat) ∧
    (∀ b ∈ (pad m).drop m.length, b.toNat = (pad m).length - m.length)

/-- R97: "`unpad(pad(m)) = m` for every byte sequence `m`". -/
def Obligations.UnpadUndoesPad : Prop :=
  ∀ m : List Byte, unpad (pad m) = some m

/-- R96: of a non-empty sequence with last byte `p`, `unpad` answers PaddingError if `p < 1`, `p > 8` or `p > n`, and
the first `n - p` bytes otherwise, whatever the other removed bytes hold. -/
def Obligations.UnpadReadsLastByteOnly : Prop :=
  ∀ (m : List Byte) (p : Byte),
    ((p.toNat < 1 ∨ 8 < p.toNat ∨ m.length + 1 < p.toNat) → unpad (m ++ [p]) = none) ∧
    (1 ≤ p.toNat → p.toNat ≤ 8 → p.toNat ≤ m.length + 1 →
      unpad (m ++ [p]) = some (m.take (m.length + 1 - p.toNat)))

/-- R98, R99: `join` is the inverse of `split` on whole blocks, and byte `8*i + k` of `join` is `byte(B_i, k)`. -/
def Obligations.JoinInvertsSplit : Prop :=
  (∀ bs : List Block, split (join bs) = bs) ∧
  (∀ m : List Byte, m.length % 8 = 0 → join (split m) = m) ∧
  (∀ (bs : List Block) (i k : Nat), k < 8 →
    (join bs)[8 * i + k]? = bs[i]?.map fun b => b.extractLsb' (8 * k) 8)

/-! ## The message buffer (spec/20_memory.md, spec/45_buffer_access.md) -/

/-- R38: the block at address `a` is the sum of `MSG[a + k] * 2^(8*k)`, and the write puts `byte(v, k)` at `a + k`. -/
def Obligations.BlocksAreLittleEndian : Prop :=
  (∀ (m : Memory) (a : Nat),
    (m.readBlock a).toNat = ((List.range 8).map fun k => (m.readByte (a + k)).toNat * 2 ^ (8 * k)).sum) ∧
  (∀ (m : Memory) (a : Nat) (v : Block) (x : Nat), m.wf →
    (m.writeBlock a v).readByte x =
      if a ≤ x ∧ x < a + 8 then v.extractLsb' (8 * (x - a)) 8 else m.readByte x)

/-- R41, R123: WRB writes its one byte and nothing else; an address that is not in the buffer is refused with ADDR. -/
def Obligations.WrbWritesOneByte : Prop :=
  ∀ (s : State) (addr : Addr) (b : Byte), s.msg.wf →
    (addr.toNat < s.cfg.msgBytes → Completes (.wrb addr b) s 0 fun t =>
      t.msg.readByte addr.toNat = b ∧ SameBytesOutside addr.toNat 1 s t ∧
        SameInstance s t ∧ t.err = s.err ∧ t.len = s.len) ∧
    (s.cfg.msgBytes ≤ addr.toNat → CleanRefusal (exec (.wrb addr b) s) s .addr)

/-- R41, R124: RDB returns its byte, zero-extended, and changes nothing; an address that is not in the buffer is refused
with ADDR. -/
def Obligations.RdbReturnsByte : Prop :=
  ∀ (s : State) (addr : Addr),
    (addr.toNat < s.cfg.msgBytes →
      Completes (.rdb addr) s (0#56 ++ s.msg.readByte addr.toNat) (SameArch s)) ∧
    (s.cfg.msgBytes ≤ addr.toNat → CleanRefusal (exec (.rdb addr) s) s .addr)

/-- R41, R125: WRQ writes `byte(q, k)` at `addr + k` and nothing else; an address that is not a multiple of 8, or whose
eight bytes pass the end of the buffer, is refused with ADDR and none of the bytes is written. -/
def Obligations.WrqWritesEightBytes : Prop :=
  ∀ (s : State) (addr : Addr) (q : Block), s.msg.wf →
    (addr.toNat % 8 = 0 → addr.toNat + 8 ≤ s.cfg.msgBytes → Completes (.wrq addr q) s 0 fun t =>
      (∀ k < 8, t.msg.readByte (addr.toNat + k) = q.extractLsb' (8 * k) 8) ∧
        SameBytesOutside addr.toNat 8 s t ∧ SameInstance s t ∧ t.err = s.err ∧ t.len = s.len) ∧
    ((addr.toNat % 8 ≠ 0 ∨ s.cfg.msgBytes < addr.toNat + 8) → CleanRefusal (exec (.wrq addr q) s) s .addr)

/-- R41, R126: RDQ returns the eight bytes as a little-endian block and changes nothing; a misaligned or out-of-range
address is refused with ADDR. -/
def Obligations.RdqReturnsBlock : Prop :=
  ∀ (s : State) (addr : Addr),
    (addr.toNat % 8 = 0 → addr.toNat + 8 ≤ s.cfg.msgBytes → ∃ v : Block,
      Completes (.rdq addr) s v (SameArch s) ∧
        ∀ k < 8, v.extractLsb' (8 * k) 8 = s.msg.readByte (addr.toNat + k)) ∧
    ((addr.toNat % 8 ≠ 0 ∨ s.cfg.msgBytes < addr.toNat + 8) → CleanRefusal (exec (.rdq addr) s) s .addr)

/-- R127: SETLEN sets LEN and touches no byte; a length beyond the buffer is refused with LEN. -/
def Obligations.SetlenSetsLength : Prop :=
  ∀ (s : State) (len : Addr),
    (len.toNat ≤ s.cfg.msgBytes → Completes (.setlen len) s 0 fun t =>
      t.len = len ∧ SameBytes s t ∧ SameInstance s t ∧ t.err = s.err) ∧
    (s.cfg.msgBytes < len.toNat → CleanRefusal (exec (.setlen len) s) s .len)

/-- R40, R128 (a), (d): "After `WRQ a, v`, `RDB a + k` returns `byte(v, k)`"; after eight `WRB a + k, b_k`, `RDQ a`
returns the block of the eight bytes; a byte write changes only its own byte of a later 8-byte read. -/
def Obligations.MixedWidthsAgree : Prop :=
  ∀ (s : State) (a : Addr), s.msg.wf → a.toNat % 8 = 0 → a.toNat + 8 ≤ s.cfg.msgBytes →
    (∀ (v : Block) (k : Nat), k < 8 → ∃ t, execAll [.wrq a v, .rdb (a + BitVec.ofNat 16 k)] s = .next t ∧
      t.rsp = some ⟨.ok, 0#56 ++ v.extractLsb' (8 * k) 8⟩) ∧
    (∀ b : Fin 8 → Byte, ∃ t,
      execAll (((List.finRange 8).map fun k => .wrb (a + BitVec.ofNat 16 k.val) (b k)) ++ [.rdq a]) s = .next t ∧
      t.rsp = some ⟨.ok, b 7 ++ b 6 ++ b 5 ++ b 4 ++ b 3 ++ b 2 ++ b 1 ++ b 0⟩) ∧
    (∀ (v : Block) (k : Nat) (b : Byte), k < 8 → ∃ t w,
      execAll [.wrq a v, .wrb (a + BitVec.ofNat 16 k) b, .rdq a] s = .next t ∧ t.rsp = some ⟨.ok, w⟩ ∧
      ∀ j < 8, w.extractLsb' (8 * j) 8 = if j = k then b else v.extractLsb' (8 * j) 8)

/-- R128 (a), (e), (f) ((b) and (c) are in the statements of the commands, (d) in MixedWidthsAgree): a read after a
write to the same address returns what was written; SETLEN commutes with WRB, RDB, WRQ and RDQ: in either order the same
architectural state results; the response and the bytes written by those four do not depend on the content of any
register, and SETLEN's response and the LEN it leaves on OK depend on none either. -/
def Obligations.BufferAccessLaws : Prop :=
  (∀ (s : State) (a : Addr) (b : Byte), s.msg.wf → a.toNat < s.cfg.msgBytes →
    ∃ t, execAll [.wrb a b, .rdb a] s = .next t ∧ t.rsp = some ⟨.ok, 0#56 ++ b⟩) ∧
  (∀ (s : State) (a : Addr) (q : Block), s.msg.wf → a.toNat % 8 = 0 → a.toNat + 8 ≤ s.cfg.msgBytes →
    ∃ t, execAll [.wrq a q, .rdq a] s = .next t ∧ t.rsp = some ⟨.ok, q⟩) ∧
  (∀ (s : State) (len : Addr) (i : Instr),
    ((∃ a b, i = .wrb a b) ∨ (∃ a, i = .rdb a) ∨ (∃ a q, i = .wrq a q) ∨ (∃ a, i = .rdq a)) →
    ∃ t u, execAll [.setlen len, i] s = .next t ∧ execAll [i, .setlen len] s = .next u ∧
      { t with rsp := none } = { u with rsp := none }) ∧
  (∀ (s s' t : State) (i : Instr),
    ((∃ a b, i = .wrb a b) ∨ (∃ a, i = .rdb a) ∨ (∃ a q, i = .wrq a q) ∨ (∃ a, i = .rdq a)) →
    s'.cfg = s.cfg → s'.msg = s.msg → exec i s = .next t →
    ∃ t', exec i s' = .next t' ∧ t'.rsp = t.rsp ∧ t'.msg = t.msg) ∧
  (∀ (s s' t : State) (len : Addr), s'.cfg = s.cfg → exec (.setlen len) s = .next t →
    ∃ t', exec (.setlen len) s' = .next t' ∧ t'.rsp = t.rsp ∧
      (t.rsp = some ⟨.ok, 0⟩ → t.len = len ∧ t'.len = len))

/-! ## The modes (spec/44_modes.md) -/

/-- R46, R104, R107, R111, R113, R115, R117: in Ready state, with room for the pad, the encrypt command of each mode
completes: MSG holds `join(encrypt(split(pad(message))))`, LEN is its length, every other byte and register is
unchanged.  The first OFB keystream block is `E(iv)` (R106; notes/assumptions/13.md). -/
def Obligations.EncryptCommandsComputeModes : Prop :=
  ∀ (mode : Mode) (iv : Block) (s : State), BufferInv s → s.ready = true → s.len.toNat < s.cfg.msgBytes →
    Completes (mode.encryptCommand iv) s 0 fun t =>
      t.len.toNat = 8 * (s.len.toNat / 8 + 1) ∧
      t.message = encrypted mode iv s ∧
      SameBytesOutside 0 (8 * (s.len.toNat / 8 + 1)) s t ∧ SameInstance s t ∧ t.err = s.err

/-- R46, R104, R108, R112, R114, R116, R118: in Ready state, on a whole non-empty ciphertext whose plaintext ends in a
good pad byte, the decrypt command of each mode completes: the message is the unpadded plaintext, the removed pad bytes
stay behind it, every other byte and register is unchanged.  The first OFB keystream block is `E(iv)` (R106;
notes/assumptions/13.md). -/
def Obligations.DecryptCommandsComputeModes : Prop :=
  ∀ (mode : Mode) (iv : Block) (s : State) (m : List Byte),
    BufferInv s → s.ready = true → s.len.toNat ≠ 0 → s.len.toNat % 8 = 0 →
    unpad (decrypted mode iv s) = some m →
    Completes (mode.decryptCommand iv) s 0 fun t =>
      t.len.toNat = m.length ∧ t.message = m ∧
      t.msg.readBytes 0 s.len.toNat = decrypted mode iv s ∧
      SameBytesOutside 0 s.len.toNat s t ∧ SameInstance s t ∧ t.err = s.err

/-- R139: when the last decrypted byte is no pad length, the decrypt command is refused with PAD: MSG holds the
decrypted bytes, LEN is unchanged, E_PAD is set, RDAT is 0, the instance and every other byte are unchanged. -/
def Obligations.PaddingErrorLeavesPlaintext : Prop :=
  ∀ (mode : Mode) (iv : Block) (s : State),
    BufferInv s → s.ready = true → s.len.toNat ≠ 0 → s.len.toNat % 8 = 0 →
    unpad (decrypted mode iv s) = none →
    ∃ t, exec (mode.decryptCommand iv) s = .next t ∧ t.rsp = some ⟨.pad, 0⟩ ∧ ErrRaised .pad s t ∧
      SamePort s t ∧ SameInstance s t ∧ t.len = s.len ∧
      t.msg.readBytes 0 s.len.toNat = decrypted mode iv s ∧ SameBytesOutside 0 s.len.toNat s t

/-- R107, R108, R132: the STATE and LEN refusals of the mode commands, made before anything is written. -/
def Obligations.ModeCommandRefusals : Prop :=
  ∀ (mode : Mode) (iv : Block) (s : State),
    (s.ready = false → CleanRefusal (exec (mode.encryptCommand iv) s) s .state ∧
      CleanRefusal (exec (mode.decryptCommand iv) s) s .state) ∧
    (BufferInv s → s.ready = true → s.len.toNat = s.cfg.msgBytes →
      CleanRefusal (exec (mode.encryptCommand iv) s) s .len) ∧
    (s.ready = true → (s.len.toNat = 0 ∨ s.len.toNat % 8 ≠ 0) →
      CleanRefusal (exec (mode.decryptCommand iv) s) s .len)

/-- R119: "`decrypt_X(encrypt_X(m, iv), iv) == m`": ENC_X answers OK, and DEC_X with the same IV answers OK from the
state ENC_X left and from every state that agrees with it on MSG_BYTES, RK, SBOX, READY, LEN and the bytes of MSG (what
commands between them leave that write none of these); LEN and the message are then as before ENC_X, and the bytes
behind the message hold the pad value. -/
def Obligations.ModeRoundTrip : Prop :=
  ∀ (mode : Mode) (iv : Block) (s : State), BufferInv s → s.ready = true → s.len.toNat < s.cfg.msgBytes →
    ∃ t, exec (mode.encryptCommand iv) s = .next t ∧ t.rsp = some ⟨.ok, 0⟩ ∧ t.msg.wf ∧
      ∀ t' : State, t'.cfg = t.cfg → t'.rk = t.rk → t'.sbox = t.sbox → t'.ready = t.ready → t'.len = t.len →
        t'.msg.wf → SameBytes t t' →
        ∃ u, exec (mode.decryptCommand iv) t' = .next u ∧ u.rsp = some ⟨.ok, 0⟩ ∧
          u.len = s.len ∧ u.message = s.message ∧
          ∀ k < padlen s.len.toNat, (u.msg.readByte (s.len.toNat + k)).toNat = padlen s.len.toNat

/-- R120: the keystream xor is its own inverse; a second ENC_OFB with the same IV gives `LEN = L + 8` with `pad(m)` in
the first `L` bytes, while DEC_OFB gives the message back. -/
def Obligations.OfbSelfInverse : Prop :=
  (∀ (E : Block → Block) (iv : Block) (bs : List Block), ofbXor E iv (ofbXor E iv bs) = bs) ∧
  (∀ (iv : Block) (s : State), BufferInv s → s.ready = true →
    8 * (s.len.toNat / 8 + 1) < s.cfg.msgBytes →
    ∃ t u, execAll [.encOfb iv, .encOfb iv] s = .next t ∧ t.rsp = some ⟨.ok, 0⟩ ∧
      t.len.toNat = 8 * (s.len.toNat / 8 + 1) + 8 ∧
      t.msg.readBytes 0 (8 * (s.len.toNat / 8 + 1)) = pad s.message ∧
      execAll [.encOfb iv, .decOfb iv] s = .next u ∧ u.rsp = some ⟨.ok, 0⟩ ∧ u.message = s.message)

/-- R121, R150: an encrypt command that ends OK turns `LEN = n` into `8 * (n div 8 + 1)`; a decrypt command that ends OK
turns it into `n - p` with `p` in 1 to 8. -/
def Obligations.OutputLengths : Prop :=
  ∀ (mode : Mode) (iv : Block) (s t : State) (v : Block), BufferInv s → t.rsp = some ⟨.ok, v⟩ →
    (exec (mode.encryptCommand iv) s = .next t → t.len.toNat = 8 * (s.len.toNat / 8 + 1)) ∧
    (exec (mode.decryptCommand iv) s = .next t →
      ∃ p, 1 ≤ p ∧ p ≤ 8 ∧ s.len.toNat % 8 = 0 ∧ s.len.toNat = t.len.toNat + p)

/-- R105, R109, R100: what the sequencer's registers hold after a mode command that passed its checks: the last
transform ran with the encryption order for every encrypt command and for DEC_CFB and DEC_OFB, with the decryption order
for DEC_ECB and DEC_CBC; RND has counted its 32 round steps; BLK has gone up to NBLK, the number of blocks; after an
encrypt command PADL is the pad length.  That these registers keep their values after the command is the model's choice
(notes/assumptions/4.md): R31 leaves it open. -/
def Obligations.ModeCommandSequencing : Prop :=
  ∀ (mode : Mode) (iv : Block) (s t : State), BufferInv s → s.ready = true →
    (s.len.toNat < s.cfg.msgBytes → exec (mode.encryptCommand iv) s = .next t →
      t.tr.ord = .encrypt ∧ t.tr.rnd.toNat = 32 ∧ t.tr.nblk.toNat = s.len.toNat / 8 + 1 ∧
        t.tr.blk.toNat = t.tr.nblk.toNat ∧ t.tr.padl.toNat = padlen s.len.toNat) ∧
    (s.len.toNat ≠ 0 → s.len.toNat % 8 = 0 → exec (mode.decryptCommand iv) s = .next t →
      t.tr.ord = (if mode = .ecb ∨ mode = .cbc then .decrypt else .encrypt) ∧ t.tr.rnd.toNat = 32 ∧
        t.tr.nblk.toNat = s.len.toNat / 8 ∧ t.tr.blk.toNat = t.tr.nblk.toNat)

/-! ## Command lists (spec/30_encoding.md R62, R63) -/

/-- R63, R65 to R70: from any state `CONSTRUCT k, r0, ..., r7` ends with OK in Ready state, with key word and subkey `j`
the bits `32*j + 31` to `32*j` of `k`, and entry `n` of table `j` nibble `n` of `r_j`; ERR, LEN and MSG stay. -/
def Obligations.ConstructBuildsInstance : Prop :=
  ∀ (s : State) (k : BitVec 256) (rows : Vector Block 8), ∃ t,
    execAll (Pseudo.construct k rows) s = .next t ∧ t.rsp = some ⟨.ok, 0⟩ ∧ t.ready = true ∧
    (∀ j : Fin 8, t.key.get j = k.extractLsb' (32 * j.val) 32 ∧ t.rk.get j = k.extractLsb' (32 * j.val) 32) ∧
    (∀ (j : Fin 8) (n : Fin 16), (t.sbox.get j).get n = (rows.get j).extractLsb' (4 * n.val) 4) ∧
    t.err = s.err ∧ t.len = s.len ∧ SameBytes s t

/-- R37, R63: `LDMSG` of bytes that fit the buffer makes them the message, and changes no byte behind them. -/
def Obligations.LoadedBytesAreTheMessage : Prop :=
  ∀ (s : State) (bytes : List Byte), BufferInv s → bytes.length ≤ s.cfg.msgBytes → ∃ t,
    execAll (Pseudo.ldmsg bytes) s = .next t ∧ t.rsp = some ⟨.ok, 0⟩ ∧ t.len.toNat = bytes.length ∧
    t.message = bytes ∧ SameBytesOutside 0 bytes.length s t ∧ SameInstance s t ∧ t.err = s.err

/-! ## Refusals in general (spec/60_exceptions.md) -/

/-- R135, R136: a legal command that fails the life-cycle check is refused with STATE, whatever its operands and the
other state are; one that passes it never answers STATE. -/
def Obligations.LifeCycleCheck : Prop :=
  ∀ (i : Instr) (s : State), i.WellFormed →
    (∀ b, needsReady i = some b → s.ready ≠ b → CleanRefusal (exec i s) s .state) ∧
    (∀ t r, (∀ b, needsReady i = some b → s.ready = b) → exec i s = .next t → t.rsp = some r → r.code ≠ .state)

/-- R133: the codes a command's execution can answer; ILL comes from decoding alone. -/
def Obligations.CodesPerCommand : Prop :=
  ∀ (i : Instr) (s t : State) (r : Response), i.WellFormed → exec i s = .next t → t.rsp = some r →
    r.code ∈ possibleCodes i

/-- R137 (a), (b), R22: a refused command sets exactly the bit of its code, the other four as they were, and returns
RDAT = 0; a command that answers OK leaves ERR as it was, but for CLRERR. -/
def Obligations.ErrorEntrySetsOneFlag : Prop :=
  ∀ (i : Instr) (s t : State) (r : Response), exec i s = .next t → t.rsp = some r →
    (r.code ≠ .ok → ErrRaised r.code s t ∧ r.rdat = 0) ∧
    (r.code = .ok → i ≠ .clrerr → t.err = s.err)

/-- R138: for the codes ILL, STATE, ADDR and LEN the state after the refused command equals the state before it except
for the one ERR bit. -/
def Obligations.RefusalsArePrecise : Prop :=
  ∀ (i : Instr) (s t : State) (r : Response), exec i s = .next t → t.rsp = some r →
    (r.code = .ill ∨ r.code = .state ∨ r.code = .addr ∨ r.code = .len) →
    CleanRefusal (exec i s) s r.code
end

