-- ==== Sys2Proof/Laws/Memory.lean ====
section
/-! SUPPORT. The laws of the message buffer and of little-endian blocks: every memory operation keeps the canonical form,
a read after a write gives the value written, and a write leaves every other byte alone. -/

namespace Sys2Proof.Machine

/-! ## Little-endian blocks -/

/-- A block is the sum of its bytes times the powers of 2^8 (R38). -/
theorem le64_toNat (b0 b1 b2 b3 b4 b5 b6 b7 : Byte) :
    (le64 b0 b1 b2 b3 b4 b5 b6 b7).toNat =
      b0.toNat + b1.toNat * 2 ^ 8 + b2.toNat * 2 ^ 16 + b3.toNat * 2 ^ 24 + b4.toNat * 2 ^ 32 + b5.toNat * 2 ^ 40 +
        b6.toNat * 2 ^ 48 + b7.toNat * 2 ^ 56 := by
  have h0 := b0.isLt; have h1 := b1.isLt; have h2 := b2.isLt; have h3 := b3.isLt
  have h4 := b4.isLt; have h5 := b5.isLt; have h6 := b6.isLt
  have app : ∀ {n m : Nat} (x : BitVec n) (y : BitVec m), (x ++ y).toNat = x.toNat * 2 ^ m + y.toNat := by
    intro n m x y
    rw [BitVec.toNat_append, Nat.shiftLeft_eq, Nat.mul_comm, Nat.two_pow_add_eq_or_of_lt y.isLt]
  simp only [le64, app]
  omega

theorem byteOf_le64 (b0 b1 b2 b3 b4 b5 b6 b7 : Byte) :
    byteOf (le64 b0 b1 b2 b3 b4 b5 b6 b7) 0 = b0 ∧ byteOf (le64 b0 b1 b2 b3 b4 b5 b6 b7) 1 = b1 ∧
    byteOf (le64 b0 b1 b2 b3 b4 b5 b6 b7) 2 = b2 ∧ byteOf (le64 b0 b1 b2 b3 b4 b5 b6 b7) 3 = b3 ∧
    byteOf (le64 b0 b1 b2 b3 b4 b5 b6 b7) 4 = b4 ∧ byteOf (le64 b0 b1 b2 b3 b4 b5 b6 b7) 5 = b5 ∧
    byteOf (le64 b0 b1 b2 b3 b4 b5 b6 b7) 6 = b6 ∧ byteOf (le64 b0 b1 b2 b3 b4 b5 b6 b7) 7 = b7 := by
  have h0 := b0.isLt; have h1 := b1.isLt; have h2 := b2.isLt; have h3 := b3.isLt
  have h4 := b4.isLt; have h5 := b5.isLt; have h6 := b6.isLt; have h7 := b7.isLt
  refine ⟨?_, ?_, ?_, ?_, ?_, ?_, ?_, ?_⟩ <;>
  · apply BitVec.eq_of_toNat_eq
    rw [byteOf, BitVec.extractLsb'_toNat, le64_toNat, Nat.shiftRight_eq_div_pow]
    omega

theorem le64_byteOf (v : Block) :
    le64 (byteOf v 0) (byteOf v 1) (byteOf v 2) (byteOf v 3) (byteOf v 4) (byteOf v 5) (byteOf v 6) (byteOf v 7) =
      v := by
  apply BitVec.eq_of_getLsbD_eq
  intro i hi
  simp only [le64, byteOf, BitVec.getLsbD_append, BitVec.getLsbD_extractLsb']
  repeat' split
  all_goals first
    | (have h : ∀ a b : Nat, a = b → ∀ c : Bool, c = true → (c && v.getLsbD a) = v.getLsbD b := by
        rintro a _ rfl c rfl; rfl
       exact h _ _ (by omega) _ (by simp; omega))

@[simp] theorem blockBytes_length (v : Block) : (blockBytes v).length = 8 := rfl

theorem blockBytes_getElem (v : Block) (k : Nat) (h : k < (blockBytes v).length) :
    (blockBytes v)[k] = byteOf v k := by
  have h' : k < 8 := h
  have : k = 0 ∨ k = 1 ∨ k = 2 ∨ k = 3 ∨ k = 4 ∨ k = 5 ∨ k = 6 ∨ k = 7 := by omega
  rcases this with rfl | rfl | rfl | rfl | rfl | rfl | rfl | rfl <;> rfl

namespace Memory

/-! ## The canonical form -/

@[simp] theorem wf_nil : wf [] := by simp [wf]

theorem wf_cons_iff (c : Host.Cell) (m : Memory) :
    wf (c :: m) ↔ (∀ d ∈ m, c.1 < d.1) ∧ c.2 ≠ Config.unwrittenByte ∧ wf m := by
  simp only [wf, List.pairwise_cons, List.mem_cons, forall_eq_or_imp]
  tauto

/-- The cells of a memory after a write: the one written and cells it had. -/
theorem mem_writeByte {m : Memory} {a : Nat} {b : Byte} {c : Host.Cell} (h : c ∈ m.writeByte a b) :
    c = (a, b) ∨ c ∈ m := by
  induction m with
  | nil =>
    simp only [writeByte, cons] at h
    split at h <;> simp_all
  | cons d rest ih =>
    obtain ⟨k, v⟩ := d
    simp only [writeByte, cons] at h
    split at h
    · split at h <;> simp_all
    · split at h
      · split at h
        · exact .inr (List.mem_cons_of_mem _ h)
        · rcases List.mem_cons.1 h with h | h
          · exact .inl h
          · exact .inr (List.mem_cons_of_mem _ h)
      · simp only [List.mem_cons] at h ⊢
        rcases h with h | h
        · exact .inr (.inl h)
        · rcases ih h with h | h
          · exact .inl h
          · exact .inr (.inr h)

theorem wf_cons' {a : Nat} {b : Byte} {m : Memory} (hm : wf m) (h : ∀ d ∈ m, a < d.1) : wf (cons a b m) := by
  unfold cons
  split
  · exact hm
  · next hb => exact (wf_cons_iff _ _).2 ⟨h, hb, hm⟩

/-- A write of one byte keeps the canonical form. -/
theorem wf_writeByte {m : Memory} (hm : wf m) (a : Nat) (b : Byte) : wf (m.writeByte a b) := by
  induction m with
  | nil => exact wf_cons' hm (by simp)
  | cons d rest ih =>
    obtain ⟨k, v⟩ := d
    obtain ⟨h1, h2, h3⟩ := (wf_cons_iff _ _).1 hm
    simp only [writeByte]
    split
    · next h =>
      refine wf_cons' hm ?_
      intro d hd
      rcases List.mem_cons.1 hd with rfl | hd
      · exact h
      · exact Nat.lt_trans h (h1 d hd)
    · split
      · next h => subst h; exact wf_cons' h3 h1
      · refine (wf_cons_iff _ _).2 ⟨?_, h2, ih h3⟩
        intro d hd
        rcases mem_writeByte hd with rfl | hd
        · change k < a; omega
        · exact h1 d hd

/-! ## Reading one byte -/

theorem readByte_of_lt {m : Memory} {a : Nat} (h : ∀ d ∈ m, a < d.1) : m.readByte a = Config.unwrittenByte := by
  induction m with
  | nil => rfl
  | cons d rest ih =>
    obtain ⟨k, v⟩ := d
    have : a < k := h (k, v) (by simp)
    rw [readByte, if_neg (by omega)]
    exact ih fun d hd => h d (by simp [hd])

theorem readByte_cons' {a : Nat} {b : Byte} {m : Memory} (h : ∀ d ∈ m, a < d.1) (x : Nat) :
    (cons a b m).readByte x = if x = a then b else m.readByte x := by
  unfold cons
  split
  · next hb =>
    split
    · next hx => subst hx; rw [hb]; exact readByte_of_lt h
    · rfl
  · rw [readByte]
    by_cases hx : x = a
    · simp [hx]
    · simp [hx, Ne.symm hx]

/-- A read after a write: the byte written at its address, every other byte as before. -/
theorem readByte_writeByte {m : Memory} (hm : wf m) (a : Nat) (b : Byte) (x : Nat) :
    (m.writeByte a b).readByte x = if x = a then b else m.readByte x := by
  induction m with
  | nil => exact readByte_cons' (by simp) x
  | cons d rest ih =>
    obtain ⟨k, v⟩ := d
    obtain ⟨h1, _, h3⟩ := (wf_cons_iff _ _).1 hm
    simp only [writeByte]
    split
    · next h =>
      refine readByte_cons' ?_ x
      intro d hd
      rcases List.mem_cons.1 hd with rfl | hd
      · exact h
      · exact Nat.lt_trans h (h1 d hd)
    · split
      · next h =>
        subst h
        rw [readByte_cons' h1]
        by_cases hx : x = a
        · simp [hx]
        · simp [readByte, hx, Ne.symm hx]
      · next h1 h2 =>
        simp only [readByte]
        rw [ih h3]
        by_cases hx : k = x
        · subst hx; simp [Ne.symm h2]
        · simp [hx]

/-- Two memories in canonical form that read alike at every address are equal. -/
theorem wf_ext : ∀ {m m' : Memory}, wf m → wf m' → (∀ a, m.readByte a = m'.readByte a) → m = m'
  | [], [], _, _, _ => rfl
  | [], (k, v) :: r, _, h', h => by
    have := h k
    simp only [readByte, if_true] at this
    exact absurd this.symm ((wf_cons_iff _ _).1 h').2.1
  | (k, v) :: r, [], h', _, h => by
    have := h k
    simp only [readByte, if_true] at this
    exact absurd this ((wf_cons_iff _ _).1 h').2.1
  | (k, v) :: r, (k', v') :: r', hm, hm', h => by
    obtain ⟨a1, a2, a3⟩ := (wf_cons_iff _ _).1 hm
    obtain ⟨b1, b2, b3⟩ := (wf_cons_iff _ _).1 hm'
    have hk : k = k' := by
      rcases Nat.lt_trichotomy k k' with hlt | heq | hgt
      · have := h k
        rw [readByte, if_pos rfl, readByte, if_neg (by omega),
          readByte_of_lt fun d hd => Nat.lt_trans hlt (b1 d hd)] at this
        exact absurd this a2
      · exact heq
      · have := h k'
        rw [readByte, if_neg (by omega), readByte, if_pos rfl,
          readByte_of_lt fun d hd => Nat.lt_trans hgt (a1 d hd)] at this
        exact absurd this.symm b2
    subst hk
    have hv : v = v' := by simpa [readByte] using h k
    subst hv
    have hr : r = r' := wf_ext a3 b3 fun a => by
      by_cases ha : k = a
      · subst ha
        rw [readByte_of_lt a1, readByte_of_lt b1]
      · have := h a
        simpa [readByte, ha] using this
    rw [hr]

/-! ## Lists of bytes -/

theorem wf_writeBytes {m : Memory} (hm : wf m) (a : Nat) (bs : List Byte) : wf (m.writeBytes a bs) := by
  induction bs generalizing m a with
  | nil => exact hm
  | cons b bs ih => exact ih (wf_writeByte hm a b) (a + 1)

theorem mem_writeBytes {m : Memory} {a : Nat} {bs : List Byte} {c : Host.Cell} (h : c ∈ m.writeBytes a bs) :
    (a ≤ c.1 ∧ c.1 < a + bs.length) ∨ c ∈ m := by
  induction bs generalizing m a with
  | nil => exact .inr h
  | cons b bs ih =>
    rcases ih h with ⟨h1, h2⟩ | h
    · left; simp only [List.length_cons]; omega
    · rcases mem_writeByte h with rfl | h
      · left; simp
      · exact .inr h

/-- A read after a write of a list of bytes. -/
theorem readByte_writeBytes {m : Memory} (hm : wf m) (a : Nat) (bs : List Byte) (x : Nat) :
    (m.writeBytes a bs).readByte x =
      if a ≤ x ∧ x < a + bs.length then bs.getD (x - a) 0 else m.readByte x := by
  induction bs generalizing m a with
  | nil =>
    have : ¬ (a ≤ x ∧ x < a + ([] : List Byte).length) := by simp
    rw [if_neg this, writeBytes]
  | cons b bs ih =>
    rw [writeBytes, ih (wf_writeByte hm a b), readByte_writeByte hm]
    simp only [List.length_cons]
    by_cases hx : x = a
    · subst hx
      simp
    · by_cases hin : a + 1 ≤ x ∧ x < a + 1 + bs.length
      · have h2 : a ≤ x ∧ x < a + (bs.length + 1) := by omega
        rw [if_pos hin, if_pos h2]
        obtain ⟨k, hk⟩ : ∃ k, x - a = k + 1 := ⟨x - a - 1, by omega⟩
        rw [hk, show x - (a + 1) = k by omega]
        simp
      · have h2 : ¬ (a ≤ x ∧ x < a + (bs.length + 1)) := by omega
        rw [if_neg hin, if_neg h2, if_neg hx]

@[simp] theorem readBytes_length (m : Memory) (a n : Nat) : (m.readBytes a n).length = n := by
  induction n generalizing a with
  | zero => rfl
  | succ n ih => simp [readBytes, ih]

theorem readBytes_getElem (m : Memory) (a n k : Nat) (h : k < (m.readBytes a n).length) :
    (m.readBytes a n)[k] = m.readByte (a + k) := by
  induction n generalizing a k with
  | zero => simp at h
  | succ n ih =>
    cases k with
    | zero => simp [readBytes]
    | succ k =>
      simp only [readBytes, List.getElem_cons_succ]
      rw [ih]
      congr 1
      omega

/-- Two lists of bytes read from memory are equal when every byte is. -/
theorem readBytes_congr {m m' : Memory} {a n : Nat} (h : ∀ k < n, m.readByte (a + k) = m'.readByte (a + k)) :
    m.readBytes a n = m'.readBytes a n := by
  apply List.ext_getElem (by simp)
  intro k h1 h2
  rw [readBytes_getElem, readBytes_getElem]
  exact h k (by simpa using h1)

theorem readBytes_append (m : Memory) (a j k : Nat) :
    m.readBytes a (j + k) = m.readBytes a j ++ m.readBytes (a + j) k := by
  induction j generalizing a with
  | zero => simp [readBytes]
  | succ j ih =>
    rw [show j + 1 + k = (j + k) + 1 by omega, readBytes, ih, readBytes, List.cons_append,
      show a + 1 + j = a + (j + 1) by omega]

theorem readBytes_writeBytes {m : Memory} (hm : wf m) (a : Nat) (bs : List Byte) :
    (m.writeBytes a bs).readBytes a bs.length = bs := by
  apply List.ext_getElem (by simp)
  intro k h1 h2
  rw [readBytes_getElem, readByte_writeBytes hm, if_pos ⟨by omega, by omega⟩,
    show a + k - a = k by omega]
  simp [h2]

/-! ## Blocks -/

theorem readBlock_eq_le64 (m : Memory) (a : Nat) :
    blockBytes (m.readBlock a) = m.readBytes a 8 := by
  obtain ⟨h0, h1, h2, h3, h4, h5, h6, h7⟩ := byteOf_le64 (m.readByte a) (m.readByte (a + 1)) (m.readByte (a + 2))
    (m.readByte (a + 3)) (m.readByte (a + 4)) (m.readByte (a + 5)) (m.readByte (a + 6)) (m.readByte (a + 7))
  simp only [blockBytes, readBlock, h0, h1, h2, h3, h4, h5, h6, h7, readBytes]

theorem wf_writeBlock {m : Memory} (hm : wf m) (a : Nat) (v : Block) : wf (m.writeBlock a v) :=
  wf_writeBytes hm a _

theorem mem_writeBlock {m : Memory} {a : Nat} {v : Block} {c : Host.Cell} (h : c ∈ m.writeBlock a v) :
    (a ≤ c.1 ∧ c.1 < a + 8) ∨ c ∈ m := mem_writeBytes h

/-- A read after a block write: the block's bytes, every other byte as before. -/
theorem readByte_writeBlock {m : Memory} (hm : wf m) (a : Nat) (v : Block) (x : Nat) :
    (m.writeBlock a v).readByte x = if a ≤ x ∧ x < a + 8 then byteOf v (x - a) else m.readByte x := by
  rw [writeBlock, readByte_writeBytes hm]
  rw [blockBytes_length]
  by_cases h : a ≤ x ∧ x < a + 8
  · rw [if_pos h, if_pos h]
    have hk : x - a < (blockBytes v).length := by simp; omega
    rw [List.getD_eq_getElem?_getD, List.getElem?_eq_getElem hk, Option.getD_some, blockBytes_getElem]
  · rw [if_neg h, if_neg h]

theorem readBlock_congr {m m' : Memory} {a : Nat} (h : ∀ k < 8, m.readByte (a + k) = m'.readByte (a + k)) :
    m.readBlock a = m'.readBlock a := by
  have h0 := h 0 (by omega); have h1 := h 1 (by omega); have h2 := h 2 (by omega); have h3 := h 3 (by omega)
  have h4 := h 4 (by omega); have h5 := h 5 (by omega); have h6 := h 6 (by omega); have h7 := h 7 (by omega)
  simp only [Nat.add_zero] at h0
  simp only [readBlock, h0, h1, h2, h3, h4, h5, h6, h7]

/-- A block read where it was written is the block. -/
theorem readBlock_writeBlock {m : Memory} (hm : wf m) (a : Nat) (v : Block) :
    (m.writeBlock a v).readBlock a = v := by
  have h : ∀ k < 8, (m.writeBlock a v).readByte (a + k) = byteOf v k := by
    intro k hk
    rw [readByte_writeBlock hm, if_pos ⟨by omega, by omega⟩, Nat.add_sub_cancel_left]
  have h0 := h 0 (by omega)
  rw [Nat.add_zero] at h0
  rw [readBlock, h0, h 1 (by omega), h 2 (by omega), h 3 (by omega), h 4 (by omega), h 5 (by omega), h 6 (by omega),
    h 7 (by omega), le64_byteOf]

/-! ## The bytes an aborted command leaves open (R145) -/

theorem wf_scramble {m : Memory} (hm : wf m) (limit k a n : Nat) : wf (scramble limit k m a n) := by
  induction n generalizing m a with
  | zero => exact hm
  | succ n ih =>
    rw [scramble]
    split
    · exact ih (wf_writeByte hm a _) (a + 1)
    · exact ih hm (a + 1)

theorem mem_scramble {m : Memory} {limit k a n : Nat} {c : Host.Cell} (h : c ∈ scramble limit k m a n) :
    c.1 < limit ∨ c ∈ m := by
  induction n generalizing m a with
  | zero => exact .inr h
  | succ n ih =>
    rw [scramble] at h
    split at h
    · next hlt =>
      rcases ih h with h | h
      · exact .inl h
      · rcases mem_writeByte h with rfl | h
        · exact .inl hlt
        · exact .inr h
    · exact ih h

theorem readByte_scramble {m : Memory} (hm : wf m) (limit k a n x : Nat) (hx : x < a ∨ a + n ≤ x) :
    (scramble limit k m a n).readByte x = m.readByte x := by
  induction n generalizing m a with
  | zero => rfl
  | succ n ih =>
    rw [scramble]
    split
    · rw [ih (wf_writeByte hm a _) (a + 1) (by omega), readByte_writeByte hm, if_neg (by omega)]
    · exact ih hm (a + 1) (by omega)

end Memory

end Sys2Proof.Machine
end

