-- ==== Sys2Proof/Laws/State.lean ====
section
/-! SUPPORT. What each named update of the state leaves in each field, true by `rfl`, so that no later proof unfolds a
record update. -/

namespace Sys2Proof.Machine

/-! ## `State.respond` -/

@[simp] theorem State.respond_cfg (s : State) (c : Code) (v : Block) : (s.respond c v).cfg = s.cfg := rfl
@[simp] theorem State.respond_key (s : State) (c : Code) (v : Block) : (s.respond c v).key = s.key := rfl
@[simp] theorem State.respond_rk (s : State) (c : Code) (v : Block) : (s.respond c v).rk = s.rk := rfl
@[simp] theorem State.respond_sbox (s : State) (c : Code) (v : Block) : (s.respond c v).sbox = s.sbox := rfl
@[simp] theorem State.respond_ready (s : State) (c : Code) (v : Block) : (s.respond c v).ready = s.ready := rfl
@[simp] theorem State.respond_err (s : State) (c : Code) (v : Block) : (s.respond c v).err = s.err := rfl
@[simp] theorem State.respond_len (s : State) (c : Code) (v : Block) : (s.respond c v).len = s.len := rfl
@[simp] theorem State.respond_msg (s : State) (c : Code) (v : Block) : (s.respond c v).msg = s.msg := rfl
@[simp] theorem State.respond_phase (s : State) (c : Code) (v : Block) : (s.respond c v).phase = s.phase := rfl
@[simp] theorem State.respond_tr (s : State) (c : Code) (v : Block) : (s.respond c v).tr = s.tr := rfl
@[simp] theorem State.respond_rsp (s : State) (c : Code) (v : Block) : (s.respond c v).rsp = some ⟨c, v⟩ := rfl
@[simp] theorem State.respond_inFlight (s : State) (c : Code) (v : Block) : (s.respond c v).inFlight = s.inFlight := rfl
@[simp] theorem State.respond_inputs (s : State) (c : Code) (v : Block) : (s.respond c v).inputs = s.inputs := rfl
@[simp] theorem State.respond_delivered (s : State) (c : Code) (v : Block) : (s.respond c v).delivered = s.delivered := rfl
@[simp] theorem State.respond_aborts (s : State) (c : Code) (v : Block) : (s.respond c v).aborts = s.aborts := rfl

/-! ## `State.errorEntry` -/

@[simp] theorem State.errorEntry_cfg (s : State) (c : Code) : (s.errorEntry c).cfg = s.cfg := rfl
@[simp] theorem State.errorEntry_key (s : State) (c : Code) : (s.errorEntry c).key = s.key := rfl
@[simp] theorem State.errorEntry_rk (s : State) (c : Code) : (s.errorEntry c).rk = s.rk := rfl
@[simp] theorem State.errorEntry_sbox (s : State) (c : Code) : (s.errorEntry c).sbox = s.sbox := rfl
@[simp] theorem State.errorEntry_ready (s : State) (c : Code) : (s.errorEntry c).ready = s.ready := rfl
@[simp] theorem State.errorEntry_err (s : State) (c : Code) : (s.errorEntry c).err = raiseFlag s.err c := rfl
@[simp] theorem State.errorEntry_len (s : State) (c : Code) : (s.errorEntry c).len = s.len := rfl
@[simp] theorem State.errorEntry_msg (s : State) (c : Code) : (s.errorEntry c).msg = s.msg := rfl
@[simp] theorem State.errorEntry_phase (s : State) (c : Code) : (s.errorEntry c).phase = s.phase := rfl
@[simp] theorem State.errorEntry_tr (s : State) (c : Code) : (s.errorEntry c).tr = s.tr := rfl
@[simp] theorem State.errorEntry_rsp (s : State) (c : Code) : (s.errorEntry c).rsp = some ⟨c, 0⟩ := rfl
@[simp] theorem State.errorEntry_inFlight (s : State) (c : Code) : (s.errorEntry c).inFlight = s.inFlight := rfl
@[simp] theorem State.errorEntry_inputs (s : State) (c : Code) : (s.errorEntry c).inputs = s.inputs := rfl
@[simp] theorem State.errorEntry_delivered (s : State) (c : Code) : (s.errorEntry c).delivered = s.delivered := rfl
@[simp] theorem State.errorEntry_aborts (s : State) (c : Code) : (s.errorEntry c).aborts = s.aborts := rfl

/-! ## `State.clearErrors` -/

@[simp] theorem State.clearErrors_cfg (s : State) : (s.clearErrors).cfg = s.cfg := rfl
@[simp] theorem State.clearErrors_key (s : State) : (s.clearErrors).key = s.key := rfl
@[simp] theorem State.clearErrors_rk (s : State) : (s.clearErrors).rk = s.rk := rfl
@[simp] theorem State.clearErrors_sbox (s : State) : (s.clearErrors).sbox = s.sbox := rfl
@[simp] theorem State.clearErrors_ready (s : State) : (s.clearErrors).ready = s.ready := rfl
@[simp] theorem State.clearErrors_err (s : State) : (s.clearErrors).err = 0 := rfl
@[simp] theorem State.clearErrors_len (s : State) : (s.clearErrors).len = s.len := rfl
@[simp] theorem State.clearErrors_msg (s : State) : (s.clearErrors).msg = s.msg := rfl
@[simp] theorem State.clearErrors_phase (s : State) : (s.clearErrors).phase = s.phase := rfl
@[simp] theorem State.clearErrors_tr (s : State) : (s.clearErrors).tr = s.tr := rfl
@[simp] theorem State.clearErrors_rsp (s : State) : (s.clearErrors).rsp = s.rsp := rfl
@[simp] theorem State.clearErrors_inFlight (s : State) : (s.clearErrors).inFlight = s.inFlight := rfl
@[simp] theorem State.clearErrors_inputs (s : State) : (s.clearErrors).inputs = s.inputs := rfl
@[simp] theorem State.clearErrors_delivered (s : State) : (s.clearErrors).delivered = s.delivered := rfl
@[simp] theorem State.clearErrors_aborts (s : State) : (s.clearErrors).aborts = s.aborts := rfl

/-! ## `State.accept` -/

@[simp] theorem State.accept_cfg (s : State) (span : Option (Nat × Nat)) : (s.accept span).cfg = s.cfg := rfl
@[simp] theorem State.accept_key (s : State) (span : Option (Nat × Nat)) : (s.accept span).key = s.key := rfl
@[simp] theorem State.accept_rk (s : State) (span : Option (Nat × Nat)) : (s.accept span).rk = s.rk := rfl
@[simp] theorem State.accept_sbox (s : State) (span : Option (Nat × Nat)) : (s.accept span).sbox = s.sbox := rfl
@[simp] theorem State.accept_ready (s : State) (span : Option (Nat × Nat)) : (s.accept span).ready = s.ready := rfl
@[simp] theorem State.accept_err (s : State) (span : Option (Nat × Nat)) : (s.accept span).err = s.err := rfl
@[simp] theorem State.accept_len (s : State) (span : Option (Nat × Nat)) : (s.accept span).len = s.len := rfl
@[simp] theorem State.accept_msg (s : State) (span : Option (Nat × Nat)) : (s.accept span).msg = s.msg := rfl
@[simp] theorem State.accept_phase (s : State) (span : Option (Nat × Nat)) : (s.accept span).phase = .busy := rfl
@[simp] theorem State.accept_tr (s : State) (span : Option (Nat × Nat)) : (s.accept span).tr = s.tr := rfl
@[simp] theorem State.accept_rsp (s : State) (span : Option (Nat × Nat)) : (s.accept span).rsp = s.rsp := rfl
@[simp] theorem State.accept_inFlight (s : State) (span : Option (Nat × Nat)) : (s.accept span).inFlight = span := rfl
@[simp] theorem State.accept_inputs (s : State) (span : Option (Nat × Nat)) : (s.accept span).inputs = s.inputs := rfl
@[simp] theorem State.accept_delivered (s : State) (span : Option (Nat × Nat)) : (s.accept span).delivered = s.delivered := rfl
@[simp] theorem State.accept_aborts (s : State) (span : Option (Nat × Nat)) : (s.accept span).aborts = s.aborts := rfl

/-! ## `State.padStep` -/

@[simp] theorem State.padStep_cfg (s : State) : (s.padStep).cfg = s.cfg := rfl
@[simp] theorem State.padStep_key (s : State) : (s.padStep).key = s.key := rfl
@[simp] theorem State.padStep_rk (s : State) : (s.padStep).rk = s.rk := rfl
@[simp] theorem State.padStep_sbox (s : State) : (s.padStep).sbox = s.sbox := rfl
@[simp] theorem State.padStep_ready (s : State) : (s.padStep).ready = s.ready := rfl
@[simp] theorem State.padStep_err (s : State) : (s.padStep).err = s.err := rfl
@[simp] theorem State.padStep_len (s : State) : (s.padStep).len = s.len := rfl
@[simp] theorem State.padStep_msg (s : State) : (s.padStep).msg = s.msg.writeBytes s.len.toNat (padBytes (padlen s.len.toNat)) := rfl
@[simp] theorem State.padStep_phase (s : State) : (s.padStep).phase = s.phase := rfl
@[simp] theorem State.padStep_tr (s : State) : (s.padStep).tr = { s.tr with padl := BitVec.ofNat 4 (padlen s.len.toNat), nblk := BitVec.ofNat 14 ((s.len.toNat + padlen s.len.toNat) / 8) } := rfl
@[simp] theorem State.padStep_rsp (s : State) : (s.padStep).rsp = s.rsp := rfl
@[simp] theorem State.padStep_inFlight (s : State) : (s.padStep).inFlight = s.inFlight := rfl
@[simp] theorem State.padStep_inputs (s : State) : (s.padStep).inputs = s.inputs := rfl
@[simp] theorem State.padStep_delivered (s : State) : (s.padStep).delivered = s.delivered := rfl
@[simp] theorem State.padStep_aborts (s : State) : (s.padStep).aborts = s.aborts := rfl

/-! ## `processBlock` -/

@[simp] theorem processBlock_cfg (step : BlockStep) (s : State) : (processBlock step s).cfg = s.cfg := rfl
@[simp] theorem processBlock_key (step : BlockStep) (s : State) : (processBlock step s).key = s.key := rfl
@[simp] theorem processBlock_rk (step : BlockStep) (s : State) : (processBlock step s).rk = s.rk := rfl
@[simp] theorem processBlock_sbox (step : BlockStep) (s : State) : (processBlock step s).sbox = s.sbox := rfl
@[simp] theorem processBlock_ready (step : BlockStep) (s : State) : (processBlock step s).ready = s.ready := rfl
@[simp] theorem processBlock_err (step : BlockStep) (s : State) : (processBlock step s).err = s.err := rfl
@[simp] theorem processBlock_len (step : BlockStep) (s : State) : (processBlock step s).len = s.len := rfl
@[simp] theorem processBlock_msg (step : BlockStep) (s : State) : (processBlock step s).msg = s.msg.writeBlock (8 * s.tr.blk.toNat) (step s.rk s.sbox s.tr (s.msg.readBlock (8 * s.tr.blk.toNat))).2 := rfl
@[simp] theorem processBlock_phase (step : BlockStep) (s : State) : (processBlock step s).phase = s.phase := rfl
@[simp] theorem processBlock_tr (step : BlockStep) (s : State) : (processBlock step s).tr = { (step s.rk s.sbox s.tr (s.msg.readBlock (8 * s.tr.blk.toNat))).1 with blk := (step s.rk s.sbox s.tr (s.msg.readBlock (8 * s.tr.blk.toNat))).1.blk + 1 } := rfl
@[simp] theorem processBlock_rsp (step : BlockStep) (s : State) : (processBlock step s).rsp = s.rsp := rfl
@[simp] theorem processBlock_inFlight (step : BlockStep) (s : State) : (processBlock step s).inFlight = s.inFlight := rfl
@[simp] theorem processBlock_inputs (step : BlockStep) (s : State) : (processBlock step s).inputs = s.inputs := rfl
@[simp] theorem processBlock_delivered (step : BlockStep) (s : State) : (processBlock step s).delivered = s.delivered := rfl
@[simp] theorem processBlock_aborts (step : BlockStep) (s : State) : (processBlock step s).aborts = s.aborts := rfl

/-! ## `State.powerUp` -/

@[simp] theorem State.powerUp_cfg (cfg : Config) (msg : Memory) : (State.powerUp cfg msg).cfg = cfg := rfl
@[simp] theorem State.powerUp_key (cfg : Config) (msg : Memory) : (State.powerUp cfg msg).key = Vector.replicate 8 0 := rfl
@[simp] theorem State.powerUp_rk (cfg : Config) (msg : Memory) : (State.powerUp cfg msg).rk = Vector.replicate 8 0 := rfl
@[simp] theorem State.powerUp_sbox (cfg : Config) (msg : Memory) : (State.powerUp cfg msg).sbox = Vector.replicate 8 (Vector.replicate 16 0) := rfl
@[simp] theorem State.powerUp_ready (cfg : Config) (msg : Memory) : (State.powerUp cfg msg).ready = false := rfl
@[simp] theorem State.powerUp_err (cfg : Config) (msg : Memory) : (State.powerUp cfg msg).err = 0 := rfl
@[simp] theorem State.powerUp_len (cfg : Config) (msg : Memory) : (State.powerUp cfg msg).len = 0 := rfl
@[simp] theorem State.powerUp_msg (cfg : Config) (msg : Memory) : (State.powerUp cfg msg).msg = msg := rfl
@[simp] theorem State.powerUp_phase (cfg : Config) (msg : Memory) : (State.powerUp cfg msg).phase = .idle := rfl
@[simp] theorem State.powerUp_tr (cfg : Config) (msg : Memory) : (State.powerUp cfg msg).tr = Transient.zero := rfl
@[simp] theorem State.powerUp_rsp (cfg : Config) (msg : Memory) : (State.powerUp cfg msg).rsp = none := rfl
@[simp] theorem State.powerUp_inFlight (cfg : Config) (msg : Memory) : (State.powerUp cfg msg).inFlight = none := rfl
@[simp] theorem State.powerUp_inputs (cfg : Config) (msg : Memory) : (State.powerUp cfg msg).inputs = [] := rfl
@[simp] theorem State.powerUp_delivered (cfg : Config) (msg : Memory) : (State.powerUp cfg msg).delivered = [] := rfl
@[simp] theorem State.powerUp_aborts (cfg : Config) (msg : Memory) : (State.powerUp cfg msg).aborts = 0 := rfl

/-! ## `State.applyReset` -/

@[simp] theorem State.applyReset_cfg (s : State) : s.applyReset.cfg = s.cfg := rfl
@[simp] theorem State.applyReset_key (s : State) : s.applyReset.key = Vector.replicate 8 0 := rfl
@[simp] theorem State.applyReset_rk (s : State) : s.applyReset.rk = Vector.replicate 8 0 := rfl
@[simp] theorem State.applyReset_sbox (s : State) : s.applyReset.sbox = Vector.replicate 8 (Vector.replicate 16 0) := rfl
@[simp] theorem State.applyReset_ready (s : State) : s.applyReset.ready = false := rfl
@[simp] theorem State.applyReset_err (s : State) : s.applyReset.err = 0 := rfl
@[simp] theorem State.applyReset_len (s : State) : s.applyReset.len = 0 := rfl
@[simp] theorem State.applyReset_phase (s : State) : s.applyReset.phase = .idle := rfl
@[simp] theorem State.applyReset_tr (s : State) : s.applyReset.tr = s.tr := rfl
@[simp] theorem State.applyReset_rsp (s : State) : s.applyReset.rsp = none := rfl
@[simp] theorem State.applyReset_inFlight (s : State) : s.applyReset.inFlight = none := rfl
@[simp] theorem State.applyReset_inputs (s : State) : s.applyReset.inputs = s.inputs := rfl
@[simp] theorem State.applyReset_delivered (s : State) : s.applyReset.delivered = s.delivered := rfl

/-! ## `State.loadIv`, by cases on whether the mode takes an IV -/

@[simp] theorem State.loadIv_cfg (s : State) (iv : Option Block) : (s.loadIv iv).cfg = s.cfg := by cases iv <;> rfl
@[simp] theorem State.loadIv_key (s : State) (iv : Option Block) : (s.loadIv iv).key = s.key := by cases iv <;> rfl
@[simp] theorem State.loadIv_rk (s : State) (iv : Option Block) : (s.loadIv iv).rk = s.rk := by cases iv <;> rfl
@[simp] theorem State.loadIv_sbox (s : State) (iv : Option Block) : (s.loadIv iv).sbox = s.sbox := by cases iv <;> rfl
@[simp] theorem State.loadIv_ready (s : State) (iv : Option Block) : (s.loadIv iv).ready = s.ready := by cases iv <;> rfl
@[simp] theorem State.loadIv_err (s : State) (iv : Option Block) : (s.loadIv iv).err = s.err := by cases iv <;> rfl
@[simp] theorem State.loadIv_len (s : State) (iv : Option Block) : (s.loadIv iv).len = s.len := by cases iv <;> rfl
@[simp] theorem State.loadIv_msg (s : State) (iv : Option Block) : (s.loadIv iv).msg = s.msg := by cases iv <;> rfl
@[simp] theorem State.loadIv_phase (s : State) (iv : Option Block) : (s.loadIv iv).phase = s.phase := by cases iv <;> rfl
@[simp] theorem State.loadIv_rsp (s : State) (iv : Option Block) : (s.loadIv iv).rsp = s.rsp := by cases iv <;> rfl
@[simp] theorem State.loadIv_inFlight (s : State) (iv : Option Block) : (s.loadIv iv).inFlight = s.inFlight := by cases iv <;> rfl
@[simp] theorem State.loadIv_inputs (s : State) (iv : Option Block) : (s.loadIv iv).inputs = s.inputs := by cases iv <;> rfl
@[simp] theorem State.loadIv_delivered (s : State) (iv : Option Block) : (s.loadIv iv).delivered = s.delivered := by cases iv <;> rfl
@[simp] theorem State.loadIv_aborts (s : State) (iv : Option Block) : (s.loadIv iv).aborts = s.aborts := by cases iv <;> rfl
@[simp] theorem State.loadIv_tr_none (s : State) : (s.loadIv none).tr = s.tr := rfl
@[simp] theorem State.loadIv_tr_some (s : State) (v : Block) : (s.loadIv (some v)).tr = { s.tr with fb := v } := rfl

/-! ## The transient registers -/

@[simp] theorem blockLoad_nHi (o : RoundKeyOrder) (x : Block) (tr : Transient) : (blockLoad o x tr).nHi = high x := rfl
@[simp] theorem blockLoad_nLo (o : RoundKeyOrder) (x : Block) (tr : Transient) : (blockLoad o x tr).nLo = low x := rfl
@[simp] theorem blockLoad_rnd (o : RoundKeyOrder) (x : Block) (tr : Transient) : (blockLoad o x tr).rnd = 0 := rfl
@[simp] theorem blockLoad_ord (o : RoundKeyOrder) (x : Block) (tr : Transient) : (blockLoad o x tr).ord = o := rfl
@[simp] theorem blockLoad_fb (o : RoundKeyOrder) (x : Block) (tr : Transient) : (blockLoad o x tr).fb = tr.fb := rfl
@[simp] theorem blockLoad_tmp (o : RoundKeyOrder) (x : Block) (tr : Transient) : (blockLoad o x tr).tmp = tr.tmp := rfl
@[simp] theorem blockLoad_blk (o : RoundKeyOrder) (x : Block) (tr : Transient) : (blockLoad o x tr).blk = tr.blk := rfl
@[simp] theorem blockLoad_nblk (o : RoundKeyOrder) (x : Block) (tr : Transient) : (blockLoad o x tr).nblk = tr.nblk := rfl
@[simp] theorem blockLoad_padl (o : RoundKeyOrder) (x : Block) (tr : Transient) : (blockLoad o x tr).padl = tr.padl := rfl
@[simp] theorem roundStep_nHi (rk : KeyFile) (sbox : SboxFile) (tr : Transient) : (roundStep rk sbox tr).nHi = tr.nLo ^^^ f sbox tr.nHi (rk.get (kidx tr.ord tr.rnd.toNat)) := rfl
@[simp] theorem roundStep_nLo (rk : KeyFile) (sbox : SboxFile) (tr : Transient) : (roundStep rk sbox tr).nLo = tr.nHi := rfl
@[simp] theorem roundStep_rnd (rk : KeyFile) (sbox : SboxFile) (tr : Transient) : (roundStep rk sbox tr).rnd = tr.rnd + 1 := rfl
@[simp] theorem roundStep_ord (rk : KeyFile) (sbox : SboxFile) (tr : Transient) : (roundStep rk sbox tr).ord = tr.ord := rfl
@[simp] theorem roundStep_fb (rk : KeyFile) (sbox : SboxFile) (tr : Transient) : (roundStep rk sbox tr).fb = tr.fb := rfl
@[simp] theorem roundStep_tmp (rk : KeyFile) (sbox : SboxFile) (tr : Transient) : (roundStep rk sbox tr).tmp = tr.tmp := rfl
@[simp] theorem roundStep_blk (rk : KeyFile) (sbox : SboxFile) (tr : Transient) : (roundStep rk sbox tr).blk = tr.blk := rfl
@[simp] theorem roundStep_nblk (rk : KeyFile) (sbox : SboxFile) (tr : Transient) : (roundStep rk sbox tr).nblk = tr.nblk := rfl
@[simp] theorem roundStep_padl (rk : KeyFile) (sbox : SboxFile) (tr : Transient) : (roundStep rk sbox tr).padl = tr.padl := rfl

end Sys2Proof.Machine
end

