-- ==== Sys2Proof/Laws/Ops.lean ====
section
/-! SUPPORT. What the shared operations can do: completing, the error entry, the life-cycle check, delivery and reset.
A proof about a command cites these and does not unfold them. -/

namespace Sys2Proof.Machine

/-! ## Completion and error entry -/

@[simp] theorem complete_eq (v : Block) (s : State) : complete v s = .next (s.respond .ok v) := rfl

@[simp] theorem raise_eq (c : Code) (s : State) : raise c s = .next (s.errorEntry c) := rfl

theorem requireReady_pos {b : Bool} {s : State} (h : s.ready = b) (rest : State → Result) :
    requireReady b s rest = rest s := if_pos h

theorem requireReady_neg {b : Bool} {s : State} (h : s.ready ≠ b) (rest : State → Result) :
    requireReady b s rest = .next (s.errorEntry .state) := if_neg h

/-- The life-cycle check answers the rest of the command or a STATE refusal, and nothing else. -/
theorem requireReady_cases (b : Bool) (s : State) (rest : State → Result) :
    (s.ready = b ∧ requireReady b s rest = rest s) ∨
      (s.ready ≠ b ∧ requireReady b s rest = .next (s.errorEntry .state)) := by
  by_cases h : s.ready = b
  · exact .inl ⟨h, requireReady_pos h rest⟩
  · exact .inr ⟨h, requireReady_neg h rest⟩

/-- A command behind the life-cycle check that answers a next state was refused with STATE, or passed the check. -/
theorem requireReady_next {b : Bool} {s t : State} {rest : State → Result} (h : requireReady b s rest = .next t) :
    t = s.errorEntry .state ∨ (s.ready = b ∧ rest s = .next t) := by
  rcases requireReady_cases b s rest with ⟨hr, e⟩ | ⟨_, e⟩
  · exact .inr ⟨hr, e ▸ h⟩
  · rw [e] at h; cases h; exact .inl rfl

/-- The flag of a code is bit `CODE - 1` (R132). -/
theorem flag_getLsbD (c : Code) (k : Nat) (hk : k < 5) : c.flag.getLsbD k = decide (k + 1 = c.number.toNat) := by
  have : k = 0 ∨ k = 1 ∨ k = 2 ∨ k = 3 ∨ k = 4 := by omega
  rcases this with rfl | rfl | rfl | rfl | rfl <;> cases c <;> rfl

theorem errRaised_errorEntry (s : State) (c : Code) : ErrRaised c s (s.errorEntry c) := by
  intro k hk
  rw [State.errorEntry_err, raiseFlag, BitVec.getLsbD_or, flag_getLsbD c k hk]

/-- Raising a code of ERR never clears a bit. -/
theorem raiseFlag_mono (err : BitVec 5) (c : Code) (k : Nat) (h : err.getLsbD k = true) :
    (raiseFlag err c).getLsbD k = true := by
  rw [raiseFlag, BitVec.getLsbD_or, h, Bool.true_or]

theorem samePort_refl (s : State) : SamePort s s := ⟨rfl, rfl, rfl, rfl, rfl, rfl⟩

theorem sameInstance_refl (s : State) : SameInstance s s := ⟨rfl, rfl, rfl, rfl⟩

theorem sameBytes_refl (s : State) : SameBytes s s := fun _ => rfl

/-- The error entry is a clean refusal of the state it is entered from. -/
theorem cleanRefusal_errorEntry (s : State) (c : Code) : CleanRefusal (.next (s.errorEntry c)) s c :=
  ⟨_, rfl, rfl, errRaised_errorEntry s c, ⟨rfl, rfl, rfl, rfl, rfl, rfl⟩, ⟨rfl, rfl, rfl, rfl⟩, rfl,
    fun _ => rfl⟩

/-- A command whose meaning comes down to completing from `u` completes. -/
theorem completes_of {i : Instr} {s u : State} {v : Block} {P : State → Prop} (h : exec i s = complete v u)
    (hp : SamePort s u) (hP : P (u.respond .ok v)) : Completes i s v P :=
  ⟨u.respond .ok v, h, rfl, hp, hP⟩

/-! ## Delivery and reset -/

theorem deliver_some {s : State} {r : Response} (h : s.rsp = some r) :
    s.deliver = { s with phase := .idle, rsp := none, inFlight := none, delivered := s.delivered ++ [r] } := by
  simp [State.deliver, h]

theorem deliver_none {s : State} (h : s.rsp = none) : s.deliver = s := by
  simp [State.deliver, h]

theorem exposed_idle {s : State} (h : s.phase = .idle) : s.exposed = none := by
  simp [State.exposed, h]

/-- What a reset exposes is what the command in flight could have written, or nothing. -/
theorem exposed_cases (s : State) : s.exposed = none ∨ s.exposed = s.inFlight := by
  unfold State.exposed
  split
  · exact .inl rfl
  · split
    · exact .inl rfl
    · exact .inr rfl
  · exact .inr rfl

theorem applyReset_msg_none {s : State} (h : s.exposed = none) : s.applyReset.msg = s.msg := by
  simp [State.applyReset, State.powerUp, h]

theorem applyReset_msg_some {s : State} {a n : Nat} (h : s.exposed = some (a, n)) :
    s.applyReset.msg = Memory.scramble s.cfg.msgBytes s.aborts s.msg a n := by
  simp [State.applyReset, State.powerUp, h]

end Sys2Proof.Machine
end

