-- ==== Sys2Proof/Laws/Buffer.lean ====
section
/-! SUPPORT. What the five buffer commands answer (spec/45_buffer_access.md R123 to R127), one lemma for each way one ends,
and the shape the four accesses share: what they answer is fixed by MSG_BYTES and MSG alone. -/

namespace Sys2Proof.Machine

theorem exec_wrb {s : State} {a : Addr} (h : a.toNat < s.cfg.msgBytes) (b : Byte) :
    exec (.wrb a b) s = .next (State.respond { s with msg := s.msg.writeByte a.toNat b } .ok 0) := by
  rw [exec, execWrb, if_pos h]; rfl

theorem exec_rdb {s : State} {a : Addr} (h : a.toNat < s.cfg.msgBytes) :
    exec (.rdb a) s = .next (s.respond .ok (zext64 (s.msg.readByte a.toNat))) := by
  rw [exec, execRdb, if_pos h]; rfl

theorem exec_wrq {s : State} {a : Addr} (h : QuadAddrValid s.cfg a) (q : Block) :
    exec (.wrq a q) s = .next (State.respond { s with msg := s.msg.writeBlock a.toNat q } .ok 0) := by
  rw [exec, execWrq, if_pos h]; rfl

theorem exec_rdq {s : State} {a : Addr} (h : QuadAddrValid s.cfg a) :
    exec (.rdq a) s = .next (s.respond .ok (s.msg.readBlock a.toNat)) := by
  rw [exec, execRdq, if_pos h]; rfl

theorem exec_wrb_addr {s : State} {a : Addr} (h : ¬ByteAddrValid s.cfg a) (b : Byte) :
    exec (.wrb a b) s = .next (s.errorEntry .addr) := by
  rw [exec, execWrb, if_neg h]; rfl

theorem exec_rdb_addr {s : State} {a : Addr} (h : ¬ByteAddrValid s.cfg a) :
    exec (.rdb a) s = .next (s.errorEntry .addr) := by
  rw [exec, execRdb, if_neg h]; rfl

theorem exec_wrq_addr {s : State} {a : Addr} (h : ¬QuadAddrValid s.cfg a) (q : Block) :
    exec (.wrq a q) s = .next (s.errorEntry .addr) := by
  rw [exec, execWrq, if_neg h]; rfl

theorem exec_rdq_addr {s : State} {a : Addr} (h : ¬QuadAddrValid s.cfg a) :
    exec (.rdq a) s = .next (s.errorEntry .addr) := by
  rw [exec, execRdq, if_neg h]; rfl

theorem exec_setlen {s : State} {len : Addr} (h : len.toNat ≤ s.cfg.msgBytes) :
    exec (.setlen len) s = .next (State.respond { s with len := len } .ok 0) := by
  rw [exec, execSetlen, if_neg (Nat.not_lt.2 h)]; rfl

theorem exec_setlen_len {s : State} {len : Addr} (h : s.cfg.msgBytes < len.toNat) :
    exec (.setlen len) s = .next (s.errorEntry .len) := by
  rw [exec, execSetlen, if_pos h]; rfl

/-- OK has no bit of ERR. -/
@[simp] theorem or_flag_ok (e : BitVec 5) : e ||| Code.ok.flag = e := by simp [Code.flag]

/-- A byte of a block that was read. -/
theorem byteOf_readBlock (m : Memory) (a k : Nat) (h : k < 8) : byteOf (m.readBlock a) k = m.readByte (a + k) := by
  obtain ⟨h0, h1, h2, h3, h4, h5, h6, h7⟩ := byteOf_le64 (m.readByte a) (m.readByte (a + 1)) (m.readByte (a + 2))
    (m.readByte (a + 3)) (m.readByte (a + 4)) (m.readByte (a + 5)) (m.readByte (a + 6)) (m.readByte (a + 7))
  have : k = 0 ∨ k = 1 ∨ k = 2 ∨ k = 3 ∨ k = 4 ∨ k = 5 ∨ k = 6 ∨ k = 7 := by omega
  rcases this with rfl | rfl | rfl | rfl | rfl | rfl | rfl | rfl <;> assumption

end Sys2Proof.Machine
end

