-- ==== Sys2Proof/Laws/PerInstr.lean ====
section
/-! SUPPORT. The family `EncodedFields`: the four fields of the packet of each command (spec/30_encoding.md R55, R56),
one lemma per constructor. -/

namespace Sys2Proof

/-- The number of a concatenation. -/
theorem toNat_append_eq {n m : Nat} (x : BitVec n) (y : BitVec m) : (x ++ y).toNat = x.toNat * 2 ^ m + y.toNat := by
  rw [BitVec.toNat_append, Nat.shiftLeft_eq, Nat.mul_comm, Nat.two_pow_add_eq_or_of_lt y.isLt]

/-! ## The fields of a packet put together from fields -/

@[simp] theorem opc_ofFields (o r : Byte) (i : Addr) (d : Block) : (Packet.ofFields o r i d).opc = o := by
  apply BitVec.eq_of_toNat_eq
  have h1 := o.isLt; have h2 := r.isLt; have h3 := i.isLt; have h4 := d.isLt
  simp only [Packet.opc, Packet.ofFields, BitVec.extractLsb'_toNat, toNat_append_eq, Nat.shiftRight_eq_div_pow]
  omega

@[simp] theorem rsv_ofFields (o r : Byte) (i : Addr) (d : Block) : (Packet.ofFields o r i d).rsv = r := by
  apply BitVec.eq_of_toNat_eq
  have h1 := o.isLt; have h2 := r.isLt; have h3 := i.isLt; have h4 := d.isLt
  simp only [Packet.rsv, Packet.ofFields, BitVec.extractLsb'_toNat, toNat_append_eq, Nat.shiftRight_eq_div_pow]
  omega

@[simp] theorem idx_ofFields (o r : Byte) (i : Addr) (d : Block) : (Packet.ofFields o r i d).idx = i := by
  apply BitVec.eq_of_toNat_eq
  have h1 := o.isLt; have h2 := r.isLt; have h3 := i.isLt; have h4 := d.isLt
  simp only [Packet.idx, Packet.ofFields, BitVec.extractLsb'_toNat, toNat_append_eq, Nat.shiftRight_eq_div_pow]
  omega

@[simp] theorem dat_ofFields (o r : Byte) (i : Addr) (d : Block) : (Packet.ofFields o r i d).dat = d := by
  apply BitVec.eq_of_toNat_eq
  have h1 := o.isLt; have h2 := r.isLt; have h3 := i.isLt; have h4 := d.isLt
  simp only [Packet.dat, Packet.ofFields, BitVec.extractLsb'_toNat, toNat_append_eq, Nat.shiftRight_eq_div_pow]
  omega

/-- A packet is its four fields put together (R55). -/
theorem ofFields_fields (cw : Packet) : Packet.ofFields cw.opc cw.rsv cw.idx cw.dat = cw := by
  apply BitVec.eq_of_toNat_eq
  have h := cw.isLt
  simp only [Packet.opc, Packet.rsv, Packet.idx, Packet.dat, Packet.ofFields, BitVec.extractLsb'_toNat, toNat_append_eq,
    Nat.shiftRight_eq_div_pow]
  omega

namespace Laws.EncodedFields

/-- The packet of the command has its opcode in OPC, 0 in RSV, and the fields of its format in IDX and DAT. -/
def Statement (i : Instr) : Prop :=
  (encode i).opc = i.opc ∧ (encode i).rsv = 0 ∧ (encode i).idx = i.idxField ∧ (encode i).dat = i.datField

/-- Every command's packet is put together from its fields. -/
theorem of_encode (i : Instr) : Statement i := by
  simp only [Statement, encode, opc_ofFields, rsv_ofFields, idx_ofFields, dat_ofFields, and_self]

theorem nop : Statement .nop := of_encode _
theorem rdsr : Statement .rdsr := of_encode _
theorem clrerr : Statement .clrerr := of_encode _
theorem clr : Statement .clr := of_encode _
theorem init : Statement .init := of_encode _
theorem ldk (i : Nat) (w : Word) : Statement (.ldk i w) := of_encode _
theorem lds (t n : Nat) (v : Nibble) : Statement (.lds t n v) := of_encode _
theorem wrb (addr : Addr) (b : Byte) : Statement (.wrb addr b) := of_encode _
theorem rdb (addr : Addr) : Statement (.rdb addr) := of_encode _
theorem wrq (addr : Addr) (q : Block) : Statement (.wrq addr q) := of_encode _
theorem rdq (addr : Addr) : Statement (.rdq addr) := of_encode _
theorem setlen (len : Addr) : Statement (.setlen len) := of_encode _
theorem rndf (half subkey : Word) : Statement (.rndf half subkey) := of_encode _
theorem encblk (d : Block) : Statement (.encblk d) := of_encode _
theorem decblk (d : Block) : Statement (.decblk d) := of_encode _
theorem encEcb : Statement .encEcb := of_encode _
theorem decEcb : Statement .decEcb := of_encode _
theorem encCbc (iv : Block) : Statement (.encCbc iv) := of_encode _
theorem decCbc (iv : Block) : Statement (.decCbc iv) := of_encode _
theorem encCfb (iv : Block) : Statement (.encCfb iv) := of_encode _
theorem decCfb (iv : Block) : Statement (.decCfb iv) := of_encode _
theorem encOfb (iv : Block) : Statement (.encOfb iv) := of_encode _
theorem decOfb (iv : Block) : Statement (.decOfb iv) := of_encode _

end Laws.EncodedFields

end Sys2Proof
end

