-- ==== Sys2Proof/Laws/Encoding.lean ====
section
/-! SUPPORT. Putting fields together and taking them apart again, and what each format accepts (spec/30_encoding.md R55,
R56, R60). -/

namespace Sys2Proof

/-- Bits that are zero above `m` are the zero extension of the low `m` bits. -/
theorem zext_extract {n m : Nat} {x : BitVec (n + m)} (h : x.extractLsb' m n = 0) :
    0#n ++ x.extractLsb' 0 m = x := by
  rw [← BitVec.extractLsb'_append_extractLsb' (x := x), h, BitVec.extractLsb'_append_eq_right]; rfl

/-- The three fields of IDX in format S. -/
theorem idxS_fields (x : Addr) (h : x.extractLsb' 7 9 = 0) :
    0#9 ++ x.extractLsb' 4 3 ++ x.extractLsb' 0 4 = x := by
  apply BitVec.eq_of_toNat_eq
  have hx := x.isLt
  have h0 : (x.extractLsb' 7 9).toNat = 0 := by rw [h]; rfl
  simp only [BitVec.extractLsb'_toNat, Nat.shiftRight_eq_div_pow] at h0
  simp only [toNat_append_eq, BitVec.extractLsb'_toNat, Nat.shiftRight_eq_div_pow, BitVec.toNat_ofNat]
  omega

/-- Decoding a packet put together from fields with RSV = 0 is decoding the fields. -/
theorem decode_ofFields (o : Byte) (i : Addr) (d : Block) :
    decode (Packet.ofFields o 0 i d) = decodeFields o i d := by
  simp [decode]

/-! ## What each format accepts -/

theorem formatZ_ok {i j : Instr} {idx : Addr} {dat : Block} (h : formatZ i idx dat = .ok j) :
    j = i ∧ idx = 0 ∧ dat = 0 := by
  unfold formatZ at h
  split at h
  · cases h; exact ⟨rfl, ‹_›⟩
  · cases h

theorem formatK_ok {mk : Nat → Word → Instr} {j : Instr} {idx : Addr} {dat : Block} (h : formatK mk idx dat = .ok j) :
    j = mk (idx.extractLsb' 0 3).toNat (dat.extractLsb' 0 32) ∧
      idx.extractLsb' 3 13 = 0 ∧ dat.extractLsb' 32 32 = 0 := by
  unfold formatK at h
  split at h
  · cases h; exact ⟨rfl, ‹_›⟩
  · cases h

theorem formatS_ok {mk : Nat → Nat → Nibble → Instr} {j : Instr} {idx : Addr} {dat : Block}
    (h : formatS mk idx dat = .ok j) :
    j = mk (idx.extractLsb' 4 3).toNat (idx.extractLsb' 0 4).toNat (dat.extractLsb' 0 4) ∧
      idx.extractLsb' 7 9 = 0 ∧ dat.extractLsb' 4 60 = 0 := by
  unfold formatS at h
  split at h
  · cases h; exact ⟨rfl, ‹_›⟩
  · cases h

theorem formatAB_ok {mk : Addr → Byte → Instr} {j : Instr} {idx : Addr} {dat : Block}
    (h : formatAB mk idx dat = .ok j) : j = mk idx (dat.extractLsb' 0 8) ∧ dat.extractLsb' 8 56 = 0 := by
  unfold formatAB at h
  split at h
  · cases h; exact ⟨rfl, ‹_›⟩
  · cases h

theorem formatA_ok {mk : Addr → Instr} {j : Instr} {idx : Addr} {dat : Block} (h : formatA mk idx dat = .ok j) :
    j = mk idx ∧ dat = 0 := by
  unfold formatA at h
  split at h
  · cases h; exact ⟨rfl, ‹_›⟩
  · cases h

theorem formatAQ_ok {mk : Addr → Block → Instr} {j : Instr} {idx : Addr} {dat : Block}
    (h : formatAQ mk idx dat = .ok j) : j = mk idx dat := by
  cases h; rfl

theorem formatD_ok {mk : Block → Instr} {j : Instr} {idx : Addr} {dat : Block} (h : formatD mk idx dat = .ok j) :
    j = mk dat ∧ idx = 0 := by
  unfold formatD at h
  split at h
  · cases h; exact ⟨rfl, ‹_›⟩
  · cases h

end Sys2Proof
end

