-- ==== Sys2Proof/Laws/Modes.lean ====
section
/-! SUPPORT. The mode control: what the sequencing of the blocks leaves unchanged, and that in place it computes, block
after block, the function of feedback and input that its block step computes. -/

namespace Sys2Proof.Machine

/-! ## Rounds on the datapath -/

/-- The round steps write N_HI, N_LO and RND only. -/
theorem roundSteps_frame (rk : KeyFile) (sbox : SboxFile) (n : Nat) (tr : Transient) :
    (roundSteps rk sbox n tr).ord = tr.ord ∧ (roundSteps rk sbox n tr).fb = tr.fb ∧
    (roundSteps rk sbox n tr).tmp = tr.tmp ∧ (roundSteps rk sbox n tr).blk = tr.blk ∧
    (roundSteps rk sbox n tr).nblk = tr.nblk ∧ (roundSteps rk sbox n tr).padl = tr.padl := by
  induction n generalizing tr with
  | zero => exact ⟨rfl, rfl, rfl, rfl, rfl, rfl⟩
  | succ n ih => exact ih (roundStep rk sbox tr)

/-- A transform leaves FB, TMP, BLK, NBLK and PADL alone. -/
theorem runTransform_frame (rk : KeyFile) (sbox : SboxFile) (o : RoundKeyOrder) (x : Block) (tr : Transient) :
    (runTransform rk sbox o x tr).fb = tr.fb ∧ (runTransform rk sbox o x tr).tmp = tr.tmp ∧
    (runTransform rk sbox o x tr).blk = tr.blk ∧ (runTransform rk sbox o x tr).nblk = tr.nblk ∧
    (runTransform rk sbox o x tr).padl = tr.padl :=
  (roundSteps_frame rk sbox 32 (blockLoad o x tr)).2

/-! ## Sequencing -/

/-- The blocks' processing writes MSG and the transient registers only. -/
theorem processBlocks_frame (step : BlockStep) (n : Nat) (s : State) :
    ∃ tr m, processBlocks step n s = { s with tr := tr, msg := m } := by
  induction n generalizing s with
  | zero => exact ⟨s.tr, s.msg, rfl⟩
  | succ n ih =>
    obtain ⟨tr, m, h⟩ := ih (processBlock step s)
    exact ⟨tr, m, by rw [processBlocks, h]; rfl⟩

/-- Block after block, the outputs of a step function on feedback and input. -/
def chain (g : Block → Block → Block × Block) : Block → List Block → List Block
  | _, [] => []
  | fb, x :: xs => (g fb x).2 :: chain g (g fb x).1 xs

/-- The block step computes `g` of FB and the input, and keeps BLK and NBLK. -/
def StepComputes (step : BlockStep) (rk : KeyFile) (sbox : SboxFile) (g : Block → Block → Block × Block) : Prop :=
  ∀ tr x, (step rk sbox tr x).1.fb = (g tr.fb x).1 ∧ (step rk sbox tr x).2 = (g tr.fb x).2 ∧
    (step rk sbox tr x).1.blk = tr.blk ∧ (step rk sbox tr x).1.nblk = tr.nblk

theorem split_blockBytes (b : Block) (rest : List Byte) : split (blockBytes b ++ rest) = b :: split rest := by
  simp only [blockBytes, List.cons_append, List.nil_append, split, le64_byteOf]

/-- Processing `n` blocks in place from block `k` on: the bytes of those blocks become the chained outputs, every other
byte is as before, and BLK ends at `k + n` (R109). -/
theorem processBlocks_spec {step : BlockStep} {g : Block → Block → Block × Block} (n : Nat) :
    ∀ (s : State) (k : Nat), StepComputes step s.rk s.sbox g → s.msg.wf → s.tr.blk.toNat = k → k + n < 2 ^ 13 →
      (processBlocks step n s).msg.wf ∧
      (processBlocks step n s).tr.blk.toNat = k + n ∧
      (processBlocks step n s).tr.nblk = s.tr.nblk ∧
      (∀ a, (a < 8 * k ∨ 8 * k + 8 * n ≤ a) → (processBlocks step n s).msg.readByte a = s.msg.readByte a) ∧
      (processBlocks step n s).msg.readBytes (8 * k) (8 * n) =
        join (chain g s.tr.fb (split (s.msg.readBytes (8 * k) (8 * n)))) := by
  induction n with
  | zero => intro s k _ hwf hk _; exact ⟨hwf, hk, rfl, fun _ _ => rfl, rfl⟩
  | succ n ih =>
    intro s k hg hwf hk hlt
    obtain ⟨g1, g2, g3, g4⟩ := hg s.tr (s.msg.readBlock (8 * k))
    have hmsg : (processBlock step s).msg =
        s.msg.writeBlock (8 * k) (g s.tr.fb (s.msg.readBlock (8 * k))).2 := by
      rw [processBlock_msg, hk, g2]
    have hwf' : (processBlock step s).msg.wf := by rw [hmsg]; exact Memory.wf_writeBlock hwf _ _
    have hblk : (processBlock step s).tr.blk.toNat = k + 1 := by
      rw [processBlock_tr, hk]
      simp only [g3]
      rw [BitVec.toNat_add, hk]
      rw [show (1 : BitVec 13).toNat = 1 from rfl]
      omega
    have hfb : (processBlock step s).tr.fb = (g s.tr.fb (s.msg.readBlock (8 * k))).1 := by
      rw [processBlock_tr, hk]; exact g1
    have hnb : (processBlock step s).tr.nblk = s.tr.nblk := by
      rw [processBlock_tr, hk]; exact g4
    obtain ⟨i1, i2, i3, i4, i5⟩ := ih (processBlock step s) (k + 1) hg hwf' hblk (by omega)
    rw [processBlocks]
    refine ⟨i1, by omega, i3.trans hnb, ?_, ?_⟩
    · intro a ha
      rw [i4 a (by omega), hmsg, Memory.readByte_writeBlock hwf, if_neg (by omega)]
    · rw [show 8 * (n + 1) = 8 + 8 * n by omega, Memory.readBytes_append, Memory.readBytes_append,
        ← Memory.readBlock_eq_le64 s.msg, split_blockBytes, chain, join,
        show 8 * k + 8 = 8 * (k + 1) by omega, i5, hfb]
      congr 1
      · rw [← Memory.readBlock_eq_le64]
        rw [Memory.readBlock_congr fun j hj => (i4 (8 * k + j) (by omega)).trans (by rw [hmsg]),
          Memory.readBlock_writeBlock hwf]
      · congr 3
        apply Memory.readBytes_congr
        intro j hj
        rw [hmsg, Memory.readByte_writeBlock hwf, if_neg (by omega)]

/-- The block step leaves BLK and NBLK alone. -/
def KeepsCounters (step : BlockStep) : Prop :=
  ∀ rk sbox tr x, (step rk sbox tr x).1.blk = tr.blk ∧ (step rk sbox tr x).1.nblk = tr.nblk

/-- Processing `n` blocks from block `k` on, all of them in the buffer, keeps the memory canonical and in the buffer,
and counts BLK up to `k + n` (R42, R109). -/
theorem processBlocks_buffer {step : BlockStep} (hstep : KeepsCounters step) (limit n : Nat) :
    ∀ (s : State) (k : Nat), s.msg.wf → (∀ c ∈ s.msg, c.1 < limit) → s.tr.blk.toNat = k → k + n < 2 ^ 13 →
      8 * (k + n) ≤ limit →
      (processBlocks step n s).msg.wf ∧ (∀ c ∈ (processBlocks step n s).msg, c.1 < limit) ∧
      (processBlocks step n s).tr.blk.toNat = k + n ∧ (processBlocks step n s).tr.nblk = s.tr.nblk := by
  induction n with
  | zero => intro s k hwf hm hk _ _; exact ⟨hwf, hm, hk, rfl⟩
  | succ n ih =>
    intro s k hwf hm hk hlt hle
    obtain ⟨g1, g2⟩ := hstep s.rk s.sbox s.tr (s.msg.readBlock (8 * k))
    have hmsg : (processBlock step s).msg =
        s.msg.writeBlock (8 * k) (step s.rk s.sbox s.tr (s.msg.readBlock (8 * k))).2 := by
      rw [processBlock_msg, hk]
    have hblk : (processBlock step s).tr.blk.toNat = k + 1 := by
      rw [processBlock_tr, hk]
      simp only [g1]
      rw [BitVec.toNat_add, hk, show (1 : BitVec 13).toNat = 1 from rfl]
      omega
    have hnb : (processBlock step s).tr.nblk = s.tr.nblk := by
      rw [processBlock_tr, hk]; exact g2
    have hm' : ∀ c ∈ (processBlock step s).msg, c.1 < limit := by
      intro c hc
      rw [hmsg] at hc
      rcases Memory.mem_writeBlock hc with h | h
      · omega
      · exact hm c h
    obtain ⟨i1, i2, i3, i4⟩ := ih (processBlock step s) (k + 1)
      (by rw [hmsg]; exact Memory.wf_writeBlock hwf _ _) hm' hblk (by omega) (by omega)
    exact ⟨i1, i2, by rw [processBlocks, i3]; omega, i4.trans hnb⟩

/-! ## The block steps -/

/-- What the datapath unloads after a transform is `E` or `D` of its input, the premise of the lemmas below. -/
def Unloads (rk : KeyFile) (sbox : SboxFile) (o : RoundKeyOrder) (F : Block → Block) : Prop :=
  ∀ x tr, blockUnload (runTransform rk sbox o x tr) = F x

section
variable {rk : KeyFile} {sbox : SboxFile} {E D : Block → Block}

theorem stepEcbEncrypt_computes (h : Unloads rk sbox .encrypt E) :
    StepComputes stepEcbEncrypt rk sbox fun fb x => (fb, E x) := by
  intro tr x
  obtain ⟨f1, -, f3, f4, -⟩ := runTransform_frame rk sbox .encrypt x tr
  simp only [stepEcbEncrypt, f1, f3, f4, h x tr, and_self]

theorem stepEcbDecrypt_computes (h : Unloads rk sbox .decrypt D) :
    StepComputes stepEcbDecrypt rk sbox fun fb x => (fb, D x) := by
  intro tr x
  obtain ⟨f1, -, f3, f4, -⟩ := runTransform_frame rk sbox .decrypt x tr
  simp only [stepEcbDecrypt, f1, f3, f4, h x tr, and_self]

theorem stepCbcEncrypt_computes (h : Unloads rk sbox .encrypt E) :
    StepComputes stepCbcEncrypt rk sbox fun fb x => (E (x ^^^ fb), E (x ^^^ fb)) := by
  intro tr x
  obtain ⟨-, -, f3, f4, -⟩ := runTransform_frame rk sbox .encrypt (x ^^^ tr.fb) tr
  simp only [stepCbcEncrypt, f3, f4, h (x ^^^ tr.fb) tr, and_self]

theorem stepCbcDecrypt_computes (h : Unloads rk sbox .decrypt D) :
    StepComputes stepCbcDecrypt rk sbox fun fb x => (x, D x ^^^ fb) := by
  intro tr x
  obtain ⟨f1, f2, f3, f4, -⟩ := runTransform_frame rk sbox .decrypt x { tr with tmp := x }
  simp only [stepCbcDecrypt, f1, f2, f3, f4, h x, and_self]

theorem stepCfbEncrypt_computes (h : Unloads rk sbox .encrypt E) :
    StepComputes stepCfbEncrypt rk sbox fun fb x => (E fb ^^^ x, E fb ^^^ x) := by
  intro tr x
  obtain ⟨-, -, f3, f4, -⟩ := runTransform_frame rk sbox .encrypt tr.fb tr
  simp only [stepCfbEncrypt, f3, f4, h tr.fb tr, and_self]

theorem stepCfbDecrypt_computes (h : Unloads rk sbox .encrypt E) :
    StepComputes stepCfbDecrypt rk sbox fun fb x => (x, E fb ^^^ x) := by
  intro tr x
  obtain ⟨-, -, f3, f4, -⟩ := runTransform_frame rk sbox .encrypt tr.fb tr
  simp only [stepCfbDecrypt, f3, f4, h tr.fb tr, and_self]

theorem stepOfb_computes (h : Unloads rk sbox .encrypt E) :
    StepComputes stepOfb rk sbox fun fb x => (E fb, E fb ^^^ x) := by
  intro tr x
  obtain ⟨-, -, f3, f4, -⟩ := runTransform_frame rk sbox .encrypt tr.fb tr
  simp only [stepOfb, f3, f4, h tr.fb tr, and_self]

end

section

theorem stepEcbEncrypt_keeps : KeepsCounters stepEcbEncrypt := fun rk sbox tr x => by
  obtain ⟨-, -, f3, f4, -⟩ := runTransform_frame rk sbox .encrypt x tr
  simp only [stepEcbEncrypt, f3, f4, and_self]

theorem stepEcbDecrypt_keeps : KeepsCounters stepEcbDecrypt := fun rk sbox tr x => by
  obtain ⟨-, -, f3, f4, -⟩ := runTransform_frame rk sbox .decrypt x tr
  simp only [stepEcbDecrypt, f3, f4, and_self]

theorem stepCbcEncrypt_keeps : KeepsCounters stepCbcEncrypt := fun rk sbox tr x => by
  obtain ⟨-, -, f3, f4, -⟩ := runTransform_frame rk sbox .encrypt (x ^^^ tr.fb) tr
  simp only [stepCbcEncrypt, f3, f4, and_self]

theorem stepCbcDecrypt_keeps : KeepsCounters stepCbcDecrypt := fun rk sbox tr x => by
  obtain ⟨-, -, f3, f4, -⟩ := runTransform_frame rk sbox .decrypt x { tr with tmp := x }
  simp only [stepCbcDecrypt, f3, f4, and_self]

theorem stepCfbEncrypt_keeps : KeepsCounters stepCfbEncrypt := fun rk sbox tr x => by
  obtain ⟨-, -, f3, f4, -⟩ := runTransform_frame rk sbox .encrypt tr.fb tr
  simp only [stepCfbEncrypt, f3, f4, and_self]

theorem stepCfbDecrypt_keeps : KeepsCounters stepCfbDecrypt := fun rk sbox tr x => by
  obtain ⟨-, -, f3, f4, -⟩ := runTransform_frame rk sbox .encrypt tr.fb tr
  simp only [stepCfbDecrypt, f3, f4, and_self]

theorem stepOfb_keeps : KeepsCounters stepOfb := fun rk sbox tr x => by
  obtain ⟨-, -, f3, f4, -⟩ := runTransform_frame rk sbox .encrypt tr.fb tr
  simp only [stepOfb, f3, f4, and_self]

end

/-! ## The chained outputs are the modes' equations (R104) -/

theorem chain_ecb (F : Block → Block) (fb : Block) (bs : List Block) :
    chain (fun fb x => (fb, F x)) fb bs = bs.map F := by
  induction bs generalizing fb with
  | nil => rfl
  | cons b bs ih => rw [chain, ih]; rfl

theorem chain_cbcEncrypt (E : Block → Block) (fb : Block) (bs : List Block) :
    chain (fun fb x => (E (x ^^^ fb), E (x ^^^ fb))) fb bs = cbcEncrypt E fb bs := by
  induction bs generalizing fb with
  | nil => rfl
  | cons b bs ih => rw [chain, ih]; rfl

theorem chain_cbcDecrypt (D : Block → Block) (fb : Block) (bs : List Block) :
    chain (fun fb x => (x, D x ^^^ fb)) fb bs = cbcDecrypt D fb bs := by
  induction bs generalizing fb with
  | nil => rfl
  | cons b bs ih => rw [chain, ih]; rfl

theorem chain_cfbEncrypt (E : Block → Block) (fb : Block) (bs : List Block) :
    chain (fun fb x => (E fb ^^^ x, E fb ^^^ x)) fb bs = cfbEncrypt E fb bs := by
  induction bs generalizing fb with
  | nil => rfl
  | cons b bs ih => rw [chain, ih]; rfl

theorem chain_cfbDecrypt (E : Block → Block) (fb : Block) (bs : List Block) :
    chain (fun fb x => (x, E fb ^^^ x)) fb bs = cfbDecrypt E fb bs := by
  induction bs generalizing fb with
  | nil => rfl
  | cons b bs ih => rw [chain, ih]; rfl

theorem chain_ofb (E : Block → Block) (fb : Block) (bs : List Block) :
    chain (fun fb x => (E fb, E fb ^^^ x)) fb bs = ofbXor E fb bs := by
  induction bs generalizing fb with
  | nil => rfl
  | cons b bs ih => rw [chain, ih]; rfl

end Sys2Proof.Machine
end

