-- ==== Sys2Proof/Laws/Exec.lean ====
section
/-! SUPPORT. Everything the execution of a command can do, said once: the ways the two common frames of the mode
commands end, and the ways any command ends. -/

namespace Sys2Proof.Machine

/-! ## The frames of the mode commands -/

/-- What processing the message leaves unchanged. -/
theorem processMessage_frame (step : BlockStep) (s : State) :
    ∃ tr m, processMessage step s = { s with tr := tr, msg := m } := by
  obtain ⟨tr, m, h⟩ := processBlocks_frame step s.tr.nblk.toNat { s with tr := { s.tr with blk := 0 } }
  exact ⟨tr, m, h⟩

theorem loadIv_frame (s : State) (iv : Option Block) : ∃ tr, s.loadIv iv = { s with tr := tr } := by
  cases iv with
  | none => exact ⟨s.tr, rfl⟩
  | some v => exact ⟨{ s.tr with fb := v }, rfl⟩

/-- The three ways an encrypt command ends (R107). -/
theorem encryptFrame_cases (step : BlockStep) (iv : Option Block) (s : State) :
    (s.ready ≠ true ∧ encryptFrame step iv s = .next (s.errorEntry .state)) ∨
    (s.ready = true ∧ s.cfg.msgBytes < s.len.toNat + padlen s.len.toNat ∧
      encryptFrame step iv s = .next (s.errorEntry .len)) ∨
    (s.ready = true ∧ s.len.toNat + padlen s.len.toNat ≤ s.cfg.msgBytes ∧ ∃ tr m,
      processMessage step (s.padStep.loadIv iv) = { s with tr := tr, msg := m } ∧
      encryptFrame step iv s = .next
        (State.respond { s with tr := tr, msg := m, len := BitVec.ofNat 16 (s.len.toNat + padlen s.len.toNat) }
          .ok 0)) := by
  rcases requireReady_cases true s (fun s =>
    let p := padlen s.len.toNat
    if s.cfg.msgBytes < s.len.toNat + p then raise .len s
    else
      let t := processMessage step (s.padStep.loadIv iv)
      complete 0 { t with len := BitVec.ofNat 16 (s.len.toNat + p) }) with ⟨h, e⟩ | ⟨h, e⟩
  · by_cases hl : s.cfg.msgBytes < s.len.toNat + padlen s.len.toNat
    · refine .inr (.inl ⟨h, hl, ?_⟩)
      rw [encryptFrame, e]
      simp only [if_pos hl, raise_eq]
    · refine .inr (.inr ⟨h, Nat.le_of_not_lt hl, ?_⟩)
      obtain ⟨tr1, h1⟩ := loadIv_frame s.padStep iv
      obtain ⟨tr, m, h2⟩ := processMessage_frame step (s.padStep.loadIv iv)
      have h3 : processMessage step (s.padStep.loadIv iv) = { s with tr := tr, msg := m } := by
        rw [h2, h1]; rfl
      refine ⟨tr, m, h3, ?_⟩
      rw [encryptFrame, e]
      simp only [if_neg hl, complete_eq, h3]
  · exact .inl ⟨h, e⟩

/-- The four ways a decrypt command ends (R108, R101). -/
theorem decryptFrame_cases (step : BlockStep) (iv : Option Block) (s : State) :
    (s.ready ≠ true ∧ decryptFrame step iv s = .next (s.errorEntry .state)) ∨
    (s.ready = true ∧ (s.len.toNat = 0 ∨ s.len.toNat % 8 ≠ 0) ∧
      decryptFrame step iv s = .next (s.errorEntry .len)) ∨
    (s.ready = true ∧ s.len.toNat ≠ 0 ∧ s.len.toNat % 8 = 0 ∧ ∃ tr m,
      processMessage step (State.loadIv
        { s with tr := { s.tr with nblk := BitVec.ofNat 14 (s.len.toNat / 8) } } iv) = { s with tr := tr, msg := m } ∧
      ((BadPad (m.readByte (s.len.toNat - 1)).toNat s.len.toNat ∧
          decryptFrame step iv s = .next (State.errorEntry { s with tr := tr, msg := m } .pad)) ∨
        (¬ BadPad (m.readByte (s.len.toNat - 1)).toNat s.len.toNat ∧
          decryptFrame step iv s = .next (State.respond
            { s with
              tr := { tr with padl := BitVec.ofNat 4 (m.readByte (s.len.toNat - 1)).toNat }
              msg := m
              len := BitVec.ofNat 16 (s.len.toNat - (m.readByte (s.len.toNat - 1)).toNat) } .ok 0)))) := by
  rcases requireReady_cases true s (fun s =>
    if s.len.toNat = 0 ∨ s.len.toNat % 8 ≠ 0 then raise .len s
    else
      let t := { s with tr := { s.tr with nblk := BitVec.ofNat 14 (s.len.toNat / 8) } }
      unpadStep (processMessage step (t.loadIv iv))) with ⟨h, e⟩ | ⟨h, e⟩
  · by_cases hl : s.len.toNat = 0 ∨ s.len.toNat % 8 ≠ 0
    · refine .inr (.inl ⟨h, hl, ?_⟩)
      rw [decryptFrame, e]
      simp only [if_pos hl, raise_eq]
    · refine .inr (.inr ⟨h, by omega, by omega, ?_⟩)
      obtain ⟨tr1, h1⟩ := loadIv_frame { s with tr := { s.tr with nblk := BitVec.ofNat 14 (s.len.toNat / 8) } } iv
      obtain ⟨tr, m, h2⟩ := processMessage_frame step
        (State.loadIv { s with tr := { s.tr with nblk := BitVec.ofNat 14 (s.len.toNat / 8) } } iv)
      have h3 : processMessage step (State.loadIv
          { s with tr := { s.tr with nblk := BitVec.ofNat 14 (s.len.toNat / 8) } } iv) =
          { s with tr := tr, msg := m } := by
        rw [h2, h1]
      refine ⟨tr, m, h3, ?_⟩
      have h4 : decryptFrame step iv s = unpadStep { s with tr := tr, msg := m } := by
        rw [decryptFrame, e]
        simp only [if_neg hl, h3]
      rw [h4, unpadStep]
      by_cases hb : BadPad (m.readByte (s.len.toNat - 1)).toNat s.len.toNat
      · exact .inl ⟨hb, if_pos hb⟩
      · exact .inr ⟨hb, if_neg hb⟩
  · exact .inl ⟨h, e⟩

/-! ## Every command -/

/-- The three ways any command ends: refused before every write; completed, the port untouched and ERR as it was but
for CLRERR; or a decrypt command refused with PAD after its blocks were decrypted (R137 to R139). -/
theorem exec_cases (i : Instr) (s : State) :
    (∃ c : Code, c.cleanRefusal = true ∧ exec i s = .next (s.errorEntry c)) ∨
    (∃ u v, exec i s = .next (State.respond u .ok v) ∧ SamePort s u ∧ (i ≠ .clrerr → u.err = s.err)) ∨
    (∃ tr m, exec i s = .next (State.errorEntry { s with tr := tr, msg := m } .pad)) := by
  have hready : ∀ (b : Bool) (rest : State → Result),
      (∃ u v, rest s = .next (State.respond u .ok v) ∧ SamePort s u ∧ u.err = s.err) →
      (∃ c : Code, c.cleanRefusal = true ∧ requireReady b s rest = .next (s.errorEntry c)) ∨
      (∃ u v, requireReady b s rest = .next (State.respond u .ok v) ∧ SamePort s u ∧ (i ≠ .clrerr → u.err = s.err)) ∨
      (∃ tr m, requireReady b s rest = .next (State.errorEntry { s with tr := tr, msg := m } .pad)) := by
    rintro b rest ⟨u, v, h1, h2, h3⟩
    rcases requireReady_cases b s rest with ⟨_, e⟩ | ⟨_, e⟩
    · exact .inr (.inl ⟨u, v, e.trans h1, h2, fun _ => h3⟩)
    · exact .inl ⟨.state, rfl, e⟩
  have henc : ∀ (step : BlockStep) (iv : Option Block),
      (∃ c : Code, c.cleanRefusal = true ∧ encryptFrame step iv s = .next (s.errorEntry c)) ∨
      (∃ u v, encryptFrame step iv s = .next (State.respond u .ok v) ∧ SamePort s u ∧ (i ≠ .clrerr → u.err = s.err)) ∨
      (∃ tr m, encryptFrame step iv s = .next (State.errorEntry { s with tr := tr, msg := m } .pad)) := by
    intro step iv
    rcases encryptFrame_cases step iv s with ⟨_, e⟩ | ⟨_, _, e⟩ | ⟨_, _, tr, m, _, e⟩
    · exact .inl ⟨.state, rfl, e⟩
    · exact .inl ⟨.len, rfl, e⟩
    · exact .inr (.inl ⟨_, _, e, samePort_refl _, fun _ => rfl⟩)
  have hdec : ∀ (step : BlockStep) (iv : Option Block),
      (∃ c : Code, c.cleanRefusal = true ∧ decryptFrame step iv s = .next (s.errorEntry c)) ∨
      (∃ u v, decryptFrame step iv s = .next (State.respond u .ok v) ∧ SamePort s u ∧ (i ≠ .clrerr → u.err = s.err)) ∨
      (∃ tr m, decryptFrame step iv s = .next (State.errorEntry { s with tr := tr, msg := m } .pad)) := by
    intro step iv
    rcases decryptFrame_cases step iv s with ⟨_, e⟩ | ⟨_, _, e⟩ | ⟨_, _, _, tr, m, _, ⟨_, e⟩ | ⟨_, e⟩⟩
    · exact .inl ⟨.state, rfl, e⟩
    · exact .inl ⟨.len, rfl, e⟩
    · exact .inr (.inr ⟨tr, m, e⟩)
    · exact .inr (.inl ⟨_, _, e, samePort_refl _, fun _ => rfl⟩)
  cases i with
  | nop => exact .inr (.inl ⟨_, _, rfl, samePort_refl _, fun _ => rfl⟩)
  | rdsr => exact .inr (.inl ⟨_, _, rfl, samePort_refl _, fun _ => rfl⟩)
  | clrerr => exact .inr (.inl ⟨_, _, rfl, samePort_refl _, fun h => absurd rfl h⟩)
  | clr => exact .inr (.inl ⟨_, _, rfl, samePort_refl _, fun _ => rfl⟩)
  | init => rw [exec, execInit]; exact hready _ _ ⟨_, _, rfl, samePort_refl _, rfl⟩
  | ldk k w =>
    rw [exec, execLdk]
    split
    · exact hready _ _ ⟨_, _, rfl, samePort_refl _, rfl⟩
    · exact .inl ⟨.ill, rfl, rfl⟩
  | lds t n v =>
    rw [exec, execLds]
    split
    · exact hready _ _ ⟨_, _, rfl, samePort_refl _, rfl⟩
    · exact .inl ⟨.ill, rfl, rfl⟩
  | wrb addr b =>
    rw [exec, execWrb]
    split
    · exact .inr (.inl ⟨_, _, rfl, samePort_refl _, fun _ => rfl⟩)
    · exact .inl ⟨.addr, rfl, rfl⟩
  | rdb addr =>
    rw [exec, execRdb]
    split
    · exact .inr (.inl ⟨_, _, rfl, samePort_refl _, fun _ => rfl⟩)
    · exact .inl ⟨.addr, rfl, rfl⟩
  | wrq addr q =>
    rw [exec, execWrq]
    split
    · exact .inr (.inl ⟨_, _, rfl, samePort_refl _, fun _ => rfl⟩)
    · exact .inl ⟨.addr, rfl, rfl⟩
  | rdq addr =>
    rw [exec, execRdq]
    split
    · exact .inr (.inl ⟨_, _, rfl, samePort_refl _, fun _ => rfl⟩)
    · exact .inl ⟨.addr, rfl, rfl⟩
  | setlen len =>
    rw [exec, execSetlen]
    split
    · exact .inl ⟨.len, rfl, rfl⟩
    · exact .inr (.inl ⟨_, _, rfl, samePort_refl _, fun _ => rfl⟩)
  | rndf half subkey => rw [exec, execRndf]; exact hready _ _ ⟨_, _, rfl, samePort_refl _, rfl⟩
  | encblk d => rw [exec, execEncblk, transformCommand]; exact hready _ _ ⟨_, _, rfl, samePort_refl _, rfl⟩
  | decblk d => rw [exec, execDecblk, transformCommand]; exact hready _ _ ⟨_, _, rfl, samePort_refl _, rfl⟩
  | encEcb => exact henc _ _
  | decEcb => exact hdec _ _
  | encCbc iv => exact henc _ _
  | decCbc iv => exact hdec _ _
  | encCfb iv => exact henc _ _
  | decCfb iv => exact hdec _ _
  | encOfb iv => exact henc _ _
  | decOfb iv => exact hdec _ _

end Sys2Proof.Machine
end

