-- ==== Sys2Proof/Laws/Step.lean ====
section
/-! SUPPORT. Everything one clock edge of the port can do (spec/30_encoding.md R52, R53, spec/70_reset_and_hazards.md
R144), said once; and running a list of commands one after the other (spec/20_memory.md R47). -/

namespace Sys2Proof.Machine

/-- With no host signal to come nothing happens. -/
theorem step_nil {s : State} (h : s.inputs = []) : step s = .next s := by
  simp [step, portStep, h]

/-- The host holds `rst_n` at 0: reset. -/
theorem step_reset {s : State} {c : PortInput} {rest : List PortInput} (h : s.inputs = c :: rest)
    (hr : c.rstN = false) : step s = .next (State.applyReset { s with inputs := rest }) := by
  simp [step, portStep, h, clockEdge, hr]

/-- A packet presented to an idle CORE is accepted. -/
theorem step_accept {s : State} {c : PortInput} {rest : List PortInput} (h : s.inputs = c :: rest)
    (hr : c.rstN = true) (hv : c.cmdValid = true) (hp : s.phase = .idle) :
    step s = runPacket c.cmd { s with inputs := rest } := by
  simp [step, portStep, h, clockEdge, hr, hv, hp, State.outputs]

/-- Everything one step can do. -/
theorem step_cases (s : State) :
    (s.inputs = [] ∧ step s = .next s) ∨
    ∃ c rest, s.inputs = c :: rest ∧
      ((c.rstN = false ∧ step s = .next (State.applyReset { s with inputs := rest })) ∨
       (c.rstN = true ∧ c.cmdValid = true ∧ s.phase = .idle ∧
          ((∃ e, decode c.cmd = .error e ∧
              step s = .next (State.errorEntry (State.accept { s with inputs := rest } none) .ill)) ∨
           ∃ i, decode c.cmd = .ok i ∧
              step s = exec i (State.accept { s with inputs := rest } (couldWrite s.len i)))) ∨
       (c.rstN = true ∧ (∃ r, s.rsp = some r) ∧ c.rspReady = true ∧ (s.phase = .busy ∨ c.cmdValid = false) ∧
          step s = .next (State.deliver { s with inputs := rest })) ∨
       (c.rstN = true ∧ step s = .next { s with inputs := rest })) := by
  rcases hi : s.inputs with _ | ⟨c, rest⟩
  · exact .inl ⟨rfl, step_nil hi⟩
  refine .inr ⟨c, rest, rfl, ?_⟩
  rcases hr : c.rstN with _ | _
  · exact .inl ⟨rfl, step_reset hi hr⟩
  by_cases ha : c.cmdValid = true ∧ s.phase = .idle
  · refine .inr (.inl ⟨rfl, ha.1, ha.2, ?_⟩)
    rw [step_accept hi hr ha.1 ha.2, runPacket]
    rcases hd : decode c.cmd with e | i
    · exact .inl ⟨e, rfl, rfl⟩
    · exact .inr ⟨i, rfl, rfl⟩
  have hn : ¬(((State.outputs { s with inputs := rest } c.rstN).cmdReady = true) ∧ c.cmdValid = true) := by
    simp only [State.outputs, hr, Bool.true_and, decide_eq_true_eq]
    exact fun h => ha ⟨h.2, h.1⟩
  have hstep : step s = if (State.outputs { s with inputs := rest } c.rstN).rspValid ∧ c.rspReady
      then .next (State.deliver { s with inputs := rest }) else .next { s with inputs := rest } := by
    simp only [step, portStep, hi, clockEdge]
    rw [if_neg (by rw [hr]; decide), if_neg hn]
  by_cases hd : (State.outputs { s with inputs := rest } c.rstN).rspValid ∧ c.rspReady
  · refine .inr (.inr (.inl ⟨rfl, ?_, hd.2, ?_, hstep.trans (if_pos hd)⟩))
    · exact Option.isSome_iff_exists.1 (by simpa [State.outputs, hr] using hd.1)
    · rcases hp : s.phase with _ | _
      · exact .inr (by simpa using fun h => ha ⟨h, hp⟩)
      · exact .inl rfl
  · exact .inr (.inr (.inr ⟨rfl, hstep.trans (if_neg hd)⟩))

/-! ## Several clock edges -/

theorem steps_succ {s t : State} (h : step s = .next t) (n : Nat) : steps (n + 1) s = steps n t := by
  simp only [steps, h]

/-- The host does not take the response that is held: it stays. -/
theorem step_wait {s : State} {c : PortInput} {rest : List PortInput} (h : s.inputs = c :: rest)
    (hr : c.rstN = true) (hd : c.rspReady = false) (hp : s.phase = .busy) :
    step s = .next { s with inputs := rest } := by
  simp [step, portStep, h, clockEdge, hr, hd, hp, State.outputs]

/-- Any number of edges at which the host does not take the response only uses up the host's signals. -/
theorem steps_waits {s : State} {waits rest : List PortInput} (h : s.inputs = waits ++ rest)
    (hw : ∀ w ∈ waits, w.rstN = true ∧ w.rspReady = false) (hp : s.phase = .busy) (n : Nat) :
    steps (waits.length + n) s = steps n { s with inputs := rest } := by
  induction waits generalizing s with
  | nil =>
    have e : s.inputs = rest := h
    subst e
    rw [List.length_nil, Nat.zero_add]
  | cons w ws ih =>
    rw [List.length_cons, Nat.succ_add_eq_add_succ, Nat.add_succ,
      steps_succ (step_wait h (hw w (by simp)).1 (hw w (by simp)).2 hp)]
    exact ih rfl (fun v hv => hw v (by simp [hv])) hp

/-! ## Lists of commands (R47) -/

theorem execAll_cons {i : Instr} {s t : State} (h : exec i s = .next t) (rest : List Instr) :
    execAll (i :: rest) s = execAll rest t := by
  simp only [execAll, h]

theorem execAll_single {i : Instr} {s t : State} (h : exec i s = .next t) : execAll [i] s = .next t :=
  execAll_cons h []

theorem execAll_append {l : List Instr} {s t : State} (h : execAll l s = .next t) (l' : List Instr) :
    execAll (l ++ l') s = execAll l' t := by
  induction l generalizing s with
  | nil => cases h; rfl
  | cons i l ih =>
    rw [execAll] at h
    split at h
    · rename_i u e
      rw [List.cons_append, execAll_cons e]
      exact ih h
    · cases h
    · cases h

end Sys2Proof.Machine
end

