-- ==== Sys2Proof/Tests/Slice0.lean ====
section
/-! SUPPORT. Tests against the worked examples of spec/95_test_vectors.md (the part is named at each group), the
smoke tests of the well-formedness checks, and for every obligation with hypotheses a witness that meets them. -/

namespace Sys2Proof.Tests

open Sys2Proof.Machine

/-! ## The instances and the helpers (95_test_vectors.md part 0) -/

/-- Table set A. -/
def tablesA : SboxFile := #v[
  #v[0x1, 0x6, 0xB, 0x0, 0x5, 0xA, 0xF, 0x4, 0x9, 0xE, 0x3, 0x8, 0xD, 0x2, 0x7, 0xC],
  #v[0x4, 0x9, 0xE, 0x3, 0x8, 0xD, 0x2, 0x7, 0xC, 0x1, 0x6, 0xB, 0x0, 0x5, 0xA, 0xF],
  #v[0x7, 0xC, 0x1, 0x6, 0xB, 0x0, 0x5, 0xA, 0xF, 0x4, 0x9, 0xE, 0x3, 0x8, 0xD, 0x2],
  #v[0xA, 0xF, 0x4, 0x9, 0xE, 0x3, 0x8, 0xD, 0x2, 0x7, 0xC, 0x1, 0x6, 0xB, 0x0, 0x5],
  #v[0xD, 0x2, 0x7, 0xC, 0x1, 0x6, 0xB, 0x0, 0x5, 0xA, 0xF, 0x4, 0x9, 0xE, 0x3, 0x8],
  #v[0x0, 0x5, 0xA, 0xF, 0x4, 0x9, 0xE, 0x3, 0x8, 0xD, 0x2, 0x7, 0xC, 0x1, 0x6, 0xB],
  #v[0x3, 0x8, 0xD, 0x2, 0x7, 0xC, 0x1, 0x6, 0xB, 0x0, 0x5, 0xA, 0xF, 0x4, 0x9, 0xE],
  #v[0x6, 0xB, 0x0, 0x5, 0xA, 0xF, 0x4, 0x9, 0xE, 0x3, 0x8, 0xD, 0x2, 0x7, 0xC, 0x1]]

/-- Table set I. -/
def tablesI : SboxFile := Vector.replicate 8 #v[0, 1, 2, 3, 4, 5, 6, 7, 8, 9, 10, 11, 12, 13, 14, 15]

/-- Table set Z. -/
def tablesZ : SboxFile := Vector.replicate 8 (Vector.replicate 16 0)

/-- Key K1. -/
def key1 : KeyFile :=
  #v[0x11111111, 0x22222222, 0x33333333, 0x44444444, 0x55555555, 0x66666666, 0x77777777, 0x88888888]

/-- Key K0. -/
def key0 : KeyFile := Vector.replicate 8 0

/-- IV1. -/
def iv1 : Block := 0x0101010101010101

/-- Reset state with `bytes` as the message. -/
def fresh (bytes : List Byte) : State :=
  { State.reset with msg := Memory.writeBytes [] 0 bytes, len := BitVec.ofNat 16 bytes.length }

/-- Ready state under A/K1 with `bytes` as the message. -/
def ready (bytes : List Byte) : State :=
  { fresh bytes with key := key1, rk := key1, sbox := tablesA, ready := true }

/-- Ready state under Z/K0, where both transforms swap the halves, with `bytes` as the message. -/
def swapping (bytes : List Byte) : State := { fresh bytes with ready := true }

/-- M3. -/
def m3 : List Byte := [0x41, 0x42, 0x43]

/-- The response of a result. -/
def response (r : Result) : Option (Code × Block) :=
  match r with
  | .next t => t.rsp.map fun x => (x.code, x.rdat)
  | .fault _ => none
  | .refused _ => none

/-- Something of the next state. -/
def after {α : Type} (r : Result) (g : State → α) : Option α :=
  match r with
  | .next t => some (g t)
  | .fault _ => none
  | .refused _ => none

/-- The message after a result. -/
def message (r : Result) : Option (List Byte) := after r State.message

/-- The host's signals while it presents a packet. -/
def presents (cw : Packet) : PortInput := .present cw

/-- The host's signals while it takes a response. -/
def takes : PortInput := { rstN := true, cmdValid := false, cmd := 0, rspReady := true }

/-- The host's signals while it does nothing. -/
def waits : PortInput := { rstN := true, cmdValid := false, cmd := 0, rspReady := false }

/-- The host's signals in reset. -/
def resets : PortInput := { rstN := false, cmdValid := false, cmd := 0, rspReady := false }

/-! ## Every constructor's packet, from the formats of spec/30_encoding.md and the packets of 95_test_vectors.md -/

theorem test_decode_nop : decode 0x000000000000000000000000 = .ok .nop := by decide
theorem test_decode_rdsr : decode 0x010000000000000000000000 = .ok .rdsr := by decide
theorem test_decode_clrerr : decode 0x020000000000000000000000 = .ok .clrerr := by decide
theorem test_decode_clr : decode 0x030000000000000000000000 = .ok .clr := by decide
theorem test_decode_init : decode 0x040000000000000000000000 = .ok .init := by decide
theorem test_decode_ldk : decode 0x100000070000000080000000 = .ok (.ldk 7 0x80000000) := by decide
theorem test_decode_lds : decode 0x1100002F000000000000000A = .ok (.lds 2 15 10) := by decide
theorem test_decode_wrb : decode 0x2000003F00000000000000FF = .ok (.wrb 63 0xFF) := by decide
theorem test_decode_rdb : decode 0x2100FFFF0000000000000000 = .ok (.rdb 65535) := by decide
theorem test_decode_wrq : decode 0x220000081122334455667788 = .ok (.wrq 8 0x1122334455667788) := by decide
theorem test_decode_rdq : decode 0x230000080000000000000000 = .ok (.rdq 8) := by decide
theorem test_decode_setlen : decode 0x240000110000000000000000 = .ok (.setlen 17) := by decide
theorem test_decode_rndf : decode 0x30000000123456789ABCDEF0 = .ok (.rndf 0x12345678 0x9ABCDEF0) := by decide
theorem test_decode_encblk : decode 0x310000000123456789ABCDEF = .ok (.encblk 0x0123456789ABCDEF) := by decide
theorem test_decode_decblk : decode 0x32000000BE5D01BC89774BA2 = .ok (.decblk 0xBE5D01BC89774BA2) := by decide
theorem test_decode_encEcb : decode 0x400000000000000000000000 = .ok .encEcb := by decide
theorem test_decode_decEcb : decode 0x410000000000000000000000 = .ok .decEcb := by decide
theorem test_decode_encCbc : decode 0x420000000101010101010101 = .ok (.encCbc 0x0101010101010101) := by decide
theorem test_decode_decCbc : decode 0x430000000101010101010101 = .ok (.decCbc 0x0101010101010101) := by decide
theorem test_decode_encCfb : decode 0x440000000101010101010101 = .ok (.encCfb 0x0101010101010101) := by decide
theorem test_decode_decCfb : decode 0x450000000101010101010101 = .ok (.decCfb 0x0101010101010101) := by decide
theorem test_decode_encOfb : decode 0x460000000101010101010101 = .ok (.encOfb 0x0101010101010101) := by decide
theorem test_decode_decOfb : decode 0x470000000101010101010101 = .ok (.decOfb 0x0101010101010101) := by decide

/-- The encoder's packet of every format, from the packets of 95_test_vectors.md. -/
theorem test_encode_formats :
    encode .init = 0x040000000000000000000000 ∧ encode (.ldk 7 0x80000000) = 0x100000070000000080000000 ∧
    encode (.lds 2 15 10) = 0x1100002F000000000000000A ∧ encode (.wrb 63 0xFF) = 0x2000003F00000000000000FF ∧
    encode (.rdb 65535) = 0x2100FFFF0000000000000000 ∧
    encode (.wrq 8 0x1122334455667788) = 0x220000081122334455667788 ∧
    encode (.setlen 17) = 0x240000110000000000000000 ∧
    encode (.rndf 0x12345678 0x9ABCDEF0) = 0x30000000123456789ABCDEF0 := by decide

/-- 95_test_vectors.md part 2.8. -/
theorem test_illegal_opcodes :
    decode 0x050000000000000000000000 = .error .opcode ∧ decode 0x0F0000000000000000000000 = .error .opcode ∧
    decode 0x120000000000000000000000 = .error .opcode ∧ decode 0x250000000000000000000000 = .error .opcode ∧
    decode 0x330000000000000000000000 = .error .opcode ∧ decode 0x480000000000000000000000 = .error .opcode ∧
    (decode 0xFFFFFFFFFFFFFFFFFFFFFFFF).toOption = none := by decide

/-- 95_test_vectors.md part 2.8. -/
theorem test_illegal_bits :
    decode 0x000100000000000000000000 = .error .reserved ∧ decode 0x460100000101010101010101 = .error .reserved ∧
    decode 0x000000000000000000000001 = .error .mustBeZero ∧ decode 0x010000010000000000000000 = .error .mustBeZero ∧
    decode 0x100000080000000000000005 = .error .mustBeZero ∧ decode 0x100000000000000100000000 = .error .mustBeZero ∧
    decode 0x110000800000000000000000 = .error .mustBeZero ∧ decode 0x110000000000000000000010 = .error .mustBeZero ∧
    decode 0x200000000000000000000100 = .error .mustBeZero ∧ decode 0x230000000000000000000001 = .error .mustBeZero ∧
    decode 0x240000088000000000000000 = .error .mustBeZero ∧ decode 0x310000010000000000000000 = .error .mustBeZero ∧
    decode 0x410000000101010101010101 = .error .mustBeZero := by decide

/-! ## The well-formedness checks refuse ill-formed terms -/

theorem test_wellFormed_ldk : (Instr.ldk 8 0).wellFormed = false ∧ (Instr.ldk 7 0).wellFormed = true := by decide

theorem test_wellFormed_lds :
    (Instr.lds 8 0 0).wellFormed = false ∧ (Instr.lds 0 16 0).wellFormed = false ∧
      (Instr.lds 7 15 0).wellFormed = true := by decide

/-! ## System and construction commands (95_test_vectors.md parts 2.1 and 2.7) -/

theorem test_nop : response (exec .nop (ready m3)) = some (.ok, 0) := by decide

theorem test_rdsr_len : response (exec .rdsr { ready [] with len := 24 }) = some (.ok, 0x0000000000180001) := by decide

theorem test_rdsr_flags :
    response (exec .rdsr { ready [] with len := 64, err := 0b11111 }) = some (.ok, 0x0000000000401F01) := by decide

theorem test_clrerr : after (exec .clrerr { ready [] with err := 0b11111 }) State.err = some 0 := by decide

theorem test_clr_erases :
    after (exec .clr { ready [] with err := 0b00010 }) (fun t => (t.key, t.rk, t.sbox, t.ready, t.err)) =
      some (key0, key0, tablesZ, false, 0b00010) := by decide

theorem test_init_derives :
    after (exec .init { fresh [] with key := key1 }) (fun t => (t.rk, t.ready)) = some (key1, true) := by decide

theorem test_init_refused : response (exec .init (ready [])) = some (.state, 0) := by decide

theorem test_ldk :
    after (exec (.ldk 7 0x80000000) State.reset) (fun t => (t.key.get 7, t.key.get 6, t.rk.get 7)) =
      some (0x80000000, 0, 0) := by decide

theorem test_ldk_refused :
    after (exec (.ldk 0 1) (ready [])) (fun t => (t.rsp, t.key, t.err)) =
      some (some ⟨.state, 0⟩, key1, 0b00010) := by decide

theorem test_lds :
    after (exec (.lds 2 15 10) State.reset)
      (fun t => ((t.sbox.get 2).get 15, (t.sbox.get 2).get 14, (t.sbox.get 3).get 15)) = some (0xA, 0, 0) := by decide

theorem test_lds_refused : response (exec (.lds 0 0 1) (ready [])) = some (.state, 0) := by decide

/-! ## Buffer access (95_test_vectors.md part 2.6) -/

theorem test_wrb_last_byte :
    after (exec (.wrb 63 0xFF) State.reset) (fun t => t.msg.readByte 63) = some 0xFF ∧
      response (exec (.wrb 64 0) State.reset) = some (.addr, 0) := by decide

theorem test_wrb_within_block :
    after (exec (.wrb 9 0) { State.reset with msg := Memory.writeBlock [] 8 0x1122334455667788 })
      (fun t => t.msg.readBlock 8) = some 0x1122334455660088 := by decide

theorem test_rdb :
    response (exec (.rdb 8) { State.reset with msg := Memory.writeBlock [] 8 0x1122334455667788 }) =
      some (.ok, 0x88) ∧ response (exec (.rdb 65535) State.reset) = some (.addr, 0) := by decide

theorem test_wrq_byte_order :
    after (exec (.wrq 8 0x1122334455667788) State.reset) (fun t => t.msg.readBytes 8 8) =
      some [0x88, 0x77, 0x66, 0x55, 0x44, 0x33, 0x22, 0x11] := by decide

theorem test_wrq_edges :
    response (exec (.wrq 12 0) State.reset) = some (.addr, 0) ∧ response (exec (.wrq 56 1) State.reset) = some (.ok, 0) ∧
      response (exec (.wrq 64 0) State.reset) = some (.addr, 0) := by decide

theorem test_rdq :
    response (exec (.rdq 8)
      { State.reset with msg := Memory.writeBytes [] 8 [0x88, 0x77, 0x66, 0x55, 0x44, 0x33, 0x22, 0x11] }) =
      some (.ok, 0x1122334455667788) := by decide

theorem test_rdq_edges :
    response (exec (.rdq 1) State.reset) = some (.addr, 0) ∧
      response (exec (.rdq 64) State.reset) = some (.addr, 0) := by decide

theorem test_setlen :
    after (exec (.setlen 64) State.reset) State.len = some 64 ∧
      after (exec (.setlen 65) State.reset) (fun t => (t.rsp, t.len, t.err)) =
        some (some ⟨.len, 0⟩, 0, 0b01000) := by decide

/-! ## The round function and the block transform (95_test_vectors.md parts 2.2 and 2.3) -/

theorem test_rndf : response (exec (.rndf 0x12345678 0x9ABCDEF0) (ready [])) = some (.ok, 0x94814C7D) := by decide

theorem test_rndf_rotates_round :
    response (exec (.rndf 0x00200000 0) { ready [] with sbox := tablesI }) = some (.ok, 1) ∧
      response (exec (.rndf 1 0xFFFFFFFF) { ready [] with sbox := tablesI }) = some (.ok, 0) := by decide

theorem test_encblk :
    response (exec (.encblk 0x0123456789ABCDEF) (ready [])) = some (.ok, 0xBE5D01BC89774BA2) := by decide +kernel

theorem test_decblk :
    response (exec (.decblk 0x0123456789ABCDEF) (ready [])) = some (.ok, 0xD82EED43A8566749) := by decide +kernel

/-! ## Padding and the modes (95_test_vectors.md parts 2.4 and 2.5) -/

theorem test_pad_m3 : pad m3 = [0x41, 0x42, 0x43, 5, 5, 5, 5, 5] := by decide

theorem test_unpad :
    unpad [0x41, 0x42, 0x43, 0xAA, 0xBB, 0xCC, 0xDD, 0x05] = some m3 ∧ unpad [8, 8, 8, 8, 8, 8, 8, 8] = some [] ∧
      unpad [0x41, 0x41, 0x41, 0x41, 0x41, 0x41, 0x41, 0x09] = none ∧
      unpad [0x41, 0x41, 0x41, 0x41, 0x41, 0x41, 0x41, 0x00] = none := by decide

theorem test_encEcb :
    message (exec .encEcb (ready m3)) = some [0xBF, 0x62, 0xD1, 0x32, 0x5C, 0xAC, 0x5A, 0x6F] := by decide +kernel

theorem test_decEcb :
    message (exec .decEcb (ready [0xBF, 0x62, 0xD1, 0x32, 0x5C, 0xAC, 0x5A, 0x6F])) = some m3 := by decide +kernel

/-- 95_test_vectors.md, program P3: a pad error leaves the decrypted block and LEN, and sets E_PAD. -/
theorem test_decEcb_pad :
    after (exec .decEcb (swapping [0, 0, 0, 9, 0, 0, 0, 0])) (fun t => (t.rsp, t.msg.readBlock 0, t.len, t.err)) =
      some (some ⟨.pad, 0⟩, 0x0900000000000000, 8, 0b10000) := by decide +kernel

/-- S3: the 17-byte message. -/
theorem test_encCbc :
    message (exec (.encCbc iv1) (ready [0x41, 0x42, 0x43, 0x44, 0x45, 0x46, 0x47, 0x48, 0x49, 0x4A, 0x4B, 0x4C, 0x4D,
      0x4E, 0x4F, 0x50, 0x51])) =
      some [0x33, 0x70, 0x71, 0x84, 0x18, 0x2E, 0xC0, 0xE9, 0x60, 0xBE, 0xA3, 0xF6, 0x71, 0xDC, 0x38, 0xBD, 0x4B, 0x4D,
        0x55, 0xC6, 0x39, 0xEE, 0xA9, 0x8A] := by decide +kernel

/-- The first two blocks of S3's ciphertext, so that FB is carried over once. -/
theorem test_decCbc :
    after (exec (.decCbc iv1) (ready [0x33, 0x70, 0x71, 0x84, 0x18, 0x2E, 0xC0, 0xE9, 0x60, 0xBE, 0xA3, 0xF6, 0x71, 0xDC,
      0x38, 0xBD])) (fun t => (t.msg.readBlock 0, t.msg.readBlock 8)) =
      some (0x4847464544434241, 0x504F4E4D4C4B4A49) := by decide +kernel

theorem test_encCfb :
    message (exec (.encCfb iv1) (ready [0x41, 0x42, 0x43, 0x44, 0x45, 0x46, 0x47, 0x48, 0x49, 0x4A, 0x4B, 0x4C, 0x4D,
      0x4E, 0x4F, 0x50, 0x51])) =
      some [0x79, 0x93, 0x79, 0xD8, 0x8E, 0x26, 0xE4, 0x64, 0x02, 0xD8, 0x01, 0xF4, 0x0C, 0xE8, 0x7D, 0x6D, 0x01, 0xA4,
        0x2D, 0x0C, 0x76, 0x25, 0x56, 0xB0] := by decide +kernel

theorem test_decCfb :
    after (exec (.decCfb iv1) (ready [0x79, 0x93, 0x79, 0xD8, 0x8E, 0x26, 0xE4, 0x64, 0x02, 0xD8, 0x01, 0xF4, 0x0C, 0xE8,
      0x7D, 0x6D])) (fun t => (t.msg.readBlock 0, t.msg.readBlock 8)) =
      some (0x4847464544434241, 0x504F4E4D4C4B4A49) := by decide +kernel

theorem test_encOfb :
    message (exec (.encOfb iv1) (ready [0x79, 0x93, 0x79, 0x99, 0xCE, 0x65, 0xA6, 0x29])) =
      some [0x41, 0x42, 0x43, 5, 5, 5, 5, 5, 0x26, 0x1E, 0xD8, 0x90, 0x7F, 0xD4, 0xE4, 0x4C] := by decide +kernel

theorem test_decOfb :
    message (exec (.decOfb iv1) (ready [0x79, 0x93, 0x79, 0x99, 0xCE, 0x65, 0xA6, 0x29])) = some m3 := by decide +kernel

/-! ## Check order (95_test_vectors.md part 2.9) and the port -/

theorem test_check_order :
    after (step { fresh m3 with inputs := [presents 0x400000000000000000000001] }) (fun t => (t.rsp, t.err)) =
      some (some ⟨.ill, 0⟩, 0b00001) ∧
    after (step { fresh m3 with inputs := [presents 0x430000000101010101010101] }) State.rsp =
      some (some ⟨.state, 0⟩) ∧
    after (step { ready (List.replicate 12 0) with inputs := [presents 0x410000000000000000000000] }) State.rsp =
      some (some ⟨.len, 0⟩) := by decide

/-- A packet is accepted, its response held for a host that waits, then delivered. -/
theorem test_port :
    after (core.run 2 { ready m3 with inputs := [presents 0x010000000000000000000000, waits] })
      (fun t => (t.phase, (t.outputs true).cmdReady, t.delivered)) = some (.busy, false, []) ∧
    after (core.run 3 { ready m3 with inputs := [presents 0x010000000000000000000000, waits, takes] })
      (fun t => (t.phase, (t.outputs true).cmdReady, t.delivered)) =
      some (.idle, true, [⟨.ok, 0x0000000000030001⟩]) := by decide

/-- R52, R54: what CORE drives with a response held, and in reset. -/
theorem test_outputs :
    (State.respond (ready []) .addr 0).outputs false = ⟨false, false, none⟩ ∧
    (State.accept (State.respond (ready []) .addr 0) none).outputs true =
      ⟨false, true, some 0x030000000000000000⟩ := by decide

/-- R144, R145: a reset in IDLE clears the registers and keeps MSG. -/
theorem test_reset_edge :
    after (step { ready m3 with inputs := [resets] }) (fun t => (t.key, t.ready, t.len, t.msg.readBytes 0 3)) =
      some (key0, false, 0, m3) := by decide

/-- R145 with R46, R107, R108: what a mode command could have written when reset aborts it. -/
theorem test_couldWrite :
    couldWrite 3 (.encCbc iv1) = some (0, 8) ∧ couldWrite 8 .encEcb = some (0, 16) ∧
      couldWrite 16 (.decOfb iv1) = some (0, 16) ∧ couldWrite 3 (.rdb 0) = none := by decide

/-- R145: reset while the response of an illegal packet is held, after two edges: no response, MSG as it was. -/
theorem test_reset_in_command :
    after (steps 4 { ready m3 with
      inputs := [presents 0x050000000000000000000000, waits, presents 0, resets] })
      (fun t => (t.rsp, t.delivered, t.err, t.phase, t.msg.readBytes 0 3)) =
      some (none, [], 0, .idle, m3) := by decide

/-- The host's probe: the first step after reset runs the packet. -/
theorem test_withFetchWord :
    decodeTableWord 96 0x240000110000000000000000 = some (.setlen 17) ∧
      after (step (State.reset.withFetchWord 96 0x240000110000000000000000)) State.len = some 17 := by decide

/-! ## Command lists (spec/30_encoding.md R62, R63; the lines are those of 95_test_vectors.md part 3) -/

theorem test_asm_line :
    Asm.line "WRQ 0, 0x29A665CE99799379" = some (.wrq 0 0x29A665CE99799379) ∧ Asm.line "SETLEN 12" = some (.setlen 12) ∧
      Asm.line "ENC_ECB ; a comment" = some .encEcb := by decide

/-- R123: an operand that does not fit its field "is not expressible in the assembler". -/
theorem test_asm_not_expressible :
    Asm.line "WRB 0, 0x100" = none ∧ Asm.line "LDK 8, 0" = none ∧ Asm.line "NOP 3" = none := by decide

theorem test_lines :
    (Instr.lds 7 15 0).line = "LDS 7, 15, 0" ∧ (Response.mk .addr 0).line = "-> ADDR, 0" := by decide

theorem test_command_of_operands (i : Instr) (h : i.WellFormed) : Asm.command i.row.mnemonic i.operands = some i := by
  cases i <;> simp [Asm.command, Instr.row, Instr.operands, Instr.WellFormed, Instr.wellFormed] at * <;> omega

/-- 95_test_vectors.md part 0: the `LDSROW` value of table 0 of set A; part 2.1: the key slicing. -/
theorem test_pseudo :
    (Pseudo.ldsrow 0 0xC72D83E94FA50B61)[2]? = some (.lds 0 2 0xB) ∧
    (Pseudo.ldkey 0x8888888877777777666666665555555544444444333333332222222211111111)[7]? =
      some (.ldk 7 0x88888888) ∧
    Pseudo.rdmsg 2 = [.rdb 0, .rdb 1] := by decide

/-- P2's 137 construction commands, and the CLR in front of them. -/
theorem test_construct_length : (Pseudo.construct 0 (Vector.replicate 8 0)).length = 138 := by
  simp [Pseudo.construct, Pseudo.ldkey, Pseudo.ldsall, Pseudo.ldsrow]

/-! ## Witnesses: every obligation's hypotheses are met, each clause at a boundary of its range -/

theorem bufferInv_fresh : BufferInv (fresh m3) := ⟨by decide, by decide, by decide, by decide⟩

theorem bufferInv_ready : BufferInv (ready m3) := ⟨by decide, by decide, by decide, by decide⟩

theorem inv_ready : Inv (ready m3) :=
  ⟨bufferInv_ready, by decide, by decide, by decide, fun _ h => by cases h⟩

theorem witness_PacketRoundTrip :
    (Instr.ldk 7 0xFFFFFFFF).WellFormed ∧ (Instr.lds 7 15 15).WellFormed ∧
      decode 0x1100007F000000000000000F = .ok (.lds 7 15 15) := by decide

theorem witness_DecoderFollowsOpcodeMap :
    decode 0x470000000101010101010101 = .ok (.decOfb iv1) ∧
    (∃ r ∈ opcodeTable, (0x470000000101010101010101 : Packet) &&& r.mask = r.pattern) ∧
    ∀ r ∈ opcodeTable, (0x480000000000000000000000 : Packet) &&& r.mask ≠ r.pattern := by decide

theorem witness_IllegalPacketsRefused :
    (presents 0x100000080000000000000005).rstN = true ∧ (presents 0x100000080000000000000005).cmdValid = true ∧
      (ready []).phase = .idle ∧ decode (presents 0x100000080000000000000005).cmd = .error .mustBeZero := by decide

theorem witness_StepRunsDecodedCommand :
    (presents 0x040000000000000000000000).rstN = true ∧ (presents 0x040000000000000000000000).cmdValid = true ∧
      State.reset.phase = .idle ∧ State.reset.rsp = none ∧
      decode (presents 0x040000000000000000000000).cmd = .ok .init ∧
      decodeTableWord 96 0x040000000000000000000000 = some .init := by decide

/-- The three situations of the handshake: a response held, no packet presented, no signal to come; and both values of
`rst_n` with a response on the port. -/
theorem witness_PortHandshake :
    (let s := State.accept (State.respond (ready m3) .ok 5) none
     s.phase = .busy ∧ s.rsp = some ⟨.ok, 5⟩) ∧
    takes.rstN = true ∧ takes.rspReady = true ∧ waits.rspReady = false ∧
    waits.cmdValid = false ∧ (ready m3).phase = .idle ∧ (ready m3).rsp = none ∧ (ready m3).inputs = [] := by decide

theorem witness_EveryCommandResponds :
    ∃ t r, exec (.wrb 64 0) (ready m3) = .next t ∧ t.rsp = some r ∧ r.code ≠ .ok := ⟨_, _, rfl, rfl, by decide⟩

theorem witness_ResetClearsRegisters :
    ∃ c rest, ({ ready m3 with inputs := [resets] } : State).inputs = c :: rest ∧ c.rstN = false := ⟨_, _, rfl, rfl⟩

/-- The host presents `cw`, lets two edges pass without taking the response, presents another packet meanwhile, and
resets. -/
def aborting (cw : Packet) : State :=
  { ready m3 with inputs := presents cw :: ([waits, presents 0] ++ resets :: [takes]) }

theorem witness_ResetKeepsOtherBytes :
    (∃ t, (ready m3).phase = .idle ∧ (ready m3).msg.wf ∧ step { ready m3 with inputs := [resets] } = .next t) ∧
    (∀ cw, BufferInv (aborting cw) ∧ (aborting cw).phase = .idle ∧ (presents cw).rstN = true ∧
      (presents cw).cmdValid = true) ∧
    (∀ w ∈ [waits, presents 0], w.rstN = true ∧ w.rspReady = false) ∧ resets.rstN = false ∧
    decode 0x2000003F00000000000000FF = .ok (.wrb 63 0xFF) ∧ decode 0x050000000000000000000000 = .error .opcode :=
  ⟨⟨_, by decide, by decide, rfl⟩,
    fun _ => ⟨⟨bufferInv_ready.1, bufferInv_ready.2, bufferInv_ready.3, bufferInv_ready.4⟩, rfl, rfl, rfl⟩, by decide, rfl, by decide, by decide⟩

theorem witness_InvariantAtPowerUp :
    Config.legal ⟨16⟩ ∧ Config.legal ⟨65528⟩ ∧ Memory.wf [(15, 7)] ∧
      ∀ c ∈ ([(15, 7)] : Memory), c.1 < (Config.mk 16).msgBytes := by decide

theorem witness_StepKeepsInvariant : ∃ s t, Inv s ∧ step s = .next t ∧ s ≠ t :=
  ⟨{ ready m3 with inputs := [presents 0x030000000000000000000000] }, _,
    ⟨⟨by decide, by decide, by decide, by decide⟩, by decide, by decide, by decide, fun _ h => by cases h⟩, rfl,
    by decide⟩

theorem witness_InstanceFrozenWhileReady :
    ∃ s t, s.ready = true ∧ step s = .next t ∧ t.ready = false :=
  ⟨{ ready m3 with inputs := [presents 0x030000000000000000000000] }, _, rfl, rfl, rfl⟩

theorem witness_OnlyInitSetsReady : ∃ s t, s.ready = false ∧ step s = .next t ∧ t.ready = true :=
  ⟨{ fresh m3 with inputs := [presents 0x040000000000000000000000] }, _, rfl, rfl, rfl⟩

theorem witness_OnlyClrerrAndResetClearFlags :
    ∃ s t, step s = .next t ∧ s.err.getLsbD 4 = true ∧ t.err.getLsbD 4 = false :=
  ⟨{ fresh m3 with err := 0b10000, inputs := [presents 0x020000000000000000000000] }, _, rfl, by decide, by decide⟩

theorem witness_TransientsUnobservable : ∃ t, exec (.encblk 0) (ready m3) = .next t := ⟨_, rfl⟩

theorem witness_TransientFrame :
    (∃ t r, exec (.setlen 64) (ready m3) = .next t ∧ t.rsp = some r ∧ usesTransients (.setlen 64) = false) ∧
    ∃ t r, exec .encEcb (fresh m3) = .next t ∧ t.rsp = some r ∧ r.code.cleanRefusal = true :=
  ⟨⟨_, _, rfl, rfl, rfl⟩, _, _, rfl, rfl, rfl⟩

theorem witness_FlagsDoNotSteer : ∃ t, exec (.setlen 64) (ready m3) = .next t ∧ Instr.setlen 64 ≠ .rdsr :=
  ⟨_, rfl, by decide⟩

theorem witness_KeyNeverReturned : ∃ t, exec .init (fresh m3) = .next t := ⟨_, rfl⟩

theorem witness_UnencodableIndexRefused : 8 ≤ (8 : Nat) ∧ (8 ≤ (8 : Nat) ∨ 16 ≤ (0 : Nat)) ∧
    (8 ≤ (0 : Nat) ∨ 16 ≤ (16 : Nat)) ∧ response (exec (.ldk 8 0) (fresh [])) = some (.ill, 0) ∧
    response (exec (.lds 8 0 0) (fresh [])) = some (.ill, 0) ∧
    response (exec (.lds 0 16 0) (fresh [])) = some (.ill, 0) := by decide

/-- Both clauses of the loads and of INIT, at the last index. -/
theorem witness_loads : (7 : Nat) < 8 ∧ (15 : Nat) < 16 ∧ (fresh m3).ready = false ∧ (ready m3).ready = true ∧
    response (exec (.ldk 7 1) (fresh m3)) = some (.ok, 0) ∧ response (exec (.ldk 7 1) (ready m3)) = some (.state, 0) ∧
    response (exec (.lds 7 15 1) (fresh m3)) = some (.ok, 0) ∧
    response (exec (.lds 7 15 1) (ready m3)) = some (.state, 0) ∧
    response (exec .init (fresh m3)) = some (.ok, 0) ∧ response (exec .init (ready m3)) = some (.state, 0) := by decide

/-- The mirror at its two ends (95_test_vectors.md part 2.1). -/
theorem witness_SubkeyOrders : (0 : Nat) < 32 ∧ (31 : Nat) < 32 ∧ kidx .decrypt 0 = 0 ∧ kidx .encrypt 31 = 0 ∧
    kidx .decrypt 8 = 7 ∧ kidx .encrypt 24 = 7 := by decide

/-- Bit 21 of the substituted sum is bit 1 of nibble 5, and bit 0 of the result. -/
theorem witness_RoundFunctionBits : (1 : Nat) < 4 ∧ (4 * 5 + 1 + 11) % 32 = 0 ∧ (3 : Nat) < 4 ∧
    (4 * 7 + 3 + 11) % 32 = 10 := by decide

theorem witness_SpecialTables :
    (∀ (j : Fin 8) (n : Fin 16), ((tablesI.get j).get n).toNat = n.val) ∧
    (∀ (j : Fin 8) (n : Fin 16), (tablesZ.get j).get n = 0) := by decide

theorem witness_DegenerateContents :
    (∀ (j : Fin 8) (n : Fin 16), (tablesZ.get j).get n = 0) ∧ (∀ j, key0.get j = key0.get 0) ∧
    (∀ j, key0.get j = 0) ∧ (∀ (j : Fin 8) (n : Fin 16), ((tablesI.get j).get n).toNat = n.val) := by decide

theorem witness_DatapathComputesTransform : (0 : Nat) ≤ 32 ∧ (32 : Nat) ≤ 32 := by decide

theorem witness_primitives : (ready m3).ready = true ∧ (fresh m3).ready = false ∧
    response (exec (.rndf 0 0) (fresh m3)) = some (.state, 0) ∧
    response (exec (.encblk 0) (fresh m3)) = some (.state, 0) ∧
    response (exec (.decblk 0) (fresh m3)) = some (.state, 0) := by decide

/-- Pad bytes at both ends of each range: 0, 1, 8, 9, and a message shorter than its pad byte says. -/
theorem witness_UnpadReadsLastByteOnly :
    unpad ([2, 2] ++ [0]) = none ∧ unpad ([2, 2] ++ [9]) = none ∧ unpad ([2, 2] ++ [4]) = none ∧
    unpad ([2, 2] ++ [3]) = some [] ∧ unpad ([2, 2] ++ [1]) = some [2, 2] ∧
    unpad ([1, 2, 3, 4, 5, 6, 7] ++ [8]) = some [] := by decide

theorem witness_JoinInvertsSplit :
    (pad m3).length % 8 = 0 ∧ (7 : Nat) < 8 ∧ split (pad m3) = [0x0505050505434241] ∧
      (join [0x0505050505434241])[8 * 0 + 7]? = some 5 := by decide

theorem witness_BlocksAreLittleEndian :
    (fresh m3).msg.wf ∧ ((fresh m3).msg.writeBlock 8 0x1122334455667788).readByte 8 = 0x88 ∧
    ((fresh m3).msg.writeBlock 8 0x1122334455667788).readByte 15 = 0x11 ∧
    ((fresh m3).msg.writeBlock 8 0x1122334455667788).readByte 2 = 0x43 := by decide

/-- The last valid and the first invalid address of each access, and a misaligned one. -/
theorem witness_buffer_accesses :
    (ready m3).msg.wf ∧ (63 : Addr).toNat < (ready m3).cfg.msgBytes ∧ (ready m3).cfg.msgBytes ≤ (64 : Addr).toNat ∧
    (56 : Addr).toNat % 8 = 0 ∧ (56 : Addr).toNat + 8 ≤ (ready m3).cfg.msgBytes ∧ (57 : Addr).toNat % 8 ≠ 0 ∧
    (ready m3).cfg.msgBytes < (64 : Addr).toNat + 8 ∧ (64 : Addr).toNat ≤ (ready m3).cfg.msgBytes ∧
    (ready m3).cfg.msgBytes < (65 : Addr).toNat := by decide

theorem witness_MixedWidthsAgree :
    (ready m3).msg.wf ∧ (56 : Addr).toNat % 8 = 0 ∧ (56 : Addr).toNat + 8 ≤ (ready m3).cfg.msgBytes ∧
      (56 + BitVec.ofNat 16 7 : Addr) = 63 := by decide

theorem witness_BufferAccessLaws :
    (fresh m3).cfg = (ready m3).cfg ∧ (fresh m3).msg = (ready m3).msg ∧
      response (exec (.rdb 2) (ready m3)) = some (.ok, 0x43) ∧ (ready m3).msg.wf ∧
      (63 : Addr).toNat < (ready m3).cfg.msgBytes ∧ (56 : Addr).toNat % 8 = 0 ∧
      (56 : Addr).toNat + 8 ≤ (ready m3).cfg.msgBytes ∧
      response (exec (.setlen 64) (ready m3)) = some (.ok, 0) := by decide

/-- The longest message that still has room for a pad byte, and the empty one. -/
theorem witness_EncryptCommandsComputeModes :
    BufferInv { ready m3 with len := 63 } ∧ BufferInv (ready []) ∧ (ready m3).ready = true ∧
      (63 : Addr).toNat < (ready m3).cfg.msgBytes ∧ (ready []).len.toNat < (ready []).cfg.msgBytes :=
  ⟨⟨by decide, by decide, by decide, by decide⟩, ⟨by decide, by decide, by decide, by decide⟩, by decide⟩

theorem witness_DecryptCommandsComputeModes :
    BufferInv (ready [0x79, 0x93, 0x79, 0x99, 0xCE, 0x65, 0xA6, 0x29]) ∧
    unpad (decrypted .cfb iv1 (ready [0x79, 0x93, 0x79, 0x99, 0xCE, 0x65, 0xA6, 0x29])) = some m3 ∧
    (ready [0x79, 0x93, 0x79, 0x99, 0xCE, 0x65, 0xA6, 0x29]).ready = true ∧
    (ready [0x79, 0x93, 0x79, 0x99, 0xCE, 0x65, 0xA6, 0x29]).len.toNat = 8 :=
  ⟨⟨by decide, by decide, by decide, by decide⟩, by decide +kernel, by decide, by decide⟩

theorem witness_PaddingErrorLeavesPlaintext :
    BufferInv (swapping [0, 0, 0, 9, 0, 0, 0, 0]) ∧
    unpad (decrypted .ecb 0 (swapping [0, 0, 0, 9, 0, 0, 0, 0])) = none ∧
    (swapping [0, 0, 0, 9, 0, 0, 0, 0]).ready = true ∧ (swapping [0, 0, 0, 9, 0, 0, 0, 0]).len.toNat = 8 :=
  ⟨⟨by decide, by decide, by decide, by decide⟩, by decide +kernel, by decide, by decide⟩

/-- READY = 0; a full buffer; no block and a part of a block. -/
theorem witness_ModeCommandRefusals :
    (fresh m3).ready = false ∧ BufferInv { ready m3 with len := 64 } ∧
      ({ ready m3 with len := 64 } : State).len.toNat = (ready m3).cfg.msgBytes ∧
      (ready []).len.toNat = 0 ∧ ({ ready m3 with len := 12 } : State).len.toNat % 8 ≠ 0 :=
  ⟨by decide, ⟨by decide, by decide, by decide, by decide⟩, by decide, by decide, by decide⟩

/-- The state ENC_ECB leaves on `ready m3`, its response taken and its key word 0 and transients other than it left them,
agrees with it on everything DEC_ECB reads. -/
theorem witness_ModeRoundTrip :
    BufferInv (ready m3) ∧ (ready m3).ready = true ∧ (ready m3).len.toNat < (ready m3).cfg.msgBytes ∧
    (4 : Nat) < padlen (ready m3).len.toNat ∧
    (∀ t : State, exec .encEcb (ready m3) = .next t → t.msg.wf →
      let t' : State := { t with rsp := none, err := 0b00100, key := key0, tr := Transient.zero }
      t'.cfg = t.cfg ∧ t'.rk = t.rk ∧ t'.sbox = t.sbox ∧ t'.ready = t.ready ∧ t'.len = t.len ∧ t'.msg.wf ∧
        SameBytes t t') ∧
    (after (exec .encEcb (ready m3)) fun t => decide t.msg.wf) = some true :=
  ⟨bufferInv_ready, by decide, by decide, by decide,
    fun _ _ h => ⟨rfl, rfl, rfl, rfl, rfl, h, fun _ => rfl⟩, by decide +kernel⟩

theorem witness_OfbSelfInverse :
    BufferInv (ready m3) ∧ (ready m3).ready = true ∧
      8 * ((ready m3).len.toNat / 8 + 1) < (ready m3).cfg.msgBytes := ⟨bufferInv_ready, by decide⟩

theorem witness_OutputLengths :
    BufferInv (ready m3) ∧ (∃ t, exec .encEcb (ready m3) = .next t ∧ t.rsp = some ⟨.ok, 0⟩) ∧
    response (exec .decEcb (ready [0xBF, 0x62, 0xD1, 0x32, 0x5C, 0xAC, 0x5A, 0x6F])) = some (.ok, 0) :=
  ⟨bufferInv_ready, ⟨_, rfl, rfl⟩, by decide +kernel⟩

theorem witness_ModeCommandSequencing :
    BufferInv (ready m3) ∧ (ready m3).ready = true ∧ (ready m3).len.toNat < (ready m3).cfg.msgBytes ∧
    (∃ t, exec .encEcb (ready m3) = .next t) ∧ (swapping [0, 0, 0, 9, 0, 0, 0, 0]).len.toNat % 8 = 0 ∧
    (after (exec .decEcb (swapping [0, 0, 0, 9, 0, 0, 0, 0])) fun t => t.tr.nblk.toNat) = some 1 :=
  ⟨bufferInv_ready, by decide, by decide, ⟨_, rfl⟩, by decide, by decide +kernel⟩

theorem witness_LoadedBytesAreTheMessage :
    BufferInv (fresh m3) ∧ (List.replicate 64 (7 : Byte)).length ≤ (fresh m3).cfg.msgBytes ∧
      ([] : List Byte).length ≤ (fresh m3).cfg.msgBytes := ⟨bufferInv_fresh, by decide⟩

theorem witness_LifeCycleCheck :
    (Instr.ldk 7 0).WellFormed ∧ needsReady (.ldk 7 0) = some false ∧ (ready m3).ready ≠ false ∧
    needsReady (.encCbc iv1) = some true ∧ (fresh m3).ready ≠ true ∧
    (fresh m3).ready = false ∧ response (exec (.ldk 7 0) (fresh m3)) = some (.ok, 0) := by decide

theorem witness_CodesPerCommand :
    ∃ t r, (Instr.setlen 65).WellFormed ∧ exec (.setlen 65) (ready m3) = .next t ∧ t.rsp = some r :=
  ⟨_, _, by decide, rfl, rfl⟩

theorem witness_ErrorEntrySetsOneFlag :
    (∃ t r, exec (.setlen 65) (ready m3) = .next t ∧ t.rsp = some r ∧ r.code ≠ .ok) ∧
    ∃ t r, exec (.setlen 64) (ready m3) = .next t ∧ t.rsp = some r ∧ r.code = .ok ∧ Instr.setlen 64 ≠ .clrerr :=
  ⟨⟨_, _, rfl, rfl, by decide⟩, ⟨_, _, rfl, rfl, by decide⟩⟩

/-- One command for each of the four codes. -/
theorem witness_RefusalsArePrecise :
    response (exec (.ldk 8 0) (fresh m3)) = some (.ill, 0) ∧ response (exec .encEcb (fresh m3)) = some (.state, 0) ∧
    response (exec (.rdq 1) (fresh m3)) = some (.addr, 0) ∧
    response (exec .decEcb (ready m3)) = some (.len, 0) := by decide

end Sys2Proof.Tests
end

section
/-! The invariant is kept by every step (O11).  While a command executes, the state satisfies `AcceptedInv`, the invariant
without its clauses about the response; every way a command can end answers a state of the invariant from there. -/

namespace Sys2Proof.Machine

/-! ## Memories within a limit -/

/-- A canonical memory with no byte at or beyond `limit` (R35). -/
def Memory.WfBelow (limit : Nat) (m : Memory) : Prop := m.wf ∧ ∀ c ∈ m, c.1 < limit

theorem Memory.WfBelow.writeByte {limit a : Nat} {m : Memory} (h : m.WfBelow limit) (ha : a < limit) (b : Byte) :
    (m.writeByte a b).WfBelow limit := by
  refine ⟨Memory.wf_writeByte h.1 a b, fun c hc => ?_⟩
  rcases Memory.mem_writeByte hc with rfl | hc
  · exact ha
  · exact h.2 c hc

theorem Memory.WfBelow.writeBytes {limit a : Nat} {m : Memory} {bs : List Byte} (h : m.WfBelow limit)
    (ha : a + bs.length ≤ limit) : (m.writeBytes a bs).WfBelow limit := by
  refine ⟨Memory.wf_writeBytes h.1 a bs, fun c hc => ?_⟩
  rcases Memory.mem_writeBytes hc with hc | hc
  · omega
  · exact h.2 c hc

theorem Memory.WfBelow.scramble {limit : Nat} {m : Memory} (h : m.WfBelow limit) (k a n : Nat) :
    (Memory.scramble limit k m a n).WfBelow limit :=
  ⟨Memory.wf_scramble h.1 limit k a n, fun c hc => (Memory.mem_scramble hc).elim id (h.2 c)⟩

theorem BufferInv.wfBelow {s : State} (h : BufferInv s) : s.msg.WfBelow s.cfg.msgBytes := ⟨h.msgWf, h.msgInRange⟩

theorem BufferInv.msgBytes_le {s : State} (h : BufferInv s) : s.cfg.msgBytes ≤ 65528 := h.cfgLegal.2.2

/-- `BufferInv` speaks of MSG_BYTES, LEN and MSG only. -/
theorem BufferInv.congr {s t : State} (h : BufferInv s) (hcfg : t.cfg = s.cfg) (hlen : t.len = s.len)
    (hmsg : t.msg = s.msg) : BufferInv t where
  cfgLegal := hcfg ▸ h.cfgLegal
  lenInRange := hcfg ▸ hlen ▸ h.lenInRange
  msgWf := hmsg ▸ h.msgWf
  msgInRange := hcfg ▸ hmsg ▸ h.msgInRange

/-! ## The invariant while a command executes -/

/-- What holds of an accepted state, in which a command starts: the invariant but for the response, and PHASE is BUSY. -/
structure AcceptedInv (s : State) : Prop where
  buffer : BufferInv s
  rkIsKey : s.ready = true → s.rk = s.key
  rkClear : s.ready = false → s.rk = Vector.replicate 8 0
  busy : s.phase = .busy

theorem Inv.accept {s : State} (h : Inv s) (inputs : List PortInput) (span : Option (Nat × Nat)) :
    AcceptedInv (State.accept { s with inputs := inputs } span) :=
  ⟨h.buffer.congr rfl rfl rfl, h.rkIsKey, h.rkClear, rfl⟩

/-- LEN, MSG and the transient registers may change within the limits of the buffer. -/
theorem AcceptedInv.setBuffer {s : State} (h : AcceptedInv s) {m : Memory} {len : Addr} {tr : Transient}
    (hm : m.WfBelow s.cfg.msgBytes) (hlen : len.toNat ≤ s.cfg.msgBytes) :
    AcceptedInv { s with msg := m, len := len, tr := tr } :=
  ⟨⟨h.buffer.cfgLegal, hlen, hm.1, hm.2⟩, h.rkIsKey, h.rkClear, h.busy⟩

theorem AcceptedInv.setTransients {s : State} (h : AcceptedInv s) (tr : Transient) : AcceptedInv { s with tr := tr } :=
  h.setBuffer h.buffer.wfBelow h.buffer.lenInRange

theorem AcceptedInv.setErr {s : State} (h : AcceptedInv s) (err : BitVec 5) : AcceptedInv { s with err := err } :=
  ⟨h.buffer.congr rfl rfl rfl, h.rkIsKey, h.rkClear, h.busy⟩

/-- KEY, RK, SBOX and READY may change as long as RK is what READY says (R17, R18). -/
theorem AcceptedInv.setInstance {s : State} (h : AcceptedInv s) {key rk : KeyFile} {sbox : SboxFile} {ready : Bool}
    (hkey : ready = true → rk = key) (hclear : ready = false → rk = Vector.replicate 8 0) :
    AcceptedInv { s with key := key, rk := rk, sbox := sbox, ready := ready } :=
  ⟨h.buffer.congr rfl rfl rfl, hkey, hclear, h.busy⟩

/-- A response, with RDAT = 0 when it is a refusal, gives back the invariant (R53 d, R54). -/
theorem AcceptedInv.respond {s : State} (h : AcceptedInv s) {c : Code} {v : Block} (hv : c ≠ .ok → v = 0) :
    Inv (s.respond c v) where
  buffer := h.buffer.congr rfl rfl rfl
  rkIsKey := h.rkIsKey
  rkClear := h.rkClear
  idleIffNoRsp := by simp [h.busy]
  refusedRdat := by rintro r ⟨⟩; exact hv

theorem AcceptedInv.errorEntry {s : State} (h : AcceptedInv s) (c : Code) : Inv (s.errorEntry c) :=
  (h.setErr (raiseFlag s.err c)).respond fun _ => rfl

/-! ## The operations the commands share -/

/-- The result is a next state, and it satisfies the invariant. -/
def AnswersInv (r : Result) : Prop := ∃ t, r = .next t ∧ Inv t

theorem AcceptedInv.complete {s : State} (h : AcceptedInv s) (v : Block) : AnswersInv (complete v s) :=
  ⟨_, rfl, h.respond fun hc => absurd rfl hc⟩

theorem AcceptedInv.raise {s : State} (h : AcceptedInv s) (c : Code) : AnswersInv (raise c s) :=
  ⟨_, rfl, h.errorEntry c⟩

theorem AcceptedInv.requireReady {s : State} (h : AcceptedInv s) {b : Bool} {rest : State → Result}
    (hrest : s.ready = b → AnswersInv (rest s)) : AnswersInv (requireReady b s rest) := by
  rcases requireReady_cases b s rest with ⟨hr, e⟩ | ⟨-, e⟩
  · exact e ▸ hrest hr
  · exact e ▸ h.raise .state

/-- Processing a message that lies in the buffer keeps the memory canonical and in the buffer (R109). -/
theorem processMessage_wfBelow {step : BlockStep} (hstep : KeepsCounters step) {limit : Nat} {s : State}
    (hm : s.msg.WfBelow limit) (hn : 8 * s.tr.nblk.toNat ≤ limit) (hlimit : limit ≤ 65528) :
    (processMessage step s).msg.WfBelow limit := by
  obtain ⟨hwf, hin, -, -⟩ := processBlocks_buffer hstep limit s.tr.nblk.toNat { s with tr := { s.tr with blk := 0 } } 0
    hm.1 hm.2 rfl (by omega) (by omega)
  exact ⟨hwf, hin⟩

@[simp] theorem State.loadIv_tr_nblk (s : State) (iv : Option Block) : (s.loadIv iv).tr.nblk = s.tr.nblk := by
  cases iv <;> rfl

/-- The common frame of the encrypt commands: the pad bytes, the blocks and the new LEN are in the buffer (R107). -/
theorem AcceptedInv.encryptFrame {s : State} (h : AcceptedInv s) {step : BlockStep} (hstep : KeepsCounters step)
    (iv : Option Block) : AnswersInv (encryptFrame step iv s) := by
  rcases encryptFrame_cases step iv s with ⟨-, e⟩ | ⟨-, -, e⟩ | ⟨-, hfit, tr, m, hmsg, e⟩
  · exact e ▸ h.raise .state
  · exact e ▸ h.raise .len
  · have hpad : (s.padStep.loadIv iv).msg.WfBelow s.cfg.msgBytes := by
      rw [State.loadIv_msg]
      exact h.buffer.wfBelow.writeBytes (by simpa [padBytes] using hfit)
    have hnblk : (s.padStep.loadIv iv).tr.nblk.toNat ≤ (s.len.toNat + padlen s.len.toNat) / 8 := by
      rw [State.loadIv_tr_nblk]
      exact Nat.mod_le _ _
    have hm := processMessage_wfBelow hstep hpad (by omega) h.buffer.msgBytes_le
    rw [hmsg] at hm
    exact e ▸ (h.setBuffer hm ((Nat.mod_le _ _).trans hfit)).complete 0

/-- The common frame of the decrypt commands: the blocks are those of the message and LEN does not grow (R101, R108). -/
theorem AcceptedInv.decryptFrame {s : State} (h : AcceptedInv s) {step : BlockStep} (hstep : KeepsCounters step)
    (iv : Option Block) : AnswersInv (decryptFrame step iv s) := by
  have hlen := h.buffer.lenInRange
  rcases decryptFrame_cases step iv s with ⟨-, e⟩ | ⟨-, -, e⟩ | ⟨-, -, -, tr, m, hmsg, hend⟩
  · exact e ▸ h.raise .state
  · exact e ▸ h.raise .len
  · have hnblk : (BitVec.ofNat 14 (s.len.toNat / 8)).toNat ≤ s.len.toNat / 8 := Nat.mod_le _ _
    have hm := processMessage_wfBelow (limit := s.cfg.msgBytes) hstep
      (s := State.loadIv { s with tr := { s.tr with nblk := BitVec.ofNat 14 (s.len.toNat / 8) } } iv)
      (by rw [State.loadIv_msg]; exact h.buffer.wfBelow) (by rw [State.loadIv_tr_nblk]; dsimp only; omega)
      h.buffer.msgBytes_le
    rw [hmsg] at hm
    rcases hend with ⟨-, e⟩ | ⟨-, e⟩
    · exact e ▸ (h.setBuffer hm hlen).raise .pad
    · exact e ▸ (h.setBuffer hm ((Nat.mod_le _ _).trans (by omega))).complete 0

theorem AcceptedInv.transformCommand {s : State} (h : AcceptedInv s) (order : RoundKeyOrder) (d : Block) :
    AnswersInv (transformCommand order d s) :=
  h.requireReady fun _ => (h.setTransients _).complete _

/-! ## Every command and every step -/

/-- Every command, from an accepted state, answers a state of the invariant. -/
theorem AcceptedInv.exec {s : State} (h : AcceptedInv s) (i : Instr) : AnswersInv (exec i s) := by
  have hlen := h.buffer.lenInRange
  have hmsg := h.buffer.wfBelow
  cases i with
  | nop => exact h.complete 0
  | rdsr => exact h.complete _
  | clrerr => exact (h.setErr 0).complete 0
  | clr => exact (h.setInstance (by nofun) fun _ => rfl).complete 0
  | init =>
    rw [Machine.exec, execInit]
    exact h.requireReady fun _ => (h.setInstance (fun _ => rfl) (by nofun)).complete 0
  | ldk k w =>
    rw [Machine.exec, execLdk]
    split
    · exact h.requireReady fun hr => (h.setInstance (by simp [hr]) h.rkClear).complete 0
    · exact h.raise .ill
  | lds t n v =>
    rw [Machine.exec, execLds]
    split
    · exact h.requireReady fun _ => (h.setInstance h.rkIsKey h.rkClear).complete 0
    · exact h.raise .ill
  | wrb addr b =>
    rw [Machine.exec, execWrb]
    split
    · next ha => exact (h.setBuffer (hmsg.writeByte ha b) hlen).complete 0
    · exact h.raise .addr
  | rdb addr =>
    rw [Machine.exec, execRdb]
    split
    · exact h.complete _
    · exact h.raise .addr
  | wrq addr q =>
    rw [Machine.exec, execWrq]
    split
    · next ha => exact (h.setBuffer (hmsg.writeBytes (bs := blockBytes q) ha.2) hlen).complete 0
    · exact h.raise .addr
  | rdq addr =>
    rw [Machine.exec, execRdq]
    split
    · exact h.complete _
    · exact h.raise .addr
  | setlen len =>
    rw [Machine.exec, execSetlen]
    split
    · exact h.raise .len
    · next hl => exact (h.setBuffer hmsg (Nat.le_of_not_lt hl)).complete 0
  | rndf half subkey => exact h.requireReady fun _ => h.complete _
  | encblk d => exact h.transformCommand .encrypt d
  | decblk d => exact h.transformCommand .decrypt d
  | encEcb => exact h.encryptFrame stepEcbEncrypt_keeps none
  | decEcb => exact h.decryptFrame stepEcbDecrypt_keeps none
  | encCbc iv => exact h.encryptFrame stepCbcEncrypt_keeps (some iv)
  | decCbc iv => exact h.decryptFrame stepCbcDecrypt_keeps (some iv)
  | encCfb iv => exact h.encryptFrame stepCfbEncrypt_keeps (some iv)
  | decCfb iv => exact h.decryptFrame stepCfbDecrypt_keeps (some iv)
  | encOfb iv => exact h.encryptFrame stepOfb_keeps (some iv)
  | decOfb iv => exact h.decryptFrame stepOfb_keeps (some iv)

/-- The host's signals to come are no part of the invariant. -/
theorem Inv.setInputs {s : State} (h : Inv s) (inputs : List PortInput) : Inv { s with inputs := inputs } :=
  ⟨h.buffer.congr rfl rfl rfl, h.rkIsKey, h.rkClear, h.idleIffNoRsp, h.refusedRdat⟩

theorem Inv.deliver {s : State} (h : Inv s) : Inv s.deliver := by
  rcases hr : s.rsp with _ | r
  · rwa [deliver_none hr]
  · rw [deliver_some hr]
    exact ⟨h.buffer.congr rfl rfl rfl, h.rkIsKey, h.rkClear, iff_of_true rfl rfl, nofun⟩

/-- What a reset leaves of MSG is in the buffer, the free values of an aborted command included (R145). -/
theorem applyReset_msg_wfBelow {s : State} (h : s.msg.WfBelow s.cfg.msgBytes) :
    s.applyReset.msg.WfBelow s.cfg.msgBytes := by
  rcases he : s.exposed with _ | ⟨a, n⟩
  · rwa [applyReset_msg_none he]
  · rw [applyReset_msg_some he]
    exact h.scramble s.aborts a n

theorem Inv.applyReset {s : State} (h : Inv s) : Inv s.applyReset := by
  obtain ⟨hwf, hin⟩ := applyReset_msg_wfBelow h.buffer.wfBelow
  exact ⟨⟨h.buffer.cfgLegal, Nat.zero_le _, hwf, hin⟩, nofun, fun _ => rfl, iff_of_true rfl rfl, nofun⟩

/-- Settles O11, by the cases of a step: nothing, reset, a refused packet, an executed command, or a delivery. -/
theorem stepKeepsInvariant : Obligations.StepKeepsInvariant := by
  unfold Obligations.StepKeepsInvariant
  intro s t h hstep
  suffices hs : AnswersInv (step s) by
    obtain ⟨u, hu, hinv⟩ := hs
    cases hstep.symm.trans hu
    exact hinv
  rcases step_cases s with ⟨-, e⟩ | ⟨c, rest, -, hedge⟩
  · exact ⟨_, e, h⟩
  · rcases hedge with ⟨-, e⟩ | ⟨-, -, -, ⟨-, -, e⟩ | ⟨i, -, e⟩⟩ | ⟨-, -, -, -, e⟩ | ⟨-, e⟩
    · exact ⟨_, e, (h.setInputs rest).applyReset⟩
    · exact ⟨_, e, (h.accept rest none).errorEntry .ill⟩
    · exact e ▸ (h.accept rest _).exec i
    · exact ⟨_, e, (h.setInputs rest).deliver⟩
    · exact ⟨_, e, h.setInputs rest⟩

end Sys2Proof.Machine
end

section
/-! What a step does to the cipher (KEY, RK, SBOX, READY, the fields of `SameInstance`) and to ERR (O12, O13, O14), which
commands write a transient register (O16), the values reset gives (O8, O10), and the status word (O20). -/

namespace Sys2Proof.Machine

/-! ## An erased cipher -/

/-- No cipher exists and nothing is left of one: READY is 0 and KEY, RK, SBOX are zero (R33, R69). -/
def InstanceErased (s : State) : Prop :=
  s.ready = false ∧ (∀ j, s.key.get j = 0) ∧ (∀ j, s.rk.get j = 0) ∧ ∀ j n, (s.sbox.get j).get n = 0

theorem instanceErased_of_zero {s : State} (hready : s.ready = false) (hkey : s.key = Vector.replicate 8 0)
    (hrk : s.rk = Vector.replicate 8 0) (hsbox : s.sbox = Vector.replicate 8 (Vector.replicate 16 0)) :
    InstanceErased s := by
  refine ⟨hready, fun j => ?_, fun j => ?_, fun j n => ?_⟩
  · simp [hkey, Vector.get_eq_getElem]
  · simp [hrk, Vector.get_eq_getElem]
  · simp [hsbox, Vector.get_eq_getElem]

theorem instanceErased_powerUp (cfg : Config) (msg : Memory) : InstanceErased (State.powerUp cfg msg) :=
  instanceErased_of_zero rfl rfl rfl rfl

theorem instanceErased_applyReset (s : State) : InstanceErased s.applyReset := instanceErased_of_zero rfl rfl rfl rfl

/-- Settles O8, by the value of each register in `powerUp` and after `applyReset`. -/
theorem resetClearsRegisters : Obligations.ResetClearsRegisters := by
  unfold Obligations.ResetClearsRegisters
  refine ⟨fun cfg msg => ?_, fun s c rest hin hrst => ?_⟩
  · obtain ⟨hready, hkey, hrk, hsbox⟩ := instanceErased_powerUp cfg msg
    exact ⟨hkey, hrk, hsbox, hready, rfl, rfl, rfl, rfl, rfl⟩
  · obtain ⟨hready, hkey, hrk, hsbox⟩ := instanceErased_applyReset { s with inputs := rest }
    exact ⟨_, step_reset hin hrst, hkey, hrk, hsbox, hready, rfl, rfl, rfl, rfl, rfl, rfl, rfl, rfl⟩

/-- Settles O10: LEN is 0, no response is held, and RK is zero as READY = 0 asks. -/
theorem invariantAtPowerUp : Obligations.InvariantAtPowerUp := by
  unfold Obligations.InvariantAtPowerUp
  intro cfg msg hcfg hwf hin
  exact {
    buffer := ⟨hcfg, Nat.zero_le _, hwf, hin⟩
    rkIsKey := nofun
    rkClear := fun _ => rfl
    idleIffNoRsp := iff_of_true rfl rfl
    refusedRdat := nofun }

/-! ## What a command writes of the cipher and of the transient registers -/

/-- The cipher after a command: as it was, erased, derived by INIT, or still being loaded. -/
inductive InstanceChange (i : Instr) (s t : State) : Prop where
  | same (h : SameInstance s t)
  | erased (h : InstanceErased t)
  | derived (hi : i = .init) (hready : s.ready = false) (hrk : t.rk = s.key) (hkey : t.key = s.key)
      (hsbox : t.sbox = s.sbox)
  | loading (hs : s.ready = false) (ht : t.ready = false)

/-- What a command may write: the cipher by `InstanceChange`, the transient registers only if it runs on them (R30). -/
structure CommandFrame (i : Instr) (s t : State) : Prop where
  inst : InstanceChange i s t
  transients : usesTransients i = false → t.tr = s.tr

/-- The result is a next state within the frame of the command. -/
def AnswersFrame (i : Instr) (s : State) (r : Result) : Prop := ∃ t, r = .next t ∧ CommandFrame i s t

theorem CommandFrame.same {i : Instr} {s t : State} (h : SameInstance s t)
    (htr : usesTransients i = false → t.tr = s.tr) : CommandFrame i s t := ⟨.same h, htr⟩

theorem AnswersFrame.raise (i : Instr) (s : State) (c : Code) : AnswersFrame i s (raise c s) :=
  ⟨_, rfl, .same (sameInstance_refl s) fun _ => rfl⟩

theorem AnswersFrame.requireReady {i : Instr} {s : State} {b : Bool} {rest : State → Result}
    (hrest : s.ready = b → AnswersFrame i s (rest s)) : AnswersFrame i s (requireReady b s rest) := by
  rcases requireReady_cases b s rest with ⟨hr, e⟩ | ⟨-, e⟩
  · exact e ▸ hrest hr
  · exact e ▸ .raise i s .state

/-- Completing from a state in which the cipher and the transient registers are as they were. -/
theorem AnswersFrame.complete {i : Instr} {s u : State} (v : Block) (h : SameInstance s u) (htr : u.tr = s.tr) :
    AnswersFrame i s (complete v u) :=
  ⟨_, rfl, .same h fun _ => htr⟩

theorem AnswersFrame.transformCommand {i : Instr} (hi : usesTransients i = true) (order : RoundKeyOrder) (d : Block)
    (s : State) : AnswersFrame i s (transformCommand order d s) :=
  .requireReady fun _ => ⟨_, rfl, .same (sameInstance_refl s) (by simp [hi])⟩

theorem AnswersFrame.encryptFrame {i : Instr} (hi : usesTransients i = true) (step : BlockStep) (iv : Option Block)
    (s : State) : AnswersFrame i s (encryptFrame step iv s) := by
  rcases encryptFrame_cases step iv s with ⟨-, e⟩ | ⟨-, -, e⟩ | ⟨-, -, tr, m, -, e⟩
  · exact e ▸ .raise i s .state
  · exact e ▸ .raise i s .len
  · exact ⟨_, e, .same (sameInstance_refl s) (by simp [hi])⟩

theorem AnswersFrame.decryptFrame {i : Instr} (hi : usesTransients i = true) (step : BlockStep) (iv : Option Block)
    (s : State) : AnswersFrame i s (decryptFrame step iv s) := by
  rcases decryptFrame_cases step iv s with ⟨-, e⟩ | ⟨-, -, e⟩ | ⟨-, -, -, tr, m, -, ⟨-, e⟩ | ⟨-, e⟩⟩
  · exact e ▸ .raise i s .state
  · exact e ▸ .raise i s .len
  · exact ⟨_, e, .same (sameInstance_refl s) (by simp [hi])⟩
  · exact ⟨_, e, .same (sameInstance_refl s) (by simp [hi])⟩

/-- Every command stays within its frame; CLR, INIT, LDK and LDS are the ones that write the cipher (R74). -/
theorem exec_frame (i : Instr) (s : State) : AnswersFrame i s (exec i s) := by
  have hsame := sameInstance_refl s
  cases i with
  | nop => exact .complete _ hsame rfl
  | rdsr => exact .complete _ hsame rfl
  | clrerr => exact .complete _ hsame rfl
  | clr => exact ⟨_, rfl, .erased (instanceErased_of_zero rfl rfl rfl rfl), fun _ => rfl⟩
  | init =>
    rw [exec, execInit]
    refine .requireReady fun hr => ⟨_, rfl, ?_, fun _ => rfl⟩
    exact .derived rfl hr rfl rfl rfl
  | ldk k w =>
    rw [exec, execLdk]
    split
    · exact .requireReady fun hr => ⟨_, rfl, .loading hr hr, fun _ => rfl⟩
    · exact .raise _ s .ill
  | lds t n v =>
    rw [exec, execLds]
    split
    · exact .requireReady fun hr => ⟨_, rfl, .loading hr hr, fun _ => rfl⟩
    · exact .raise _ s .ill
  | wrb addr b =>
    rw [exec, execWrb]
    split
    · exact .complete _ hsame rfl
    · exact .raise _ s .addr
  | rdb addr =>
    rw [exec, execRdb]
    split
    · exact .complete _ hsame rfl
    · exact .raise _ s .addr
  | wrq addr q =>
    rw [exec, execWrq]
    split
    · exact .complete _ hsame rfl
    · exact .raise _ s .addr
  | rdq addr =>
    rw [exec, execRdq]
    split
    · exact .complete _ hsame rfl
    · exact .raise _ s .addr
  | setlen len =>
    rw [exec, execSetlen]
    split
    · exact .raise _ s .len
    · exact .complete _ hsame rfl
  | rndf half subkey =>
    rw [exec, execRndf]
    exact .requireReady fun _ => .complete _ hsame rfl
  | encblk d => exact .transformCommand rfl _ d s
  | decblk d => exact .transformCommand rfl _ d s
  | encEcb => exact .encryptFrame rfl _ _ s
  | decEcb => exact .decryptFrame rfl _ _ s
  | encCbc iv => exact .encryptFrame rfl _ _ s
  | decCbc iv => exact .decryptFrame rfl _ _ s
  | encCfb iv => exact .encryptFrame rfl _ _ s
  | decCfb iv => exact .decryptFrame rfl _ _ s
  | encOfb iv => exact .encryptFrame rfl _ _ s
  | decOfb iv => exact .decryptFrame rfl _ _ s

/-- A command that answers a next state answers one within its frame. -/
theorem commandFrame_of_exec {i : Instr} {s t : State} (h : exec i s = .next t) : CommandFrame i s t := by
  obtain ⟨u, hu, hframe⟩ := exec_frame i s
  cases h.symm.trans hu
  exact hframe

/-- Settles O16: a command that does not run on the transient registers keeps them by its frame, and a refusal before
every write keeps them whatever the command. -/
theorem transientFrame : Obligations.TransientFrame := by
  unfold Obligations.TransientFrame
  intro i s t r hexec hrsp hcase
  rcases hcase with huse | hclean
  · exact (commandFrame_of_exec hexec).transients huse
  · rcases exec_cases i s with ⟨c, -, e⟩ | ⟨u, v, e, -⟩ | ⟨tr, m, e⟩
    · cases hexec.symm.trans e
      rfl
    · cases hexec.symm.trans e
      cases hrsp
      cases hclean
    · cases hexec.symm.trans e
      cases hrsp
      cases hclean

/-! ## What a step does to the cipher -/

theorem sameInstance_deliver (s : State) : SameInstance s s.deliver := by
  rcases hr : s.rsp with _ | r
  · rw [deliver_none hr]
    exact sameInstance_refl s
  · rw [deliver_some hr]
    exact sameInstance_refl s

theorem deliver_err (s : State) : s.deliver.err = s.err := by
  rcases hr : s.rsp with _ | r
  · rw [deliver_none hr]
  · rw [deliver_some hr]

/-- At the next clock edge a packet that decodes to `i` is accepted (R52, R53 a). -/
def Accepts (s : State) (i : Instr) : Prop :=
  ∃ c rest, s.inputs = c :: rest ∧ c.rstN = true ∧ c.cmdValid = true ∧ s.phase = .idle ∧ decode c.cmd = .ok i

/-- A step leaves the cipher as it was, erases it, or does to it what the accepted command does. -/
theorem step_instance {s t : State} (h : step s = .next t) :
    SameInstance s t ∨ InstanceErased t ∨ ∃ i, Accepts s i ∧ InstanceChange i s t := by
  rcases step_cases s with ⟨-, e⟩ | ⟨c, rest, hin, hedge⟩
  · cases h.symm.trans e
    exact .inl (sameInstance_refl s)
  · rcases hedge with ⟨-, e⟩ | ⟨hrst, hvalid, hidle, ⟨-, -, e⟩ | ⟨i, hdec, e⟩⟩ | ⟨-, -, -, -, e⟩ | ⟨-, e⟩
    · cases h.symm.trans e
      exact .inr (.inl (instanceErased_applyReset _))
    · cases h.symm.trans e
      exact .inl (sameInstance_refl s)
    · refine .inr (.inr ⟨i, ⟨c, rest, hin, hrst, hvalid, hidle, hdec⟩, ?_⟩)
      cases (commandFrame_of_exec (e.symm.trans h)).inst with
      | same hs => exact .same hs
      | erased ht => exact .erased ht
      | derived hi hready hrk hkey hsbox => exact .derived hi hready hrk hkey hsbox
      | loading hs ht => exact .loading hs ht
    · cases h.symm.trans e
      exact .inl (sameInstance_deliver { s with inputs := rest })
    · cases h.symm.trans e
      exact .inl (sameInstance_refl s)

/-- Settles O12: INIT and the loads change the cipher only where READY was 0, so a step from READY = 1 keeps it or
erases it. -/
theorem instanceFrozenWhileReady : Obligations.InstanceFrozenWhileReady := by
  unfold Obligations.InstanceFrozenWhileReady
  intro s t hready hstep
  rcases step_instance hstep with hsame | herased | ⟨i, -, hchange⟩
  · exact .inl hsame
  · exact .inr herased
  · cases hchange with
    | same hsame => exact .inl hsame
    | erased herased => exact .inr herased
    | derived _ hnot => exact absurd hready (by simp [hnot])
    | loading hnot => exact absurd hready (by simp [hnot])

/-- Settles O13: of all that a step can do to the cipher only INIT's derivation leaves READY = 1 where it was 0. -/
theorem onlyInitSetsReady : Obligations.OnlyInitSetsReady := by
  unfold Obligations.OnlyInitSetsReady
  intro s t hnot hstep hready
  have hnotSame : ¬ SameInstance s t := fun ⟨_, _, _, h⟩ => by simp [hnot, hready] at h
  have hnotErased : ¬ InstanceErased t := fun ⟨h, _⟩ => by simp [hready] at h
  rcases step_instance hstep with hsame | herased | ⟨i, haccepts, hchange⟩
  · exact absurd hsame hnotSame
  · exact absurd herased hnotErased
  · cases hchange with
    | same hsame => exact absurd hsame hnotSame
    | erased herased => exact absurd herased hnotErased
    | derived hi _ hrk hkey hsbox => exact ⟨hi ▸ haccepts, hrk, hkey, hsbox⟩
    | loading _ ht => simp [hready] at ht

/-! ## What clears a flag -/

/-- A command other than CLRERR leaves every flag that is set (R22, R137). -/
theorem exec_keeps_flag {i : Instr} {s t : State} {k : Nat} (hi : i ≠ .clrerr) (h : exec i s = .next t)
    (hk : s.err.getLsbD k = true) : t.err.getLsbD k = true := by
  rcases exec_cases i s with ⟨c, -, e⟩ | ⟨u, v, e, -, herr⟩ | ⟨tr, m, e⟩
  · cases h.symm.trans e
    exact raiseFlag_mono s.err c k hk
  · cases h.symm.trans e
    rw [State.respond_err, herr hi, hk]
  · cases h.symm.trans e
    exact raiseFlag_mono s.err .pad k hk

/-- Settles O14, by the cases of a step: reset clears the flags, and of the accepted packets only CLRERR's does. -/
theorem onlyClrerrAndResetClearFlags : Obligations.OnlyClrerrAndResetClearFlags := by
  unfold Obligations.OnlyClrerrAndResetClearFlags
  intro s t k hstep hset hclear
  rcases step_cases s with ⟨-, e⟩ | ⟨c, rest, hin, hedge⟩
  · cases hstep.symm.trans e
    simp [hset] at hclear
  · refine ⟨c, rest, hin, ?_⟩
    rcases hedge with ⟨hrst, -⟩ | ⟨hrst, hvalid, hidle, ⟨-, -, e⟩ | ⟨i, hdec, e⟩⟩ | ⟨-, -, -, -, e⟩ | ⟨-, e⟩
    · exact .inl hrst
    · cases hstep.symm.trans e
      have hkept := raiseFlag_mono s.err .ill k hset
      simp [hkept] at hclear
    · by_cases hi : i = .clrerr
      · exact .inr ⟨hrst, hvalid, hidle, hi ▸ hdec⟩
      · have hkept := exec_keeps_flag hi (e.symm.trans hstep) (k := k) hset
        simp [hkept] at hclear
    · cases hstep.symm.trans e
      rw [deliver_err] at hclear
      simp [hset] at hclear
    · cases hstep.symm.trans e
      simp [hset] at hclear

/-! ## The status word -/

/-- The status word is the sum of its fields, each at its place (R24). -/
theorem statusWord_toNat (ready : Bool) (err : BitVec 5) (len : Addr) :
    (statusWord ready err len).toNat = ready.toNat + err.toNat * 2 ^ 8 + len.toNat * 2 ^ 16 := by
  simp only [statusWord, toNat_append_eq, BitVec.toNat_ofNat, BitVec.toNat_ofBool]
  omega

/-- Each bit range of the status word is its field, and the reserved ones are 0 (R24). -/
theorem statusWord_fields (ready : Bool) (err : BitVec 5) (len : Addr) :
    (statusWord ready err len).getLsbD 0 = ready ∧ (statusWord ready err len).extractLsb' 1 7 = 0 ∧
    (statusWord ready err len).extractLsb' 8 5 = err ∧ (statusWord ready err len).extractLsb' 13 3 = 0 ∧
    (statusWord ready err len).extractLsb' 16 16 = len ∧ (statusWord ready err len).extractLsb' 32 32 = 0 := by
  have hr := ready.toNat_lt; have he := err.isLt; have hl := len.isLt
  constructor
  · rw [← BitVec.testBit_toNat, statusWord_toNat, Nat.testBit_zero]
    cases ready <;> simp <;> omega
  · refine ⟨?_, ?_, ?_, ?_, ?_⟩ <;>
    · apply BitVec.eq_of_toNat_eq
      simp only [BitVec.extractLsb'_toNat, statusWord_toNat, Nat.shiftRight_eq_div_pow, BitVec.ofNat_eq_ofNat,
        BitVec.toNat_ofNat]
      omega

/-- Settles O20: the value is the status word, and completing with it changes nothing. -/
theorem rdsrReturnsStatusWord : Obligations.RdsrReturnsStatusWord := by
  unfold Obligations.RdsrReturnsStatusWord
  intro s
  exact ⟨statusWord s.ready s.err s.len,
    completes_of rfl (samePort_refl s) ⟨sameInstance_refl s, rfl, rfl, sameBytes_refl s⟩, statusWord_fields _ _ _⟩

end Sys2Proof.Machine
end

section
/-! What no command lets the host observe (O15, O17, O18): the transient registers, KEY, and, but for RDSR, ERR.  One
command is run from two states that differ in these three alone. -/

namespace Sys2Proof.Machine

/-! ## The datapath computes the transform, whatever the transient registers held -/

/-- `n` round steps from round `j` on carry the pair (high, low) of round `j` to that of round `j + n` (R84, R89). -/
theorem roundSteps_feistelRounds (rk : KeyFile) (sbox : SboxFile) (hl : Word × Word) (n : Nat) :
    ∀ (j : Nat) (tr : Transient), tr.rnd.toNat = j → j + n < 64 →
      (tr.nHi, tr.nLo) = feistelRounds rk sbox tr.ord hl j →
      ((roundSteps rk sbox n tr).nHi, (roundSteps rk sbox n tr).nLo) = feistelRounds rk sbox tr.ord hl (j + n) := by
  induction n with
  | zero => exact fun _ _ _ _ h => h
  | succ n ih =>
    intro j tr hj hlt h
    have hrnd : (roundStep rk sbox tr).rnd.toNat = j + 1 := by
      rw [roundStep_rnd, BitVec.toNat_add, hj, show (1 : BitVec 6).toNat = 1 from rfl]
      omega
    have hpair : ((roundStep rk sbox tr).nHi, (roundStep rk sbox tr).nLo) =
        feistelRounds rk sbox (roundStep rk sbox tr).ord hl (j + 1) := by
      rw [roundStep_nHi, roundStep_nLo, roundStep_ord, feistelRounds, ← h, hj]
      rfl
    rw [roundSteps, show j + (n + 1) = j + 1 + n by omega]
    exact ih (j + 1) (roundStep rk sbox tr) hrnd (by omega) hpair

/-- The datapath unloads the transform of its input (R90). -/
theorem unloads_transform (rk : KeyFile) (sbox : SboxFile) (order : RoundKeyOrder) :
    Unloads rk sbox order (transform rk sbox order) := by
  intro x tr
  have h := roundSteps_feistelRounds rk sbox (high x, low x) 32 0 (blockLoad order x tr) rfl (by decide) rfl
  obtain ⟨hhi, hlo⟩ := Prod.mk.inj h
  rw [blockUnload, runTransform, hhi, hlo]
  rfl

/-! ## Block steps read no stale register -/

/-- Between `tr` and `tr'` a message in progress has come equally far: BLK and NBLK are the same, and FB is if the mode
has feedback. -/
structure SameProgress (feedback : Bool) (tr tr' : Transient) : Prop where
  blk : tr'.blk = tr.blk
  nblk : tr'.nblk = tr.nblk
  fb : feedback = true → tr'.fb = tr.fb

/-- The output of a block step depends on no other register, and equal progress stays equal. -/
def IgnoresStale (step : BlockStep) (feedback : Bool) : Prop :=
  ∀ rk sbox tr tr' x, SameProgress feedback tr tr' →
    (step rk sbox tr' x).2 = (step rk sbox tr x).2 ∧
      SameProgress feedback (step rk sbox tr x).1 (step rk sbox tr' x).1

/-- A block step that computes a function of FB and its input ignores the other registers; where the function's output
does not depend on FB, it ignores FB as well. -/
theorem ignoresStale_of_computes {step : BlockStep} {feedback : Bool}
    {g : KeyFile → SboxFile → Block → Block → Block × Block}
    (hstep : ∀ rk sbox, StepComputes step rk sbox (g rk sbox))
    (hg : feedback = false → ∀ rk sbox fb fb' x, (g rk sbox fb' x).2 = (g rk sbox fb x).2) :
    IgnoresStale step feedback := by
  intro rk sbox tr tr' x hprog
  obtain ⟨hfb, hout, hblk, hnblk⟩ := hstep rk sbox tr x
  obtain ⟨hfb', hout', hblk', hnblk'⟩ := hstep rk sbox tr' x
  refine ⟨?_, ⟨by rw [hblk', hblk, hprog.blk], by rw [hnblk', hnblk, hprog.nblk], fun h => ?_⟩⟩
  · rw [hout', hout]
    cases feedback with
    | false => exact hg rfl rk sbox tr.fb tr'.fb x
    | true => rw [hprog.fb rfl]
  · rw [hfb', hfb, hprog.fb h]

theorem stepEcbEncrypt_ignoresStale : IgnoresStale stepEcbEncrypt false :=
  ignoresStale_of_computes (fun rk sbox => stepEcbEncrypt_computes (unloads_transform rk sbox .encrypt))
    fun _ _ _ _ _ _ => rfl

theorem stepEcbDecrypt_ignoresStale : IgnoresStale stepEcbDecrypt false :=
  ignoresStale_of_computes (fun rk sbox => stepEcbDecrypt_computes (unloads_transform rk sbox .decrypt))
    fun _ _ _ _ _ _ => rfl

theorem stepCbcEncrypt_ignoresStale : IgnoresStale stepCbcEncrypt true :=
  ignoresStale_of_computes (fun rk sbox => stepCbcEncrypt_computes (unloads_transform rk sbox .encrypt)) nofun

theorem stepCbcDecrypt_ignoresStale : IgnoresStale stepCbcDecrypt true :=
  ignoresStale_of_computes (fun rk sbox => stepCbcDecrypt_computes (unloads_transform rk sbox .decrypt)) nofun

theorem stepCfbEncrypt_ignoresStale : IgnoresStale stepCfbEncrypt true :=
  ignoresStale_of_computes (fun rk sbox => stepCfbEncrypt_computes (unloads_transform rk sbox .encrypt)) nofun

theorem stepCfbDecrypt_ignoresStale : IgnoresStale stepCfbDecrypt true :=
  ignoresStale_of_computes (fun rk sbox => stepCfbDecrypt_computes (unloads_transform rk sbox .encrypt)) nofun

theorem stepOfb_ignoresStale : IgnoresStale stepOfb true :=
  ignoresStale_of_computes (fun rk sbox => stepOfb_computes (unloads_transform rk sbox .encrypt)) nofun

/-! ## The state with other hidden values -/

/-- `s` with KEY `k`, ERR `e` and the transient registers `tr`. -/
def State.vary (s : State) (k : KeyFile) (e : BitVec 5) (tr : Transient) : State :=
  { s with key := k, err := e, tr := tr }

/-- From equal progress on, one block in place gives states that again differ in these alone, and again at equal
progress. -/
theorem processBlock_vary {step : BlockStep} {feedback : Bool} (hstep : IgnoresStale step feedback) {s : State}
    {tr : Transient} (hprog : SameProgress feedback s.tr tr) (k : KeyFile) (e : BitVec 5) :
    ∃ tr', processBlock step (s.vary k e tr) = (processBlock step s).vary k e tr' ∧
      SameProgress feedback (processBlock step s).tr tr' ∧ (tr = s.tr → tr' = (processBlock step s).tr) := by
  obtain ⟨hout, hblk, hnblk, hfb⟩ := hstep s.rk s.sbox s.tr tr (s.msg.readBlock (8 * s.tr.blk.toNat)) hprog
  have htr : (processBlock step (s.vary k e tr)).tr =
      { (step s.rk s.sbox tr (s.msg.readBlock (8 * s.tr.blk.toNat))).1 with
        blk := (step s.rk s.sbox tr (s.msg.readBlock (8 * s.tr.blk.toNat))).1.blk + 1 } := by
    rw [processBlock_tr, ← hprog.blk]
    rfl
  have hmsg : (processBlock step (s.vary k e tr)).msg = (processBlock step s).msg := by
    rw [processBlock_msg, processBlock_msg, ← hout, ← hprog.blk]
    rfl
  refine ⟨(processBlock step (s.vary k e tr)).tr, ?_, ?_, ?_⟩
  · calc processBlock step (s.vary k e tr)
        = { (processBlock step s).vary k e (processBlock step (s.vary k e tr)).tr with
            msg := (processBlock step (s.vary k e tr)).msg } := rfl
      _ = (processBlock step s).vary k e (processBlock step (s.vary k e tr)).tr := by rw [hmsg]; rfl
  · rw [htr, processBlock_tr]
    exact ⟨congrArg (· + 1) hblk, hnblk, hfb⟩
  · rintro rfl
    rfl

/-- From equal progress on, processing blocks gives states that again differ in these alone. -/
theorem processBlocks_vary {step : BlockStep} {feedback : Bool} (hstep : IgnoresStale step feedback) (n : Nat)
    {s : State} {tr : Transient} (hprog : SameProgress feedback s.tr tr) (k : KeyFile) (e : BitVec 5) :
    ∃ tr', processBlocks step n (s.vary k e tr) = (processBlocks step n s).vary k e tr' ∧
      (tr = s.tr → tr' = (processBlocks step n s).tr) := by
  induction n generalizing s tr with
  | zero => exact ⟨tr, rfl, id⟩
  | succ n ih =>
    obtain ⟨tr₁, hblock, hprog₁, htr₁⟩ := processBlock_vary hstep hprog k e
    obtain ⟨tr₂, hblocks, htr₂⟩ := ih hprog₁
    refine ⟨tr₂, ?_, fun h => htr₂ (htr₁ h)⟩
    rw [processBlocks, hblock, hblocks]
    rfl

/-- A message processed from the same NBLK, and the same FB if the mode has feedback: BLK starts at 0 (R109). -/
theorem processMessage_vary {step : BlockStep} {feedback : Bool} (hstep : IgnoresStale step feedback) {s : State}
    {tr : Transient} (hnblk : tr.nblk = s.tr.nblk) (hfb : feedback = true → tr.fb = s.tr.fb) (k : KeyFile)
    (e : BitVec 5) :
    ∃ tr', processMessage step (s.vary k e tr) = (processMessage step s).vary k e tr' ∧
      (tr = s.tr → tr' = (processMessage step s).tr) := by
  obtain ⟨tr', h, htr⟩ := processBlocks_vary hstep s.tr.nblk.toNat (s := { s with tr := { s.tr with blk := 0 } })
    (tr := { tr with blk := 0 }) ⟨rfl, hnblk, hfb⟩ k e
  refine ⟨tr', ?_, by rintro rfl; exact htr rfl⟩
  rw [processMessage, show (s.vary k e tr).tr.nblk = s.tr.nblk from hnblk]
  exact h

/-- The modes with feedback load FB from the IV, so nothing but NBLK is needed to be the same (R107, R108). -/
theorem processMessage_loadIv_vary {step : BlockStep} {iv : Option Block} (hstep : IgnoresStale step iv.isSome)
    {s : State} {tr : Transient} (hnblk : tr.nblk = s.tr.nblk) (k : KeyFile) (e : BitVec 5) :
    ∃ tr', processMessage step ((s.vary k e tr).loadIv iv) = (processMessage step (s.loadIv iv)).vary k e tr' ∧
      (tr = s.tr → tr' = (processMessage step (s.loadIv iv)).tr) := by
  cases iv with
  | none => exact processMessage_vary hstep hnblk nofun k e
  | some v =>
    obtain ⟨tr', h, htr⟩ := processMessage_vary hstep (s := s.loadIv (some v)) (tr := { tr with fb := v }) hnblk
      (fun _ => rfl) k e
    exact ⟨tr', h, fun ht => htr (ht ▸ rfl)⟩

@[simp] theorem processMessage_key (step : BlockStep) (s : State) : (processMessage step s).key = s.key := by
  obtain ⟨tr, m, h⟩ := processMessage_frame step s
  rw [h]

@[simp] theorem processMessage_err (step : BlockStep) (s : State) : (processMessage step s).err = s.err := by
  obtain ⟨tr, m, h⟩ := processMessage_frame step s
  rw [h]

/-! ## Every command -/

/-- Two results of one command, `x` from `s` and `y` from `s.vary k e tr`: next states that differ in KEY, RK, ERR and the
transient registers alone, and in each of these only if it differed before. -/
def DiffersOnlyInHidden (s : State) (k : KeyFile) (e : BitVec 5) (tr : Transient) (x y : Result) : Prop :=
  ∃ t k' r' e' tr', x = .next t ∧ y = .next { t with key := k', rk := r', err := e', tr := tr' } ∧
    (k = s.key → k' = t.key ∧ r' = t.rk) ∧ (e = s.err → e' = t.err) ∧ (tr = s.tr → tr' = t.tr)

section
variable {s : State} {k : KeyFile} {e : BitVec 5} {tr : Transient}

/-- Completing from states that differ as they did before. -/
theorem DiffersOnlyInHidden.complete {u : State} (v : Block) {tr' : Transient} (hkey : u.key = s.key)
    (herr : u.err = s.err) (htr : tr = s.tr → tr' = u.tr) :
    DiffersOnlyInHidden s k e tr (complete v u) (complete v (u.vary k e tr')) :=
  ⟨_, k, u.rk, e, tr', rfl, rfl, fun h => ⟨h.trans hkey.symm, rfl⟩, fun h => h.trans herr.symm, htr⟩

/-- Refusing from states that differ as they did before: the code is raised in either ERR (R137). -/
theorem DiffersOnlyInHidden.raise {u : State} (c : Code) {tr' : Transient} (hkey : u.key = s.key)
    (herr : u.err = s.err) (htr : tr = s.tr → tr' = u.tr) :
    DiffersOnlyInHidden s k e tr (raise c u) (raise c (u.vary k e tr')) :=
  ⟨_, k, u.rk, raiseFlag e c, tr', rfl, rfl, fun h => ⟨h.trans hkey.symm, rfl⟩,
    fun h => congrArg (raiseFlag · c) (h.trans herr.symm), htr⟩

/-- READY is not hidden: the life-cycle check goes the same way in both states (R135). -/
theorem DiffersOnlyInHidden.requireReady {b : Bool} {rest : State → Result}
    (hrest : DiffersOnlyInHidden s k e tr (rest s) (rest (s.vary k e tr))) :
    DiffersOnlyInHidden s k e tr (requireReady b s rest) (requireReady b (s.vary k e tr) rest) := by
  by_cases h : s.ready = b
  · rwa [requireReady_pos h, requireReady_pos (s := s.vary k e tr) h]
  · rw [requireReady_neg h, requireReady_neg (s := s.vary k e tr) h]
    exact .raise .state rfl rfl id

/-- A check that reads nothing hidden goes the same way in both states. -/
theorem DiffersOnlyInHidden.ite {c : Prop} [Decidable c] {x y x' y' : Result}
    (hpos : c → DiffersOnlyInHidden s k e tr x y) (hneg : ¬c → DiffersOnlyInHidden s k e tr x' y') :
    DiffersOnlyInHidden s k e tr (if c then x else x') (if c then y else y') := by
  by_cases hc : c
  · rw [if_pos hc, if_pos hc]
    exact hpos hc
  · rw [if_neg hc, if_neg hc]
    exact hneg hc

/-- The block that is returned is the transform of the operand by RK and SBOX (R91, R92). -/
theorem DiffersOnlyInHidden.transformCommand (order : RoundKeyOrder) (d : Block) :
    DiffersOnlyInHidden s k e tr (transformCommand order d s) (transformCommand order d (s.vary k e tr)) := by
  refine .requireReady ?_
  simp only [unloads_transform _ _ order d]
  exact .complete _ (u := { s with tr := runTransform s.rk s.sbox order d s.tr }) rfl rfl (by rintro rfl; rfl)

/-- The pad step writes NBLK before the blocks are processed (R100, R107). -/
theorem DiffersOnlyInHidden.encryptFrame {step : BlockStep} {iv : Option Block} (hstep : IgnoresStale step iv.isSome) :
    DiffersOnlyInHidden s k e tr (encryptFrame step iv s) (encryptFrame step iv (s.vary k e tr)) := by
  refine .requireReady (.ite (fun _ => .raise .len rfl rfl id) fun _ => ?_)
  obtain ⟨tr', h, htr⟩ := processMessage_loadIv_vary hstep (s := s.padStep) (tr := ((s.vary k e tr).padStep).tr) rfl k e
  rw [show (s.vary k e tr).padStep = s.padStep.vary k e (s.vary k e tr).padStep.tr from rfl, h]
  exact .complete 0
    (u := { processMessage step (s.padStep.loadIv iv) with len := BitVec.ofNat 16 (s.len.toNat + padlen s.len.toNat) })
    (by simp) (by simp) fun ht => htr (by rw [ht]; rfl)

/-- The unpad step reads no transient register (R101). -/
theorem DiffersOnlyInHidden.unpadStep {u : State} {tr' : Transient} (hkey : u.key = s.key) (herr : u.err = s.err)
    (htr : tr = s.tr → tr' = u.tr) :
    DiffersOnlyInHidden s k e tr (unpadStep u) (unpadStep (u.vary k e tr')) := by
  refine .ite (fun _ => .raise .pad hkey herr htr) fun _ => ?_
  exact .complete 0
    (u := { u with
      tr := { u.tr with padl := BitVec.ofNat 4 (u.msg.readByte (u.len.toNat - 1)).toNat }
      len := BitVec.ofNat 16 (u.len.toNat - (u.msg.readByte (u.len.toNat - 1)).toNat) })
    hkey herr fun ht => by rw [← htr ht]; rfl

/-- NBLK is written from LEN before the blocks are processed, and the pad byte is read from MSG (R101, R108). -/
theorem DiffersOnlyInHidden.decryptFrame {step : BlockStep} {iv : Option Block} (hstep : IgnoresStale step iv.isSome) :
    DiffersOnlyInHidden s k e tr (decryptFrame step iv s) (decryptFrame step iv (s.vary k e tr)) := by
  refine .requireReady (.ite (fun _ => .raise .len rfl rfl id) fun _ => ?_)
  obtain ⟨tr', h, htr⟩ := processMessage_loadIv_vary hstep
    (s := { s with tr := { s.tr with nblk := BitVec.ofNat 14 (s.len.toNat / 8) } })
    (tr := { tr with nblk := BitVec.ofNat 14 (s.len.toNat / 8) }) rfl k e
  have hend := DiffersOnlyInHidden.unpadStep (s := s) (k := k) (e := e) (tr := tr) (by simp) (by simp)
    fun ht => htr (by rw [ht])
  rw [← h] at hend
  exact hend

end

/-- Every command, from two states that differ in KEY, ERR and the transient registers, answers states that differ in
these and RK alone; RDSR, which returns ERR, only if ERR is the same (R16, R22, R31). -/
theorem exec_differsOnlyInHidden (i : Instr) (s : State) (k : KeyFile) (e : BitVec 5) (tr : Transient)
    (hi : i = .rdsr → e = s.err) : DiffersOnlyInHidden s k e tr (exec i s) (exec i (s.vary k e tr)) := by
  cases i with
  | nop => exact .complete 0 rfl rfl id
  | rdsr =>
    obtain rfl := hi rfl
    exact .complete _ rfl rfl id
  | clrerr => exact ⟨_, k, s.rk, 0, tr, rfl, rfl, fun h => ⟨h, rfl⟩, fun _ => rfl, id⟩
  | clr =>
    exact ⟨_, Vector.replicate 8 0, Vector.replicate 8 0, e, tr, rfl, rfl, fun _ => ⟨rfl, rfl⟩, id, id⟩
  | init =>
    rw [exec, exec, execInit, execInit]
    refine .requireReady ?_
    exact ⟨_, k, k, e, tr, rfl, rfl, fun h => ⟨h, h⟩, id, id⟩
  | ldk j w =>
    rw [exec, exec, execLdk, execLdk]
    split
    · next hj =>
      refine .requireReady ?_
      exact ⟨_, k.set j w, s.rk, e, tr, rfl, rfl, fun h => ⟨congrArg (·.set j w) h, rfl⟩, id, id⟩
    · exact .raise .ill rfl rfl id
  | lds t n v =>
    rw [exec, exec, execLds, execLds]
    split
    · exact .requireReady (.complete 0 rfl rfl id)
    · exact .raise .ill rfl rfl id
  | wrb addr b => exact .ite (fun _ => .complete 0 rfl rfl id) fun _ => .raise .addr rfl rfl id
  | rdb addr => exact .ite (fun _ => .complete _ rfl rfl id) fun _ => .raise .addr rfl rfl id
  | wrq addr q => exact .ite (fun _ => .complete 0 rfl rfl id) fun _ => .raise .addr rfl rfl id
  | rdq addr => exact .ite (fun _ => .complete _ rfl rfl id) fun _ => .raise .addr rfl rfl id
  | setlen len => exact .ite (fun _ => .raise .len rfl rfl id) fun _ => .complete 0 rfl rfl id
  | rndf half subkey =>
    rw [exec, exec, execRndf, execRndf]
    exact .requireReady (.complete _ rfl rfl id)
  | encblk d => exact .transformCommand .encrypt d
  | decblk d => exact .transformCommand .decrypt d
  | encEcb => exact .encryptFrame stepEcbEncrypt_ignoresStale
  | decEcb => exact .decryptFrame stepEcbDecrypt_ignoresStale
  | encCbc iv => exact .encryptFrame stepCbcEncrypt_ignoresStale
  | decCbc iv => exact .decryptFrame stepCbcDecrypt_ignoresStale
  | encCfb iv => exact .encryptFrame stepCfbEncrypt_ignoresStale
  | decCfb iv => exact .decryptFrame stepCfbDecrypt_ignoresStale
  | encOfb iv => exact .encryptFrame stepOfb_ignoresStale
  | decOfb iv => exact .decryptFrame stepOfb_ignoresStale

/-- A command that answers a next state, run from other hidden values. -/
theorem exec_vary {i : Instr} {s t : State} {k : KeyFile} {e : BitVec 5} {tr : Transient} (h : exec i s = .next t)
    (hi : i = .rdsr → e = s.err) :
    ∃ k' r' e' tr', exec i (s.vary k e tr) = .next { t with key := k', rk := r', err := e', tr := tr' } ∧
      (k = s.key → k' = t.key ∧ r' = t.rk) ∧ (e = s.err → e' = t.err) ∧ (tr = s.tr → tr' = t.tr) := by
  obtain ⟨u, k', r', e', tr', hx, hy, hsame⟩ := exec_differsOnlyInHidden i s k e tr hi
  cases h.symm.trans hx
  exact ⟨k', r', e', tr', hy, hsame⟩

/-- Settles O15: with KEY and ERR the same, only the transient registers may differ. -/
theorem transientsUnobservable : Obligations.TransientsUnobservable := by
  unfold Obligations.TransientsUnobservable
  intro i s t tr h
  obtain ⟨k', r', e', tr', hexec, hkey, herr, -⟩ := exec_vary (k := s.key) (e := s.err) (tr := tr) h fun _ => rfl
  obtain ⟨rfl, rfl⟩ := hkey rfl
  obtain rfl := herr rfl
  exact ⟨tr', hexec⟩

/-- Settles O17: with KEY and the transient registers the same, only ERR may differ, and what RDSR returns. -/
theorem flagsDoNotSteer : Obligations.FlagsDoNotSteer := by
  unfold Obligations.FlagsDoNotSteer
  intro i s t e h
  by_cases hi : i = .rdsr
  · subst hi
    cases h
    exact ⟨e, some ⟨.ok, statusWord s.ready e s.len⟩, rfl, fun hne => absurd rfl hne⟩
  · obtain ⟨k', r', e', tr', hexec, hkey, -, htr⟩ := exec_vary (k := s.key) (e := e) (tr := s.tr) h (absurd · hi)
    obtain ⟨rfl, rfl⟩ := hkey rfl
    obtain rfl := htr rfl
    exact ⟨e', t.rsp, hexec, fun _ => rfl⟩

/-- Settles O18: with ERR and the transient registers the same, only KEY and RK may differ. -/
theorem keyNeverReturned : Obligations.KeyNeverReturned := by
  unfold Obligations.KeyNeverReturned
  intro i s t k h
  obtain ⟨k', r', e', tr', hexec, -, herr, htr⟩ := exec_vary (k := k) (e := s.err) (tr := s.tr) h fun _ => rfl
  obtain rfl := herr rfl
  obtain rfl := htr rfl
  exact ⟨k', r', hexec⟩

end Sys2Proof.Machine
end

section
/-! Byte and block accesses see one little-endian layout (O39, O45; spec/20_memory.md R38, R40): the addresses of the bytes
of an aligned block, lists of byte writes, and reads of one width after writes of the other. -/

namespace Sys2Proof.Machine

/-! ## Addresses and values -/

/-- An address that stays below 2^16 does not wrap (R8). -/
theorem addr_add_toNat {a : Addr} {k : Nat} (h : a.toNat + k < 2 ^ 16) : (a + BitVec.ofNat 16 k).toNat = a.toNat + k := by
  rw [BitVec.toNat_add, BitVec.toNat_ofNat, Nat.add_mod_mod, Nat.mod_eq_of_lt h]

/-- The eight bytes from an address that is a multiple of 8 lie within the 16-bit addresses. -/
theorem addr_add_toNat_of_aligned {a : Addr} (ha : a.toNat % 8 = 0) {k : Nat} (hk : k < 8) :
    (a + BitVec.ofNat 16 k).toNat = a.toNat + k := by
  have := a.isLt
  exact addr_add_toNat (by omega)

/-- Each byte of a valid 8-byte access is a valid byte access (R41). -/
theorem byteAddrValid_of_quad {cfg : Config} {a : Addr} (ha : QuadAddrValid cfg a) {k : Nat} (hk : k < 8) :
    ByteAddrValid cfg (a + BitVec.ofNat 16 k) := by
  obtain ⟨halign, hfit⟩ := ha
  rw [ByteAddrValid, addr_add_toNat_of_aligned halign hk]
  omega

/-- The zero extension of a byte has 56 zero bits above it (R9). -/
theorem zext64_byte (b : Byte) : zext64 b = 0#56 ++ b := by
  apply BitVec.eq_of_toNat_eq
  rw [zext64, BitVec.toNat_setWidth, toNat_append_eq, BitVec.toNat_ofNat]
  have := b.isLt
  omega

theorem blockBytes_le64 (b0 b1 b2 b3 b4 b5 b6 b7 : Byte) :
    blockBytes (le64 b0 b1 b2 b3 b4 b5 b6 b7) = [b0, b1, b2, b3, b4, b5, b6, b7] := by
  obtain ⟨h0, h1, h2, h3, h4, h5, h6, h7⟩ := byteOf_le64 b0 b1 b2 b3 b4 b5 b6 b7
  simp only [blockBytes, h0, h1, h2, h3, h4, h5, h6, h7]

/-- The write of a byte inside a block and the block's other bytes, after a block write (R40). -/
theorem byteOf_readBlock_writeByte_writeBlock {m : Memory} (hm : m.wf) (a : Nat) (v : Block) (k : Nat) (b : Byte) {j : Nat}
    (hj : j < 8) :
    byteOf (((m.writeBlock a v).writeByte (a + k) b).readBlock a) j = if j = k then b else byteOf v j := by
  rw [byteOf_readBlock _ _ _ hj, Memory.readByte_writeByte (Memory.wf_writeBlock hm a v), Memory.readByte_writeBlock hm,
    if_pos (show a ≤ a + j ∧ a + j < a + 8 by omega), Nat.add_sub_cancel_left]
  simp only [Nat.add_left_cancel_iff]

/-! ## A list of byte writes -/

/-- WRB of each byte of a list to ascending addresses writes the list, and touches only MSG and the response. -/
theorem execAll_wrbs {s : State} {a : Addr} {k : Nat} {bs : List Byte} (hbuf : a.toNat + k + bs.length ≤ s.cfg.msgBytes)
    (hadr : a.toNat + k + bs.length ≤ 2 ^ 16) :
    ∃ r, execAll ((bs.zipIdx k).map fun bk => .wrb (a + BitVec.ofNat 16 bk.2) bk.1) s =
      .next { s with msg := s.msg.writeBytes (a.toNat + k) bs, rsp := r } := by
  induction bs generalizing s k with
  | nil => exact ⟨s.rsp, rfl⟩
  | cons b bs ih =>
    rw [List.length_cons] at hbuf hadr
    have hk : (a + BitVec.ofNat 16 k).toNat = a.toNat + k := addr_add_toNat (by omega)
    have hwrb := exec_wrb (s := s) (a := a + BitVec.ofNat 16 k) (by omega) b
    rw [hk] at hwrb
    obtain ⟨r, hr⟩ := ih (s := State.respond { s with msg := s.msg.writeByte (a.toNat + k) b } .ok 0) (k := k + 1)
      (show a.toNat + (k + 1) + bs.length ≤ s.cfg.msgBytes by omega) (by omega)
    exact ⟨r, (execAll_cons hwrb _).trans hr⟩

/-! ## The layout (R38, R40) -/

/-- Settles O39: `le64` is the sum of its bytes, and a byte read after a block write is the block's or as before. -/
theorem blocksAreLittleEndian : Obligations.BlocksAreLittleEndian := by
  unfold Obligations.BlocksAreLittleEndian
  refine ⟨fun m a => ?_, fun m a v x hm => Memory.readByte_writeBlock hm a v x⟩
  rw [Memory.readBlock, le64_toNat]
  simp only [List.sum_range_succ, List.range_zero, List.map_nil, List.sum_nil]
  rw [Nat.add_zero a]
  omega

section
variable {s : State} {a : Addr}

/-- A byte read after a block write returns the block's byte (R40). -/
theorem execAll_wrq_rdb (hwf : s.msg.wf) (ha : QuadAddrValid s.cfg a) (v : Block) {k : Nat} (hk : k < 8) :
    ∃ t, execAll [.wrq a v, .rdb (a + BitVec.ofNat 16 k)] s = .next t ∧ t.rsp = some ⟨.ok, 0#56 ++ byteOf v k⟩ := by
  have hadr := addr_add_toNat_of_aligned ha.1 hk
  have hin := byteAddrValid_of_quad ha hk
  refine ⟨_, (execAll_cons (exec_wrq ha v) _).trans (execAll_single (exec_rdb hin)), ?_⟩
  rw [State.respond_rsp, State.respond_msg, hadr, Memory.readByte_writeBlock hwf, if_pos ⟨by omega, by omega⟩,
    Nat.add_sub_cancel_left, zext64_byte]

/-- A block read after eight byte writes returns the block of the eight bytes (R40): together they are one block write. -/
theorem execAll_wrbs_rdq (hwf : s.msg.wf) (ha : QuadAddrValid s.cfg a) (b : Fin 8 → Byte) :
    ∃ t, execAll (((List.finRange 8).map fun k => .wrb (a + BitVec.ofNat 16 k.val) (b k)) ++ [.rdq a]) s = .next t ∧
      t.rsp = some ⟨.ok, le64 (b 0) (b 1) (b 2) (b 3) (b 4) (b 5) (b 6) (b 7)⟩ := by
  have hlt := a.isLt
  obtain ⟨halign, hfit⟩ := ha
  obtain ⟨r, hr⟩ := execAll_wrbs (s := s) (a := a) (k := 0) (bs := [b 0, b 1, b 2, b 3, b 4, b 5, b 6, b 7]) hfit
    (show a.toNat + 8 ≤ 2 ^ 16 by omega)
  have hwrbs : execAll ((List.finRange 8).map fun k => .wrb (a + BitVec.ofNat 16 k.val) (b k)) s = _ := hr
  rw [← blockBytes_le64] at hwrbs
  refine ⟨_, (execAll_append hwrbs _).trans (execAll_single (exec_rdq ⟨halign, hfit⟩)), ?_⟩
  rw [State.respond_rsp]
  exact congrArg (fun w : Block => some (Response.mk .ok w)) (Memory.readBlock_writeBlock hwf a.toNat _)

/-- A byte write after a block write changes its own byte of a later block read and no other (R40). -/
theorem execAll_wrq_wrb_rdq (hwf : s.msg.wf) (ha : QuadAddrValid s.cfg a) (v : Block) {k : Nat} (hk : k < 8) (b : Byte) :
    ∃ t w, execAll [.wrq a v, .wrb (a + BitVec.ofNat 16 k) b, .rdq a] s = .next t ∧ t.rsp = some ⟨.ok, w⟩ ∧
      ∀ j < 8, byteOf w j = if j = k then b else byteOf v j := by
  have hadr := addr_add_toNat_of_aligned ha.1 hk
  have hin := byteAddrValid_of_quad ha hk
  refine ⟨_, ((s.msg.writeBlock a.toNat v).writeByte (a.toNat + k) b).readBlock a.toNat,
    (execAll_cons (exec_wrq ha v) _).trans ((execAll_cons (exec_wrb ?_ b) _).trans (execAll_single (exec_rdq ?_))),
    ?_, fun j hj => ?_⟩
  · exact hin
  · exact ha
  · simp only [State.respond_rsp, State.respond_msg, hadr]
  · exact byteOf_readBlock_writeByte_writeBlock hwf a.toNat v k b hj

end

/-- Settles O45: one list of commands for each of R40's three sentences. -/
theorem mixedWidthsAgree : Obligations.MixedWidthsAgree := by
  unfold Obligations.MixedWidthsAgree
  intro s a hwf halign hfit
  exact ⟨fun v k hk => execAll_wrq_rdb hwf ⟨halign, hfit⟩ v hk, execAll_wrbs_rdq hwf ⟨halign, hfit⟩,
    fun v k b hk => execAll_wrq_wrb_rdq hwf ⟨halign, hfit⟩ v hk b⟩

end Sys2Proof.Machine
end

section
/-! The decoder, the encoder and the opcode map agree (O1, O2, O3, O4; spec/30_encoding.md R55 to R61). -/

namespace Sys2Proof

/-! ## Decoding the packet of a command -/

theorem formatK_encoded (mk : Nat → Word → Instr) {i : Nat} (hi : i < 8) (w : Word) :
    formatK mk (0#13 ++ BitVec.ofNat 3 i) (0#32 ++ w) = .ok (mk i w) := by
  rw [formatK, if_pos ⟨BitVec.extractLsb'_append_eq_left, BitVec.extractLsb'_append_eq_left⟩,
    BitVec.extractLsb'_append_eq_right, BitVec.extractLsb'_append_eq_right, BitVec.toNat_ofNat, Nat.mod_eq_of_lt hi]

/-- The three fields of an IDX put together as format S has them (R56). -/
theorem idxS_extract (t : BitVec 3) (n : BitVec 4) :
    (0#9 ++ t ++ n).extractLsb' 7 9 = 0 ∧ (0#9 ++ t ++ n).extractLsb' 4 3 = t ∧
      (0#9 ++ t ++ n).extractLsb' 0 4 = n := by
  have ht := t.isLt; have hn := n.isLt
  refine ⟨?_, ?_, ?_⟩ <;>
  · apply BitVec.eq_of_toNat_eq
    simp only [BitVec.extractLsb'_toNat, toNat_append_eq, Nat.shiftRight_eq_div_pow, BitVec.ofNat_eq_ofNat,
      BitVec.toNat_ofNat]
    omega

theorem formatS_encoded (mk : Nat → Nat → Nibble → Instr) {t n : Nat} (ht : t < 8) (hn : n < 16) (v : Nibble) :
    formatS mk (0#9 ++ BitVec.ofNat 3 t ++ BitVec.ofNat 4 n) (0#60 ++ v) = .ok (mk t n v) := by
  obtain ⟨hzero, htable, hentry⟩ := idxS_extract (BitVec.ofNat 3 t) (BitVec.ofNat 4 n)
  rw [formatS, if_pos ⟨hzero, BitVec.extractLsb'_append_eq_left⟩, htable, hentry, BitVec.extractLsb'_append_eq_right,
    BitVec.toNat_ofNat, BitVec.toNat_ofNat, Nat.mod_eq_of_lt ht, Nat.mod_eq_of_lt hn]

theorem formatAB_encoded (mk : Addr → Byte → Instr) (addr : Addr) (b : Byte) :
    formatAB mk addr (0#56 ++ b) = .ok (mk addr b) := by
  refine (if_pos BitVec.extractLsb'_append_eq_left).trans ?_
  rw [BitVec.extractLsb'_append_eq_right]

theorem rndfOperands_append (half subkey : Word) : rndfOperands (half ++ subkey) = .rndf half subkey := by
  rw [rndfOperands, BitVec.extractLsb'_append_eq_left, BitVec.extractLsb'_append_eq_right]

/-- Decoding the packet of a well-formed command gives the command back. -/
theorem decode_encode {i : Instr} (hi : i.WellFormed) : decode (encode i) = .ok i := by
  rw [encode, decode_ofFields]
  cases i with
  | ldk k w => exact formatK_encoded .ldk (of_decide_eq_true hi) w
  | lds t n v =>
    obtain ⟨ht, hn⟩ := Bool.and_eq_true_iff.1 hi
    exact formatS_encoded .lds (of_decide_eq_true ht) (of_decide_eq_true hn) v
  | wrb addr b => exact formatAB_encoded .wrb addr b
  | rndf half subkey => exact congrArg Except.ok (rndfOperands_append half subkey)
  | nop | rdsr | clrerr | clr | init | encEcb | decEcb => rfl
  | rdb | wrq | rdq | setlen => rfl
  | encblk | decblk | encCbc | decCbc | encCfb | decCfb | encOfb | decOfb => rfl

/-! ## What a packet that decodes holds -/

/-- The command is well-formed and its packet has these fields. -/
def Carries (i : Instr) (opc : Byte) (idx : Addr) (dat : Block) : Prop :=
  i.WellFormed ∧ i.opc = opc ∧ i.idxField = idx ∧ i.datField = dat

section
variable {j : Instr} {opc : Byte} {idx : Addr} {dat : Block}

theorem carries_of_formatZ {i : Instr} (hi : Carries i opc 0 0) (h : formatZ i idx dat = .ok j) :
    Carries j opc idx dat := by
  obtain ⟨rfl, rfl, rfl⟩ := formatZ_ok h
  exact hi

theorem carries_of_formatA {mk : Addr → Instr} (hmk : ∀ a, Carries (mk a) opc a 0) (h : formatA mk idx dat = .ok j) :
    Carries j opc idx dat := by
  obtain ⟨rfl, rfl⟩ := formatA_ok h
  exact hmk idx

theorem carries_of_formatD {mk : Block → Instr} (hmk : ∀ d, Carries (mk d) opc 0 d) (h : formatD mk idx dat = .ok j) :
    Carries j opc idx dat := by
  obtain ⟨rfl, rfl⟩ := formatD_ok h
  exact hmk dat

theorem carries_of_formatK (h : formatK .ldk idx dat = .ok j) : Carries j 0x10 idx dat := by
  obtain ⟨rfl, hidx, hdat⟩ := formatK_ok h
  refine ⟨decide_eq_true (BitVec.isLt _), rfl, ?_, zext_extract (n := 32) hdat⟩
  rw [Instr.idxField, BitVec.ofNat_toNat, BitVec.setWidth_eq]
  exact zext_extract (n := 13) hidx

theorem carries_of_formatS (h : formatS .lds idx dat = .ok j) : Carries j 0x11 idx dat := by
  obtain ⟨rfl, hidx, hdat⟩ := formatS_ok h
  refine ⟨Bool.and_eq_true_iff.2 ⟨decide_eq_true (BitVec.isLt _), decide_eq_true (BitVec.isLt _)⟩, rfl, ?_,
    zext_extract (n := 60) hdat⟩
  rw [Instr.idxField, BitVec.ofNat_toNat, BitVec.ofNat_toNat, BitVec.setWidth_eq, BitVec.setWidth_eq]
  exact idxS_fields idx hidx

theorem carries_of_formatAB (h : formatAB .wrb idx dat = .ok j) : Carries j 0x20 idx dat := by
  obtain ⟨rfl, hdat⟩ := formatAB_ok h
  exact ⟨rfl, rfl, rfl, zext_extract (n := 56) hdat⟩

theorem carries_rndfOperands (d : Block) : Carries (rndfOperands d) 0x30 0 d :=
  ⟨rfl, rfl, rfl, BitVec.extractLsb'_append_extractLsb'⟩

/-- A command decoded from fields is well-formed, and the fields are its own. -/
theorem carries_of_decodeFields (h : decodeFields opc idx dat = .ok j) : Carries j opc idx dat := by
  unfold decodeFields at h
  -- One case for each opcode, in the order of the map, grouped by format; the last is the unlisted opcodes.
  split at h
  case h_1 | h_2 | h_3 | h_4 | h_5 | h_16 | h_17 => exact carries_of_formatZ ⟨rfl, rfl, rfl, rfl⟩ h
  case h_6 => exact carries_of_formatK h
  case h_7 => exact carries_of_formatS h
  case h_8 => exact carries_of_formatAB h
  case h_9 | h_11 | h_12 => exact carries_of_formatA (fun _ => ⟨rfl, rfl, rfl, rfl⟩) h
  case h_10 => exact formatAQ_ok h ▸ ⟨rfl, rfl, rfl, rfl⟩
  case h_13 => exact carries_of_formatD carries_rndfOperands h
  case h_14 | h_15 | h_18 | h_19 | h_20 | h_21 | h_22 | h_23 =>
    exact carries_of_formatD (fun _ => ⟨rfl, rfl, rfl, rfl⟩) h
  case h_24 => cases h

end

/-- A packet that decodes to a command has RSV = 0 and the command's fields. -/
theorem decode_ok {cw : Packet} {i : Instr} (h : decode cw = .ok i) :
    cw.rsv = 0 ∧ Carries i cw.opc cw.idx cw.dat := by
  unfold decode at h
  split at h
  · next hrsv => exact ⟨hrsv, carries_of_decodeFields h⟩
  · cases h

/-- Settles O1: each format reads back the fields its commands are written to, and a packet is its four fields. -/
theorem packetRoundTrip : Obligations.PacketRoundTrip := by
  unfold Obligations.PacketRoundTrip
  refine ⟨fun i hi => decode_encode hi, fun cw i h => ?_⟩
  obtain ⟨hrsv, hwf, hopc, hidx, hdat⟩ := decode_ok h
  refine ⟨hwf, ?_⟩
  rw [encode, hopc, hidx, hdat, ← hrsv, ofFields_fields]

/-! ## The masks of the rows, by format -/

/-- The bits of IDX that the command's format marks "0" (R56). -/
def Instr.idxMask : Instr → Addr
  | .ldk _ _ => BitVec.allOnes 13 ++ 0#3
  | .lds _ _ _ => BitVec.allOnes 9 ++ 0#7
  | .wrb _ _ | .rdb _ | .wrq _ _ | .rdq _ | .setlen _ => 0
  | _ => BitVec.allOnes 16

/-- The bits of DAT that the command's format marks "0" (R56). -/
def Instr.datMask : Instr → Block
  | .ldk _ _ => BitVec.allOnes 32 ++ 0#32
  | .lds _ _ _ => BitVec.allOnes 60 ++ 0#4
  | .wrb _ _ => BitVec.allOnes 56 ++ 0#8
  | .wrq _ _ | .rndf _ _ | .encblk _ | .decblk _ | .encCbc _ | .decCbc _ | .encCfb _ | .decCfb _ | .encOfb _
  | .decOfb _ => 0
  | _ => BitVec.allOnes 64

/-- A row's mask is all of OPC and RSV, and the bits of IDX and DAT that the format marks "0". -/
theorem row_mask (i : Instr) :
    i.row.mask = Packet.ofFields (BitVec.allOnes 8) (BitVec.allOnes 8) i.idxMask i.datMask := by
  cases i <;> dsimp only [Instr.row, Instr.idxMask, Instr.datMask] <;> decide

/-- A row's match is the opcode, and 0 in the other fields. -/
theorem row_pattern (i : Instr) : i.row.pattern = Packet.ofFields i.opc 0 0 0 := by
  cases i <;> dsimp only [Instr.row, Instr.opc] <;> decide

/-- The bits of the two fields that the command's format marks "0" are 0. -/
def Instr.MustBeZero (i : Instr) (idx : Addr) (dat : Block) : Prop :=
  idx &&& i.idxMask = 0 ∧ dat &&& i.datMask = 0

/-- The mask of the upper `n` bits keeps nothing of a value exactly when its upper `n` bits are 0. -/
theorem masked_high_iff {n m : Nat} {x : BitVec (n + m)} :
    x &&& (BitVec.allOnes n ++ 0#m) = 0 ↔ x.extractLsb' m n = 0 := by
  constructor
  · intro h
    have hhigh := congrArg (BitVec.extractLsb' m n) h
    simpa [BitVec.extractLsb'_and, BitVec.extractLsb'_append_eq_left] using hhigh
  · intro h
    rw [← zext_extract h, BitVec.and_append, BitVec.zero_and, BitVec.and_zero, BitVec.zero_append_zero]
    rfl

/-- The mask of the upper `n` bits keeps nothing of a zero extension by `n` bits. -/
theorem masked_zext {n m : Nat} (x : BitVec m) : (0#n ++ x) &&& (BitVec.allOnes n ++ 0#m) = 0 :=
  masked_high_iff.2 BitVec.extractLsb'_append_eq_left

/-- The fields of a command's packet have the must-be-zero bits at 0. -/
theorem mustBeZero_fields (i : Instr) : i.MustBeZero i.idxField i.datField := by
  cases i with
  | ldk k w => exact ⟨masked_zext (n := 13) _, masked_zext (n := 32) _⟩
  | lds t n v => exact ⟨(masked_high_iff (n := 9)).2 (idxS_extract _ _).1, masked_zext (n := 60) _⟩
  | wrb addr b => exact ⟨BitVec.and_zero, masked_zext (n := 56) _⟩
  | nop | rdsr | clrerr | clr | init | encEcb | decEcb => exact ⟨BitVec.zero_and, BitVec.zero_and⟩
  | rdb | rdq | setlen => exact ⟨BitVec.and_zero, BitVec.zero_and⟩
  | wrq => exact ⟨BitVec.and_zero, BitVec.and_zero⟩
  | rndf | encblk | decblk | encCbc | decCbc | encCfb | decCfb | encOfb | decOfb =>
    exact ⟨BitVec.zero_and, BitVec.and_zero⟩

/-- Fields whose must-be-zero bits are 0 decode, under a listed opcode, to a command of the opcode's row. -/
theorem decodeFields_of_mustBeZero {i : Instr} {idx : Addr} {dat : Block} (h : i.MustBeZero idx dat) :
    ∃ j, decodeFields i.opc idx dat = .ok j ∧ j.row = i.row := by
  obtain ⟨hidx, hdat⟩ := h
  cases i with
  | ldk k w =>
    exact ⟨_, if_pos ⟨(masked_high_iff (n := 13)).1 hidx, (masked_high_iff (n := 32)).1 hdat⟩, rfl⟩
  | lds t n v =>
    exact ⟨_, if_pos ⟨(masked_high_iff (n := 9)).1 hidx, (masked_high_iff (n := 60)).1 hdat⟩, rfl⟩
  | wrb addr b => exact ⟨_, if_pos ((masked_high_iff (n := 56)).1 hdat), rfl⟩
  | nop | rdsr | clrerr | clr | init | encEcb | decEcb =>
    exact ⟨_, if_pos ⟨BitVec.and_allOnes.symm.trans hidx, BitVec.and_allOnes.symm.trans hdat⟩, rfl⟩
  | rdb | rdq | setlen => exact ⟨_, if_pos (BitVec.and_allOnes.symm.trans hdat), rfl⟩
  | wrq => exact ⟨_, rfl, rfl⟩
  | rndf | encblk | decblk | encCbc | decCbc | encCfb | decCfb | encOfb | decOfb =>
    exact ⟨_, if_pos (BitVec.and_allOnes.symm.trans hidx), rfl⟩

/-! ## Packets against rows -/

theorem and_ofFields (cw : Packet) (o r : Byte) (i : Addr) (d : Block) :
    cw &&& Packet.ofFields o r i d = Packet.ofFields (cw.opc &&& o) (cw.rsv &&& r) (cw.idx &&& i) (cw.dat &&& d) := by
  conv_lhs => rw [← ofFields_fields cw]
  rw [Packet.ofFields, Packet.ofFields, Packet.ofFields, BitVec.and_append, BitVec.and_append, BitVec.and_append]

theorem ofFields_inj {o r o' r' : Byte} {i i' : Addr} {d d' : Block} :
    Packet.ofFields o r i d = Packet.ofFields o' r' i' d' ↔ o = o' ∧ r = r' ∧ i = i' ∧ d = d' := by
  constructor
  · intro h
    have hopc := congrArg Packet.opc h
    have hrsv := congrArg Packet.rsv h
    have hidx := congrArg Packet.idx h
    have hdat := congrArg Packet.dat h
    rw [opc_ofFields, opc_ofFields] at hopc
    rw [rsv_ofFields, rsv_ofFields] at hrsv
    rw [idx_ofFields, idx_ofFields] at hidx
    rw [dat_ofFields, dat_ofFields] at hdat
    exact ⟨hopc, hrsv, hidx, hdat⟩
  · rintro ⟨rfl, rfl, rfl, rfl⟩
    rfl

/-- A packet matches a row when it has the row's opcode, RSV = 0, and the must-be-zero bits of its format at 0. -/
theorem matches_row_iff (cw : Packet) (i : Instr) :
    cw &&& i.row.mask = i.row.pattern ↔ cw.opc = i.opc ∧ cw.rsv = 0 ∧ i.MustBeZero cw.idx cw.dat := by
  rw [row_mask, row_pattern, and_ofFields, ofFields_inj, BitVec.and_allOnes, BitVec.and_allOnes, Instr.MustBeZero]

/-- The must-be-zero bits of a packet by the row's mask, without OPC and RSV. -/
theorem masked_fields_iff (cw : Packet) (i : Instr) :
    cw &&& (i.row.mask &&& 0x0000FFFFFFFFFFFFFFFFFFFF) = 0 ↔ i.MustBeZero cw.idx cw.dat := by
  have hlow : (0x0000FFFFFFFFFFFFFFFFFFFF : Packet) =
      Packet.ofFields 0 0 (BitVec.allOnes 16) (BitVec.allOnes 64) := by decide
  have hzero : (0 : Packet) = Packet.ofFields 0 0 0 0 := by decide
  have hmask : i.row.mask &&& Packet.ofFields 0 0 (BitVec.allOnes 16) (BitVec.allOnes 64) =
      Packet.ofFields 0 0 i.idxMask i.datMask := by
    simp only [row_mask, and_ofFields, opc_ofFields, rsv_ofFields, idx_ofFields, dat_ofFields, BitVec.and_allOnes]
    rfl
  rw [hlow, hmask, hzero, and_ofFields, ofFields_inj, Instr.MustBeZero]
  simp only [BitVec.ofNat_eq_ofNat, BitVec.and_zero, true_and]

theorem row_opc (i : Instr) : i.row.pattern.extractLsb' 88 8 = i.opc := by
  rw [row_pattern]
  exact opc_ofFields _ _ _ _

/-- Every row of the map is the row of a command. -/
theorem exists_row_of_mem {r : OpcodeRow} (h : r ∈ opcodeTable) : ∃ i : Instr, i.row = r := by
  obtain ⟨i, -, hi⟩ := List.mem_map.1 h
  exact ⟨i, hi⟩

/-- The opcodes of the map differ, so a row is known by its opcode (R58): both commands' rows are that of the packet of
the opcode alone. -/
theorem row_eq_of_opc_eq {i j : Instr} (h : i.opc = j.opc) : i.row = j.row := by
  obtain ⟨k, hi, hki⟩ := decodeFields_of_mustBeZero (i := i) ⟨BitVec.zero_and, BitVec.zero_and⟩
  obtain ⟨l, hj, hlj⟩ := decodeFields_of_mustBeZero (i := j) ⟨BitVec.zero_and, BitVec.zero_and⟩
  rw [h] at hi
  cases hi.symm.trans hj
  exact hki.symm.trans hlj

theorem row_mem_opcodeTable (i : Instr) : i.row ∈ opcodeTable := by
  have hopc : i.opc ∈ oneOfEach.map Instr.opc := by cases i <;> dsimp only [Instr.opc] <;> decide
  obtain ⟨j, hj, hji⟩ := List.mem_map.1 hopc
  exact row_eq_of_opc_eq hji ▸ List.mem_map_of_mem hj

/-- A packet that decodes matches its command's row. -/
theorem matches_row_of_decode_ok {cw : Packet} {i : Instr} (h : decode cw = .ok i) :
    cw &&& i.row.mask = i.row.pattern := by
  obtain ⟨hrsv, -, hopc, hidx, hdat⟩ := decode_ok h
  exact (matches_row_iff cw i).2 ⟨hopc.symm, hrsv, hidx ▸ hdat ▸ mustBeZero_fields i⟩

/-- A packet that matches a row of the map decodes to a command of that row. -/
theorem decode_of_matches_row {cw : Packet} {r : OpcodeRow} (hr : r ∈ opcodeTable) (h : cw &&& r.mask = r.pattern) :
    ∃ i, decode cw = .ok i ∧ i.row = r := by
  obtain ⟨i, rfl⟩ := exists_row_of_mem hr
  obtain ⟨hopc, hrsv, hzero⟩ := (matches_row_iff cw i).1 h
  rw [decode, if_pos hrsv, hopc]
  exact decodeFields_of_mustBeZero hzero

/-- Settles O2: a packet decodes exactly when it matches a row, to a command of that row, and decodes to one command. -/
theorem decoderFollowsOpcodeMap : Obligations.DecoderFollowsOpcodeMap := by
  unfold Obligations.DecoderFollowsOpcodeMap
  refine ⟨rfl, fun cw i h => ⟨row_mem_opcodeTable i, matches_row_of_decode_ok h⟩, fun cw r => decode_of_matches_row,
    fun cw r r' hr hr' h h' => ?_, fun cw hno => ?_⟩
  · obtain ⟨i, hi, rfl⟩ := decode_of_matches_row hr h
    obtain ⟨j, hj, rfl⟩ := decode_of_matches_row hr' h'
    cases hi.symm.trans hj
    rfl
  · rcases hd : decode cw with e | i
    · exact ⟨e, rfl⟩
    · exact absurd (matches_row_of_decode_ok hd) (hno _ (row_mem_opcodeTable i))

/-! ## Illegal packets (R60) -/

/-- R60: a packet is illegal in exactly the three cases (a), (b), (c). -/
theorem decode_error_iff (cw : Packet) :
    (∃ e, decode cw = .error e) ↔
      ((∀ r ∈ opcodeTable, cw.opc ≠ r.pattern.extractLsb' 88 8) ∨ cw.rsv ≠ 0 ∨
        ∃ r ∈ opcodeTable, cw.opc = r.pattern.extractLsb' 88 8 ∧
          cw &&& (r.mask &&& 0x0000FFFFFFFFFFFFFFFFFFFF) ≠ 0) := by
  constructor
  · rintro ⟨e, he⟩
    by_contra! hcases
    obtain ⟨⟨r, hr, hopc⟩, hrsv, hzero⟩ := hcases
    have hmasked := hzero r hr hopc
    obtain ⟨i, rfl⟩ := exists_row_of_mem hr
    have hmatch := (matches_row_iff cw i).2 ⟨hopc.trans (row_opc i), hrsv, (masked_fields_iff cw i).1 hmasked⟩
    obtain ⟨j, hj, -⟩ := decode_of_matches_row hr hmatch
    cases he.symm.trans hj
  · intro hcases
    rcases hd : decode cw with e | i
    · exact ⟨e, rfl⟩
    obtain ⟨hopc, hrsv, hzero⟩ := (matches_row_iff cw i).1 (matches_row_of_decode_ok hd)
    rcases hcases with hno | hres | ⟨r, hr, hropc, hone⟩
    · exact absurd (hopc.trans (row_opc i).symm) (hno _ (row_mem_opcodeTable i))
    · exact absurd hrsv hres
    · obtain ⟨j, rfl⟩ := exists_row_of_mem hr
      have hrow : i.row = j.row := row_eq_of_opc_eq (hopc.symm.trans (hropc.trans (row_opc j)))
      exact absurd (hrow ▸ (masked_fields_iff cw i).2 hzero) hone

open Machine in
/-- Settles O3: the three cases, and the step that accepts an illegal packet is the error entry with ILL. -/
theorem illegalPacketsRefused : Obligations.IllegalPacketsRefused := by
  unfold Obligations.IllegalPacketsRefused
  refine ⟨decode_error_iff, fun s c rest e hin hrst hvalid hidle hdec => ?_⟩
  rw [step_accept hin hrst hvalid hidle, runPacket, hdec]
  exact cleanRefusal_errorEntry _ .ill

/-- Settles O4, by decoding each packet. -/
theorem decodeKnownPackets : Obligations.DecodeKnownPackets := by
  unfold Obligations.DecodeKnownPackets
  decide

end Sys2Proof
end

section
/-! The port: the step that accepts a packet (O5), the handshake (O6), and the response of every command (O7). -/

namespace Sys2Proof.Machine

/-! ## The step that accepts a packet -/

/-- A legal packet presented to an idle CORE is executed in the step that accepts it (R53 a). -/
theorem step_accept_ok {s : State} {c : PortInput} {rest : List PortInput} {i : Instr} (h : s.inputs = c :: rest)
    (hr : c.rstN = true) (hv : c.cmdValid = true) (hp : s.phase = .idle) (hd : decode c.cmd = .ok i) :
    step s = exec i { s with inputs := rest, phase := .busy, inFlight := couldWrite s.len i } := by
  rw [step_accept h hr hv hp, runPacket, hd]
  rfl

theorem decode_of_decodeTableWord {nbits w : Nat} {i : Instr} (h : decodeTableWord nbits w = some i) :
    decode (BitVec.ofNat 96 (w % 2 ^ nbits)) = .ok i := by
  unfold decodeTableWord at h
  split at h
  · next hd => cases h; exact hd
  · cases h

/-- Settles O5: a probed word is a packet presented to a state that holds no response, so both clauses are one step. -/
theorem stepRunsDecodedCommand : Obligations.StepRunsDecodedCommand := by
  unfold Obligations.StepRunsDecodedCommand
  refine ⟨fun s c rest i => step_accept_ok, fun s nbits w i hp hrsp hd => ?_⟩
  have hstep := step_accept_ok (s := s.withFetchWord nbits w) rfl rfl rfl rfl (decode_of_decodeTableWord hd)
  rw [State.withFetchWord, State.presented, deliver_none hrsp] at hstep ⊢
  exact hstep

/-! ## The handshake -/

/-- No packet is presented and no response is held: the edge only uses up the host's signals. -/
theorem step_idle {s : State} {c : PortInput} {rest : List PortInput} (h : s.inputs = c :: rest)
    (hr : c.rstN = true) (hv : c.cmdValid = false) (hrsp : s.rsp = none) :
    step s = .next { s with inputs := rest } := by
  simp [step, portStep, h, clockEdge, hr, hv, hrsp, State.outputs]

/-- In BUSY the host takes the response (R53 b). -/
theorem step_deliver {s : State} {c : PortInput} {rest : List PortInput} {r : Response} (h : s.inputs = c :: rest)
    (hr : c.rstN = true) (hp : s.phase = .busy) (hrsp : s.rsp = some r) (hd : c.rspReady = true) :
    step s = .next
      { s with inputs := rest, phase := .idle, rsp := none, inFlight := none, delivered := s.delivered ++ [r] } := by
  simp [step, portStep, h, clockEdge, hr, hp, hrsp, hd, State.outputs, State.deliver]

theorem outputs_cmdReady (s : State) (rstN : Bool) :
    (s.outputs rstN).cmdReady = true ↔ rstN = true ∧ s.phase = .idle := by
  simp [State.outputs]

theorem outputs_rspValid (s : State) (rstN : Bool) :
    (s.outputs rstN).rspValid = true ↔ rstN = true ∧ ∃ r, s.rsp = some r := by
  simp [State.outputs, Option.isSome_iff_exists]

theorem outputs_rsp {s : State} {rstN : Bool} {r : Response} (hr : rstN = true) (hrsp : s.rsp = some r) :
    (s.outputs rstN).rsp = some r.bits := by
  simp [State.outputs, hr, hrsp]

/-- Settles O6: a response waits or is delivered, an idle CORE stays, and the outputs show PHASE and the response. -/
theorem portHandshake : Obligations.PortHandshake := by
  unfold Obligations.PortHandshake
  refine ⟨fun s c rest r hin hrst hbusy hrsp => ⟨fun hwait => ?_, fun htake => ?_⟩,
    fun s c rest hin hrst hnone _ hrsp => step_idle hin hrst hnone hrsp, fun s => step_nil,
    fun s rstN => ⟨outputs_cmdReady s rstN, outputs_rspValid s rstN, fun r => outputs_rsp⟩,
    fun r => ⟨BitVec.extractLsb'_append_eq_left, BitVec.extractLsb'_append_eq_right⟩, by decide⟩
  · exact step_wait hin hrst hwait hbusy
  · exact step_deliver hin hrst hbusy hrsp htake

/-! ## Every command responds -/

/-- Every command answers a next state with one response, whose data is 0 unless it completed. -/
theorem exec_responds (i : Instr) (s : State) :
    ∃ t r, exec i s = .next t ∧ t.rsp = some r ∧ SamePort s t ∧ (r.code ≠ .ok → r.rdat = 0) := by
  rcases exec_cases i s with ⟨c, -, e⟩ | ⟨u, v, e, hport, -⟩ | ⟨tr, m, e⟩
  · exact ⟨_, _, e, rfl, samePort_refl s, fun _ => rfl⟩
  · exact ⟨_, _, e, rfl, hport, fun hne => absurd rfl hne⟩
  · exact ⟨_, _, e, rfl, samePort_refl s, fun _ => rfl⟩

/-- Settles O7: of the ways a step can go only an accepted command could stop, and every command responds. -/
theorem everyCommandResponds : Obligations.EveryCommandResponds := by
  unfold Obligations.EveryCommandResponds
  refine ⟨exec_responds, fun s => ?_⟩
  rcases step_cases s with ⟨-, e⟩ | ⟨c, rest, -, hedge⟩
  · exact ⟨_, e⟩
  · rcases hedge with ⟨-, e⟩ | ⟨-, -, -, ⟨-, -, e⟩ | ⟨i, -, e⟩⟩ | ⟨-, -, -, -, e⟩ | ⟨-, e⟩
    · exact ⟨_, e⟩
    · exact ⟨_, e⟩
    · obtain ⟨t, -, ht, -⟩ := exec_responds i (State.accept { s with inputs := rest } (couldWrite s.len i))
      exact ⟨t, e.trans ht⟩
    · exact ⟨_, e⟩
    · exact ⟨_, e⟩

end Sys2Proof.Machine
end

section
/-! The commands that load the cipher (O22) and the command lists CONSTRUCT and LDMSG of R63 (O55, O56). -/

namespace Sys2Proof.Machine

/-! ## Loading a key word and a table entry -/

theorem exec_ldk {s : State} (hready : s.ready = false) {i : Nat} (hi : i < 8) (w : Word) :
    exec (.ldk i w) s = .next (State.respond { s with key := s.key.set i w } .ok 0) := by
  rw [exec, execLdk, dif_pos hi, requireReady_pos hready]
  rfl

theorem exec_lds {s : State} (hready : s.ready = false) {t n : Nat} (ht : t < 8) (hn : n < 16) (v : Nibble) :
    exec (.lds t n v) s =
      .next (State.respond { s with sbox := s.sbox.set t ((s.sbox.get ⟨t, ht⟩).set n v) } .ok 0) := by
  rw [exec, execLds, dif_pos ⟨ht, hn⟩, requireReady_pos hready]
  rfl

theorem exec_init {s : State} (hready : s.ready = false) :
    exec .init s = .next (State.respond { s with rk := s.key, ready := true } .ok 0) := by
  rw [exec, execInit, requireReady_pos hready]
  rfl

theorem exec_ldk_ill (s : State) {i : Nat} (hi : ¬i < 8) (w : Word) :
    exec (.ldk i w) s = .next (s.errorEntry .ill) := by
  rw [exec, execLdk, dif_neg hi]
  rfl

theorem exec_lds_ill (s : State) {t n : Nat} (h : ¬(t < 8 ∧ n < 16)) (v : Nibble) :
    exec (.lds t n v) s = .next (s.errorEntry .ill) := by
  rw [exec, execLds, dif_neg h]
  rfl

/-- Settles O22: an index out of its field is the error entry with ILL. -/
theorem unencodableIndexRefused : Obligations.UnencodableIndexRefused := by
  unfold Obligations.UnencodableIndexRefused
  refine ⟨fun s i w hi => ?_, fun s t n v h => ?_⟩
  · rw [exec_ldk_ill s (Nat.not_lt.2 hi)]
    exact cleanRefusal_errorEntry s .ill
  · rw [exec_lds_ill s (by omega)]
    exact cleanRefusal_errorEntry s .ill

/-! ## CONSTRUCT (R63) -/

/-- LDK of the words at a list of indices writes those words, and touches only KEY and the response. -/
theorem execAll_ldks {s : State} (hready : s.ready = false) (w : Nat → Word) {is : List Nat} (his : ∀ i ∈ is, i < 8) :
    ∃ key r, execAll (is.map fun i => .ldk i (w i)) s = .next { s with key := key, rsp := r } ∧
      ∀ j : Fin 8, key.get j = if j.val ∈ is then w j else s.key.get j := by
  induction is generalizing s with
  | nil => exact ⟨s.key, s.rsp, rfl, fun j => by simp⟩
  | cons i is ih =>
    obtain ⟨hi, his⟩ := List.forall_mem_cons.1 his
    obtain ⟨key, r, hexec, hkey⟩ := ih (s := State.respond { s with key := s.key.set i (w i) } .ok 0) hready his
    refine ⟨key, r, (execAll_cons (exec_ldk hready hi (w i)) _).trans hexec, fun j => ?_⟩
    rw [hkey, State.respond_key, Vector.get_eq_getElem, Vector.getElem_set, ← Vector.get_eq_getElem]
    by_cases hij : i = j.val
    · simp [hij]
    · simp [hij, Ne.symm hij]

/-- LDS of the entries at a list of indices of table `t` writes those entries, and touches only SBOX and the response. -/
theorem execAll_ldss {s : State} (hready : s.ready = false) (v : Nat → Nibble) (t : Fin 8) {ns : List Nat}
    (hns : ∀ n ∈ ns, n < 16) :
    ∃ sbox r, execAll (ns.map fun n => .lds t n (v n)) s = .next { s with sbox := sbox, rsp := r } ∧
      ∀ (j : Fin 8) (m : Fin 16),
        (sbox.get j).get m = if j = t ∧ m.val ∈ ns then v m else (s.sbox.get j).get m := by
  induction ns generalizing s with
  | nil => exact ⟨s.sbox, s.rsp, rfl, fun j m => by simp⟩
  | cons n ns ih =>
    obtain ⟨hn, hns⟩ := List.forall_mem_cons.1 hns
    obtain ⟨sbox, r, hexec, hsbox⟩ := ih (s := State.respond
      { s with sbox := s.sbox.set t ((s.sbox.get t).set n (v n)) } .ok 0) hready hns
    refine ⟨sbox, r, (execAll_cons (exec_lds hready t.isLt hn (v n)) _).trans hexec, fun j m => ?_⟩
    rw [hsbox, State.respond_sbox]
    simp only [Vector.get_eq_getElem, Vector.getElem_set, Fin.val_inj]
    by_cases hjt : j = t
    · subst hjt
      by_cases hnm : n = m.val
      · simp [hnm]
      · simp [hnm, Ne.symm hnm]
    · simp [hjt, Ne.symm hjt]

/-- LDSROW of a list of tables writes every entry of those tables, and touches only SBOX and the response. -/
theorem execAll_ldsrows {s : State} (hready : s.ready = false) (rows : Vector Block 8) (ts : List (Fin 8)) :
    ∃ sbox r, execAll (ts.flatMap fun t => Pseudo.ldsrow t.val (rows.get t)) s =
        .next { s with sbox := sbox, rsp := r } ∧
      ∀ (j : Fin 8) (m : Fin 16), (sbox.get j).get m =
        if j ∈ ts then (rows.get j).extractLsb' (4 * m.val) 4 else (s.sbox.get j).get m := by
  induction ts generalizing s with
  | nil => exact ⟨s.sbox, s.rsp, rfl, fun j m => by simp⟩
  | cons t ts ih =>
    obtain ⟨sbox₁, r₁, hrow, hsbox₁⟩ := execAll_ldss hready (fun n => (rows.get t).extractLsb' (4 * n) 4) t
      (ns := List.range 16) fun n => List.mem_range.1
    obtain ⟨sbox, r, hrows, hsbox⟩ := ih (s := { s with sbox := sbox₁, rsp := r₁ }) hready
    refine ⟨sbox, r, (execAll_append hrow _).trans hrows, fun j m => ?_⟩
    rw [hsbox, hsbox₁]
    by_cases hjt : j = t <;> simp [hjt]

/-- CLR of a state: READY is 0, and of the rest only KEY, RK, SBOX and the response are new (R69). -/
theorem exec_clr_frame (s : State) : ∃ key rk sbox r,
    exec .clr s = .next { s with key := key, rk := rk, sbox := sbox, ready := false, rsp := r } :=
  ⟨_, _, _, _, rfl⟩

/-- Settles O55: CLR makes READY 0, so every load is accepted and writes its own part, and INIT copies KEY to RK. -/
theorem constructBuildsInstance : Obligations.ConstructBuildsInstance := by
  unfold Obligations.ConstructBuildsInstance
  intro s k rows
  obtain ⟨key₀, rk₀, sbox₀, r₀, hclr⟩ := exec_clr_frame s
  obtain ⟨key, r₁, hldkey, hkey⟩ := execAll_ldks
    (s := { s with key := key₀, rk := rk₀, sbox := sbox₀, ready := false, rsp := r₀ }) rfl
    (fun i => k.extractLsb' (32 * i) 32) (is := List.range 8) fun i => List.mem_range.1
  obtain ⟨sbox, r₂, hldsall, hsbox⟩ := execAll_ldsrows
    (s := { s with key := key, rk := rk₀, sbox := sbox₀, ready := false, rsp := r₁ }) rfl rows (List.finRange 8)
  have hloads := (execAll_append ((execAll_append (execAll_single hclr) (Pseudo.ldkey k)).trans hldkey)
    (Pseudo.ldsall rows)).trans hldsall
  have hwords (j : Fin 8) : key.get j = k.extractLsb' (32 * j.val) 32 := by
    rw [hkey, if_pos (List.mem_range.2 j.isLt)]
  have hentries (j : Fin 8) (n : Fin 16) : (sbox.get j).get n = (rows.get j).extractLsb' (4 * n.val) 4 := by
    rw [hsbox, if_pos (List.mem_finRange j)]
  exact ⟨_, (execAll_append hloads _).trans (execAll_single (exec_init rfl)), rfl, rfl,
    fun j => ⟨hwords j, hwords j⟩, hentries, rfl, rfl, fun _ => rfl⟩

/-! ## LDMSG (R63) -/

/-- LDMSG of bytes that fit the buffer writes them from address 0 up, and LEN becomes their number. -/
theorem execAll_ldmsg {s : State} {bytes : List Byte} (hbuf : BufferInv s) (hfit : bytes.length ≤ s.cfg.msgBytes) :
    execAll (Pseudo.ldmsg bytes) s = .next (State.respond
      { s with msg := s.msg.writeBytes 0 bytes, len := BitVec.ofNat 16 bytes.length } .ok 0) := by
  have hsize := hbuf.msgBytes_le
  have hlen : (BitVec.ofNat 16 bytes.length).toNat ≤ s.cfg.msgBytes := (Nat.mod_le _ _).trans hfit
  obtain ⟨r, hwrbs⟩ := execAll_wrbs (s := s) (a := 0) (k := 0) (bs := bytes)
    (show 0 + 0 + bytes.length ≤ s.cfg.msgBytes by omega) (show 0 + 0 + bytes.length ≤ 2 ^ 16 by omega)
  simp only [BitVec.ofNat_eq_ofNat, BitVec.zero_add, BitVec.toNat_ofNat, Nat.zero_mod] at hwrbs
  exact (execAll_append hwrbs _).trans (execAll_single (exec_setlen hlen))

/-- Settles O56: the bytes are one write from address 0 up, and LEN covers exactly them. -/
theorem loadedBytesAreTheMessage : Obligations.LoadedBytesAreTheMessage := by
  unfold Obligations.LoadedBytesAreTheMessage
  intro s bytes hbuf hfit
  have hsize := hbuf.msgBytes_le
  have hlen : (BitVec.ofNat 16 bytes.length).toNat = bytes.length := Nat.mod_eq_of_lt (by omega)
  refine ⟨_, execAll_ldmsg hbuf hfit, rfl, hlen, ?_, fun a ha => ?_, sameInstance_refl s, rfl⟩
  · rw [State.message, State.respond_len, State.respond_msg, hlen, Memory.readBytes_writeBytes hbuf.msgWf]
  · rw [State.respond_msg, Memory.readByte_writeBytes hbuf.msgWf, if_neg (by omega)]

end Sys2Proof.Machine
end

section
/-! Building and erasing the cipher instance (O23 to O26; spec/40_construction_keyschedule.md R66 to R70), with the
life-cycle check of every command that has one (R135), and the order in which the rounds take the subkeys (O27; R71,
R72). -/

namespace Sys2Proof.Machine

/-! ## One entry of KEY and of SBOX -/

/-- A vector read after one entry was written (the loads of R66 and R67). -/
theorem vector_get_set {α : Type} {n i : Nat} (xs : Vector α n) (hi : i < n) (x : α) (j : Fin n) :
    (xs.set i x hi).get j = if j.val = i then x else xs.get j := by
  simp only [Vector.get_eq_getElem, Vector.getElem_set, eq_comm (a := i)]

/-- SBOX after one entry of one table was written: that entry is new, every other one is as it was (R67). -/
theorem SboxFile.get_get_setEntry (sbox : SboxFile) {t n : Nat} (ht : t < 8) (hn : n < 16) (v : Nibble) (j : Fin 8)
    (m : Fin 16) :
    ((sbox.set t ((sbox.get ⟨t, ht⟩).set n v)).get j).get m =
      if j.val = t ∧ m.val = n then v else (sbox.get j).get m := by
  rw [vector_get_set]
  by_cases hj : j.val = t
  · subst hj
    simp [vector_get_set]
  · simp [hj]

/-! ## The life-cycle check -/

theorem transformCommand_state {s : State} (h : s.ready ≠ true) (order : RoundKeyOrder) (d : Block) :
    transformCommand order d s = .next (s.errorEntry .state) := requireReady_neg h _

theorem encryptFrame_state {s : State} (h : s.ready ≠ true) (step : BlockStep) (iv : Option Block) :
    encryptFrame step iv s = .next (s.errorEntry .state) := requireReady_neg h _

theorem decryptFrame_state {s : State} (h : s.ready ≠ true) (step : BlockStep) (iv : Option Block) :
    decryptFrame step iv s = .next (s.errorEntry .state) := requireReady_neg h _

/-- A command that a packet can carry is refused with STATE where READY is not what it needs (R135). -/
theorem exec_state_of_needsReady {i : Instr} {s : State} {b : Bool} (hi : i.WellFormed) (hb : needsReady i = some b)
    (h : s.ready ≠ b) : exec i s = .next (s.errorEntry .state) := by
  cases i with
  | nop | rdsr | clrerr | clr | wrb | rdb | wrq | rdq | setlen => cases hb
  | ldk k w =>
    cases hb
    rw [exec, execLdk, dif_pos (of_decide_eq_true hi)]
    exact requireReady_neg h _
  | lds t n v =>
    cases hb
    have hindices : t < 8 ∧ n < 16 := by simpa [Instr.WellFormed, Instr.wellFormed] using hi
    rw [exec, execLds, dif_pos hindices]
    exact requireReady_neg h _
  | init =>
    cases hb
    rw [exec, execInit]
    exact requireReady_neg h _
  | rndf =>
    cases hb
    exact requireReady_neg h _
  | encblk | decblk =>
    cases hb
    exact transformCommand_state h _ _
  | encEcb | encCbc | encCfb | encOfb =>
    cases hb
    exact encryptFrame_state h _ _
  | decEcb | decCbc | decCfb | decOfb =>
    cases hb
    exact decryptFrame_state h _ _

theorem cleanRefusal_state_of_needsReady {i : Instr} {s : State} {b : Bool} (hi : i.WellFormed)
    (hb : needsReady i = some b) (h : s.ready ≠ b) : CleanRefusal (exec i s) s .state := by
  rw [exec_state_of_needsReady hi hb h]
  exact cleanRefusal_errorEntry s .state

/-! ## LDK, LDS, INIT, CLR -/

/-- Settles O23: LDK is one write to KEY where READY = 0, and the error entry with STATE where READY = 1. -/
theorem ldkWritesOneWord : Obligations.LdkWritesOneWord := by
  unfold Obligations.LdkWritesOneWord
  refine fun s i w hi => ⟨fun hready => ?_, fun hready => ?_⟩
  · exact completes_of (exec_ldk hready hi w) (samePort_refl s)
      ⟨vector_get_set s.key hi w, rfl, rfl, rfl, rfl, rfl, sameBytes_refl s⟩
  · exact cleanRefusal_state_of_needsReady (decide_eq_true hi) rfl (by simp [hready])

/-- Settles O24: LDS is one write to SBOX where READY = 0, and the error entry with STATE where READY = 1. -/
theorem ldsWritesOneEntry : Obligations.LdsWritesOneEntry := by
  unfold Obligations.LdsWritesOneEntry
  refine fun s t n v ht hn => ⟨fun hready => ?_, fun hready => ?_⟩
  · exact completes_of (exec_lds hready ht hn v) (samePort_refl s)
      ⟨SboxFile.get_get_setEntry s.sbox ht hn v, rfl, rfl, rfl, rfl, rfl, sameBytes_refl s⟩
  · exact cleanRefusal_state_of_needsReady (by simp [Instr.WellFormed, Instr.wellFormed, ht, hn]) rfl (by simp [hready])

/-- Settles O25: INIT copies KEY to RK as a whole where READY = 0, and is the error entry with STATE where READY = 1. -/
theorem initDerivesRoundKeys : Obligations.InitDerivesRoundKeys := by
  unfold Obligations.InitDerivesRoundKeys
  refine fun s => ⟨fun hready => ?_, fun hready => ?_⟩
  · exact completes_of (exec_init hready) (samePort_refl s)
      ⟨fun _ => rfl, rfl, rfl, rfl, rfl, rfl, sameBytes_refl s⟩
  · exact cleanRefusal_state_of_needsReady rfl rfl (by simp [hready])

/-- The state with its cipher erased (R69): KEY, RK, SBOX and READY at zero. -/
def State.eraseInstance (s : State) : State :=
  { s with
    key := Vector.replicate 8 0
    rk := Vector.replicate 8 0
    sbox := Vector.replicate 8 (Vector.replicate 16 0)
    ready := false }

theorem exec_clr (s : State) : exec .clr s = .next (s.eraseInstance.respond .ok 0) := rfl

theorem instanceErased_eraseInstance (s : State) : InstanceErased s.eraseInstance :=
  instanceErased_of_zero rfl rfl rfl rfl

/-- Settles O26: after CLR the cipher is erased, whatever READY was, and the rest of the state is as it was. -/
theorem clrErasesInstance : Obligations.ClrErasesInstance := by
  unfold Obligations.ClrErasesInstance
  intro s
  obtain ⟨hready, hkey, hrk, hsbox⟩ := instanceErased_eraseInstance s
  exact completes_of (exec_clr s) (samePort_refl s) ⟨hkey, hrk, hsbox, hready, rfl, rfl, sameBytes_refl s⟩

/-! ## The order of the subkeys -/

/-- The straight rounds take the subkeys in ascending order (R71). -/
theorem kidx_straight {order : RoundKeyOrder} {j : Nat} (h : j < straight order) : (kidx order j).val = j % 8 := by
  rw [kidx, if_pos h]

/-- The other rounds take them in descending order (R71). -/
theorem kidx_reversed {order : RoundKeyOrder} {j : Nat} (h : ¬j < straight order) :
    (kidx order j).val = 7 - j % 8 := by
  rw [kidx, if_neg h]

/-- The two orders are mirror images (R72): round `j` is straight in one exactly when round `31 - j` is reversed in the
other. -/
theorem kidx_decrypt_eq_mirror {j : Nat} (hj : j < 32) : kidx .decrypt j = kidx .encrypt (31 - j) := by
  apply Fin.ext
  by_cases h : j < 8
  · have hmirror : ¬31 - j < 24 := by omega
    rw [kidx_straight h, kidx_reversed hmirror]
    omega
  · have hmirror : 31 - j < 24 := by omega
    rw [kidx_reversed h, kidx_straight hmirror]
    omega

/-- Settles O27: the two sequences by evaluating `kidx` in each round, the mirror by the two parts of each order. -/
theorem subkeyOrders : Obligations.SubkeyOrders := by
  unfold Obligations.SubkeyOrders
  exact ⟨by decide, by decide, fun _ => kidx_decrypt_eq_mirror⟩

end Sys2Proof.Machine
end

section
/-! The round function nibble by nibble and bit by bit (O28, O29; spec/41_round_function.md R75 to R80), and the command
that returns it (O33; R81). -/

namespace Sys2Proof.Machine

/-! ## Words by their nibbles -/

/-- Bit `4i + k` of a word is bit `k` of its nibble `i` (R76). -/
theorem getLsbD_nib (v : Word) (i : Nat) {k : Nat} (hk : k < 4) : (nib v i).getLsbD k = v.getLsbD (4 * i + k) := by
  simp [nib, hk]

/-- A word is the sequence of its eight nibbles (R76). -/
theorem word_ext_nib {v w : Word} (h : ∀ i : Fin 8, nib v i.val = nib w i.val) : v = w := by
  apply BitVec.eq_of_getLsbD_eq
  intro b hb
  have hbit := congrArg (·.getLsbD (b % 4)) (h ⟨b / 4, by omega⟩)
  simpa only [getLsbD_nib _ _ (Nat.mod_lt b (by decide : 0 < 4)), Nat.div_add_mod] using hbit

/-! ## Rotation -/

/-- The rotation of R10 is the library's. -/
theorem rotl32_eq_rotateLeft (v : Word) {n : Nat} (hn : n < 32) : rotl32 v n = v.rotateLeft n := by
  rw [BitVec.rotateLeft_eq_rotateLeftAux_of_lt hn, rotl32, BitVec.rotateLeftAux]

/-- Bit `b` of a word is bit `(b + n) mod 32` of the word rotated left by `n` (R78). -/
theorem getLsbD_rotl32 (v : Word) {n b : Nat} (hn : n < 32) (hb : b < 32) :
    (rotl32 v n).getLsbD ((b + n) % 32) = v.getLsbD b := by
  rw [rotl32_eq_rotateLeft v hn, BitVec.getLsbD_rotateLeft_of_le hn]
  by_cases hwrap : b + n < 32
  · simp [Nat.mod_eq_of_lt hwrap, hwrap]
  · have hmod : (b + n) % 32 = b + n - 32 := by omega
    have hlt : b + n - 32 < n := by omega
    have hsource : 32 - n + (b + n - 32) = b := by omega
    simp [hmod, hlt, hsource]

/-! ## The round function -/

/-- Nibble `i` of the substituted word is lane `i` (R77): in each lane, the nibble's place says which side of every `++`
it lies on. -/
theorem nib_substitute (sbox : SboxFile) (t : Word) (i : Fin 8) : nib (substitute sbox t) i.val = lane sbox t i := by
  simp only [nib, substitute, BitVec.extractLsb'_append_eq_ite]
  fin_cases i <;> simp

/-- R79: the sum is substituted, then rotated left by 11. -/
theorem f_eq_rotateLeft (sbox : SboxFile) (half subkey : Word) :
    f sbox half subkey = (substitute sbox (half + subkey)).rotateLeft 11 :=
  rotl32_eq_rotateLeft _ (by decide)

/-- Bit `k` of what table `l` gives for nibble `l` of the sum is bit `(4l + k + 11) mod 32` of `f` (R76 to R78). -/
theorem getLsbD_f (sbox : SboxFile) (half subkey : Word) (l : Fin 8) {k : Nat} (hk : k < 4) :
    (f sbox half subkey).getLsbD ((4 * l.val + k + 11) % 32) = (lane sbox (half + subkey) l).getLsbD k := by
  rw [f, getLsbD_rotl32 _ (by decide) (by omega), ← getLsbD_nib _ _ hk, nib_substitute]

/-- Settles O28: rotation and substitution each place their bits, and `f` reads its operands in their sum only. -/
theorem roundFunctionBits : Obligations.RoundFunctionBits := by
  unfold Obligations.RoundFunctionBits
  intro sbox half subkey
  refine ⟨fun l k hk => getLsbD_f sbox half subkey l hk, ?_, ?_⟩
  · rw [f, f, BitVec.add_comm]
  · rw [f, f, add_zero]

/-! ## Special tables (R80) -/

/-- Identity tables substitute nothing. -/
theorem substitute_identity {sbox : SboxFile} (h : ∀ (j : Fin 8) (n : Fin 16), ((sbox.get j).get n).toNat = n.val)
    (t : Word) : substitute sbox t = t :=
  word_ext_nib fun i => (nib_substitute sbox t i).trans (BitVec.eq_of_toNat_eq (h i _))

/-- All-zero tables substitute zero. -/
theorem substitute_zero {sbox : SboxFile} (h : ∀ (j : Fin 8) (n : Fin 16), (sbox.get j).get n = 0) (t : Word) :
    substitute sbox t = 0 :=
  word_ext_nib fun i => ((nib_substitute sbox t i).trans (h i _)).trans (by simp [nib])

/-- Settles O29: `f` rotates the substituted sum, which is the sum itself and zero for these tables. -/
theorem specialTables : Obligations.SpecialTables := by
  unfold Obligations.SpecialTables
  refine ⟨fun sbox half subkey h => ?_, fun sbox half subkey h => ?_⟩
  · rw [f_eq_rotateLeft, substitute_identity h]
  · rw [f_eq_rotateLeft, substitute_zero h]
    rfl

/-! ## RNDF (R81) -/

/-- The zero extension of a word has 32 zero bits above it (R9). -/
theorem zext64_word (w : Word) : zext64 w = 0#32 ++ w := BitVec.setWidth_eq_append (by decide)

theorem exec_rndf {s : State} (hready : s.ready = true) (half subkey : Word) :
    exec (.rndf half subkey) s = complete (0#32 ++ f s.sbox half subkey) s := by
  rw [exec, execRndf, requireReady_pos hready, zext64_word]

/-- Settles O33: with READY = 1 RNDF completes from the state it was run in; with READY = 0 it needs what is not there. -/
theorem rndfReturnsRoundFunction : Obligations.RndfReturnsRoundFunction := by
  unfold Obligations.RndfReturnsRoundFunction
  refine fun s half subkey => ⟨fun hready => ?_, fun hready => ?_⟩
  · exact completes_of (exec_rndf hready half subkey) (samePort_refl s)
      ⟨sameInstance_refl s, rfl, rfl, sameBytes_refl s⟩
  · exact cleanRefusal_state_of_needsReady rfl rfl (by simp [hready])

end Sys2Proof.Machine
end

section
/-! The Feistel core (O30 to O32; spec/42_feistel_core.md R82 to R90): each order undoes the other, what degenerate
contents make of it, and its datapath; and the commands that return it (O34; R91, R92). -/

namespace Sys2Proof.Machine

/-! ## The halves of a block -/

@[simp] theorem high_append (v w : Word) : high (v ++ w) = v := BitVec.extractLsb'_append_eq_left

@[simp] theorem low_append (v w : Word) : low (v ++ w) = w := BitVec.extractLsb'_append_eq_right

/-- A block is its two halves (R82). -/
theorem high_append_low (b : Block) : high b ++ low b = b := by
  apply BitVec.eq_of_toNat_eq
  simp only [high, low, toNat_append_eq, BitVec.extractLsb'_toNat, Nat.shiftRight_eq_div_pow]
  omega

/-- The halves of the result are the pair after round 31, swapped (R84). -/
theorem halves_transform (rk : KeyFile) (sbox : SboxFile) (order : RoundKeyOrder) (b : Block) :
    (high (transform rk sbox order b), low (transform rk sbox order b)) =
      (feistelRounds rk sbox order (high b, low b) 32).swap := by
  simp [transform, Prod.swap]

/-! ## Each order undoes the other (R86) -/

/-- A round on the swapped pair undoes the round with the same subkey, whatever `f` is. -/
theorem feistelRound_swap_feistelRound (sbox : SboxFile) (k : Word) (hl : Word × Word) :
    feistelRound sbox k (feistelRound sbox k hl).swap = hl.swap := by
  simp [feistelRound, Prod.swap]

/-- With the mirror of the subkey order, `n` rounds on the swapped final pair take it back to the (swapped) pair after
`32 - n` rounds. -/
theorem feistelRounds_swap_of_mirror {order order' : RoundKeyOrder}
    (hmirror : ∀ j < 32, kidx order' j = kidx order (31 - j)) (rk : KeyFile) (sbox : SboxFile) (hl : Word × Word)
    (n m : Nat) (hnm : n + m = 32) :
    feistelRounds rk sbox order' (feistelRounds rk sbox order hl 32).swap n =
      (feistelRounds rk sbox order hl m).swap := by
  induction n generalizing m with
  | zero => rw [← hnm, Nat.zero_add]; rfl
  | succ n ih =>
    have hm : 31 - n = m := by omega
    rw [feistelRounds, ih (m + 1) (by omega), hmirror n (by omega), hm, feistelRounds, feistelRound_swap_feistelRound]

theorem transform_transform_of_mirror {order order' : RoundKeyOrder}
    (hmirror : ∀ j < 32, kidx order' j = kidx order (31 - j)) (rk : KeyFile) (sbox : SboxFile) (b : Block) :
    transform rk sbox order' (transform rk sbox order b) = b := by
  have hback := feistelRounds_swap_of_mirror hmirror rk sbox (high b, low b) 32 0 rfl
  rw [← halves_transform] at hback
  rw [transform, hback]
  exact high_append_low b

/-- R72 read from the other order. -/
theorem kidx_encrypt_eq_mirror {j : Nat} (hj : j < 32) : kidx .encrypt j = kidx .decrypt (31 - j) := by
  rw [kidx_decrypt_eq_mirror (by omega), Nat.sub_sub_self (by omega)]

/-- Settles O30: the two orders mirror each other, so the rounds of one undo those of the other from the last back. -/
theorem blockInvertibility : Obligations.BlockInvertibility := by
  unfold Obligations.BlockInvertibility
  exact fun rk sbox b => ⟨transform_transform_of_mirror (fun _ => kidx_decrypt_eq_mirror) rk sbox b,
    transform_transform_of_mirror (fun _ => kidx_encrypt_eq_mirror) rk sbox b⟩

/-! ## Degenerate contents (R87) -/

/-- Where `f` is zero, the rounds do nothing but swap the halves. -/
theorem feistelRounds_eq_iterate_swap {sbox : SboxFile} (hf : ∀ half subkey, f sbox half subkey = 0) (rk : KeyFile)
    (order : RoundKeyOrder) (hl : Word × Word) (n : Nat) :
    feistelRounds rk sbox order hl n = Prod.swap^[n] hl := by
  induction n with
  | zero => rfl
  | succ n ih => simp [feistelRounds, feistelRound, hf, ih, Function.iterate_succ_apply', Prod.swap]

/-- With equal subkeys the rounds do not depend on the order. -/
theorem feistelRounds_order_irrel {rk : KeyFile} (hrk : ∀ j, rk.get j = rk.get 0) (sbox : SboxFile)
    (order order' : RoundKeyOrder) (hl : Word × Word) (n : Nat) :
    feistelRounds rk sbox order hl n = feistelRounds rk sbox order' hl n := by
  induction n with
  | zero => rfl
  | succ n ih => rw [feistelRounds, feistelRounds, ih, hrk (kidx order n), hrk (kidx order' n)]

/-- Where every subkey is zero and `f` keeps zero, the rounds keep the zero pair. -/
theorem feistelRounds_zero {rk : KeyFile} {sbox : SboxFile} (hrk : ∀ j, rk.get j = 0) (hf : f sbox 0 0 = 0)
    (order : RoundKeyOrder) (n : Nat) : feistelRounds rk sbox order (0, 0) n = (0, 0) := by
  induction n with
  | zero => rfl
  | succ n ih => rw [feistelRounds, ih, hrk, feistelRound, hf, BitVec.xor_self]; rfl

/-- Settles O31: 32 swaps of a zero `f` cancel, equal subkeys make the orders one, and the zero pair stays. -/
theorem degenerateContents : Obligations.DegenerateContents := by
  obtain ⟨hidentity, hzero⟩ := specialTables
  unfold Obligations.DegenerateContents
  refine ⟨fun rk sbox order b h => ?_, fun rk sbox b h => ?_, fun rk sbox hrk h => ?_⟩
  · have heven : Even 32 := by decide
    rw [transform, feistelRounds_eq_iterate_swap fun half subkey => hzero sbox half subkey h,
      Function.Involutive.iterate_even Prod.swap_swap heven]
    rfl
  · have hsame : transform rk sbox .encrypt = transform rk sbox .decrypt :=
      funext fun x => by rw [transform, transform, feistelRounds_order_irrel h sbox .encrypt .decrypt]
    have hundo := (blockInvertibility rk sbox b).1
    exact ⟨congrFun hsame b, by rwa [← hsame] at hundo⟩
  · have hf : f sbox 0 0 = 0 := hidentity sbox 0 0 h
    rw [transform, show (high 0, low 0) = (0, 0) from rfl, feistelRounds_zero hrk hf]
    rfl

/-! ## The datapath (R88 to R90) -/

/-- RND counts the round steps, modulo its 64 values (R89). -/
theorem roundSteps_rnd (rk : KeyFile) (sbox : SboxFile) (n : Nat) (tr : Transient) :
    (roundSteps rk sbox n tr).rnd = tr.rnd + BitVec.ofNat 6 n := by
  induction n generalizing tr with
  | zero => exact (BitVec.add_zero _).symm
  | succ n ih =>
    rw [roundSteps, ih, roundStep_rnd, BitVec.add_assoc, Nat.add_comm n 1, BitVec.ofNat_add]
    rfl

/-- Settles O32: the datapath unloads the transform, and RND counts from the zero that the block load put there. -/
theorem datapathComputesTransform : Obligations.DatapathComputesTransform := by
  unfold Obligations.DatapathComputesTransform
  refine fun rk sbox order x tr => ⟨unloads_transform rk sbox order x tr, fun n hn => ?_⟩
  rw [roundSteps_rnd, blockLoad_rnd, zero_add, BitVec.toNat_ofNat]
  omega

/-! ## ENCBLK and DECBLK (R91, R92) -/

/-- With READY = 1 a block command completes with the transform, and writes the transient registers only. -/
theorem transformCommand_ready {s : State} (hready : s.ready = true) (order : RoundKeyOrder) (d : Block) :
    transformCommand order d s =
      complete (transform s.rk s.sbox order d) { s with tr := runTransform s.rk s.sbox order d s.tr } := by
  rw [transformCommand, requireReady_pos hready]
  exact congrArg (complete · _) (unloads_transform s.rk s.sbox order d s.tr)

/-- A command that comes down to a block command returns its transform where READY = 1. -/
theorem completes_transformCommand {i : Instr} {s : State} {order : RoundKeyOrder} {d : Block}
    (hexec : exec i s = transformCommand order d s) (hready : s.ready = true) :
    Completes i s (transform s.rk s.sbox order d) fun t =>
      SameInstance s t ∧ t.err = s.err ∧ t.len = s.len ∧ SameBytes s t :=
  completes_of (hexec.trans (transformCommand_ready hready order d)) (samePort_refl s)
    ⟨sameInstance_refl s, rfl, rfl, sameBytes_refl s⟩

/-- Settles O34: each is the block command with its order; with READY = 0 it needs what is not there. -/
theorem blockCommandsReturnTransform : Obligations.BlockCommandsReturnTransform := by
  unfold Obligations.BlockCommandsReturnTransform
  refine fun s d => ⟨fun hready => ?_, fun hready => ?_⟩
  · exact ⟨completes_transformCommand rfl hready, completes_transformCommand rfl hready⟩
  · exact ⟨cleanRefusal_state_of_needsReady rfl rfl (by simp [hready]),
      cleanRefusal_state_of_needsReady rfl rfl (by simp [hready])⟩

end Sys2Proof.Machine
end

section
/-! Padding (O35 to O38; spec/43_padding.md R93 to R99): what `pad` appends, how `unpad` takes it off, and the blocks of
`split` as the inverse of `join`. -/

namespace Sys2Proof.Machine

/-! ## The pad length (R93) -/

theorem padlen_bounds (n : Nat) : 1 ≤ padlen n ∧ padlen n ≤ 8 := by
  rw [padlen]
  omega

theorem add_padlen (n : Nat) : n + padlen n = 8 * (n / 8 + 1) := by
  rw [padlen]
  omega

/-- A pad length is a byte value (R94). -/
theorem padByte_toNat (n : Nat) : (BitVec.ofNat 8 (padlen n)).toNat = padlen n :=
  Nat.mod_eq_of_lt ((padlen_bounds n).2.trans_lt (by decide))

/-! ## pad (R94, R95) -/

theorem length_pad (m : List Byte) : (pad m).length = m.length + padlen m.length := by
  rw [pad, List.length_append, padBytes, List.length_replicate]

theorem take_pad (m : List Byte) : (pad m).take m.length = m := List.take_left

theorem drop_pad (m : List Byte) : (pad m).drop m.length = padBytes (padlen m.length) := List.drop_left

theorem getLast?_pad (m : List Byte) : (pad m).getLast? = some (BitVec.ofNat 8 (padlen m.length)) := by
  have hne : padlen m.length ≠ 0 := Nat.one_le_iff_ne_zero.1 (padlen_bounds m.length).1
  rw [pad, List.getLast?_append, padBytes, List.getLast?_replicate, if_neg hne, Option.some_or]

/-- Settles O35: a length and its pad length make whole blocks, and all appended bytes, the last included, are alike. -/
theorem padGuarantees : Obligations.PadGuarantees := by
  unfold Obligations.PadGuarantees
  intro m
  obtain ⟨hpos, hle⟩ := padlen_bounds m.length
  have hblocks := add_padlen m.length
  have hlen := length_pad m
  refine ⟨by omega, by omega, by omega, by omega, take_pad m, ⟨_, getLast?_pad m, ?_⟩, fun b hb => ?_⟩
  · rw [padByte_toNat]
    exact ⟨hpos, hle, hlen⟩
  · rw [drop_pad] at hb
    rw [List.eq_of_mem_replicate hb, padByte_toNat, hlen, Nat.add_sub_cancel_left]

/-! ## unpad (R96, R97) -/

/-- Of a sequence with a last byte, `unpad` reads that byte and the length only (R96). -/
theorem unpad_of_getLast? {m : List Byte} {p : Byte} (hlast : m.getLast? = some p) :
    unpad m = if BadPad p.toNat m.length then none else some (m.take (m.length - p.toNat)) := by
  rw [unpad, hlast]

/-- Settles O36: the last byte counts what `pad` appended, so that what is left is the sequence padded. -/
theorem unpadUndoesPad : Obligations.UnpadUndoesPad := by
  unfold Obligations.UnpadUndoesPad
  intro m
  obtain ⟨hpos, hle⟩ := padlen_bounds m.length
  have hgood : ¬ BadPad (padlen m.length) (m.length + padlen m.length) := by
    rw [BadPad]
    omega
  rw [unpad_of_getLast? (getLast?_pad m), padByte_toNat, length_pad, if_neg hgood, Nat.add_sub_cancel_right, take_pad]

/-- Settles O37: the two cases are those of the last byte's check; a good one removes itself at least. -/
theorem unpadReadsLastByteOnly : Obligations.UnpadReadsLastByteOnly := by
  unfold Obligations.UnpadReadsLastByteOnly
  intro m p
  have hunpad := unpad_of_getLast? (List.getLast?_concat (a := p) (l := m))
  rw [List.length_append, List.length_singleton] at hunpad
  refine ⟨fun hbad => hunpad.trans (if_pos hbad), fun hpos hle hfit => ?_⟩
  have hgood : ¬ BadPad p.toNat (m.length + 1) := by
    rw [BadPad]
    omega
  rw [hunpad, if_neg hgood, List.take_append_of_le_length (by omega)]

/-! ## split and join (R98, R99) -/

theorem split_join (bs : List Block) : split (join bs) = bs := by
  induction bs with
  | nil => rfl
  | cons b bs ih => rw [join, split_blockBytes, ih]

theorem join_split (m : List Byte) (hwhole : m.length % 8 = 0) : join (split m) = m := by
  induction m using split.induct with
  | case1 b0 b1 b2 b3 b4 b5 b6 b7 rest ih =>
    have hrest : rest.length % 8 = 0 := (Nat.add_mod_right rest.length 8).symm.trans hwhole
    rw [split, join, blockBytes_le64, ih hrest]
    rfl
  | case2 m hshort =>
    match m with
    | [] => rfl
    | [_] | [_, _] | [_, _, _] | [_, _, _, _] | [_, _, _, _, _] | [_, _, _, _, _, _] | [_, _, _, _, _, _, _] =>
      exact absurd hwhole (by simp)
    | _ :: _ :: _ :: _ :: _ :: _ :: _ :: _ :: _ => exact (hshort _ _ _ _ _ _ _ _ _ rfl).elim

/-- Every block before the one sought is eight bytes long (R99). -/
theorem getElem?_join (bs : List Block) (i : Nat) {k : Nat} (hk : k < 8) :
    (join bs)[8 * i + k]? = bs[i]?.map (byteOf · k) := by
  induction bs generalizing i with
  | nil => rfl
  | cons b bs ih =>
    cases i with
    | zero =>
      have hbyte : k < (blockBytes b).length := hk
      rw [join, Nat.mul_zero, Nat.zero_add, List.getElem?_append_left hbyte, List.getElem?_eq_getElem hbyte,
        blockBytes_getElem]
      rfl
    | succ i =>
      have hpast : (blockBytes b).length ≤ 8 * (i + 1) + k := by
        rw [blockBytes_length]
        omega
      have hskip : 8 * (i + 1) + k - 8 = 8 * i + k := by omega
      rw [join, List.getElem?_append_right hpast, blockBytes_length, hskip, ih, List.getElem?_cons_succ]

/-- Settles O38: a block and its eight bytes are inverse, block by block, and each byte of `join` has its place. -/
theorem joinInvertsSplit : Obligations.JoinInvertsSplit := by
  unfold Obligations.JoinInvertsSplit
  exact ⟨split_join, join_split, fun bs i _ hk => getElem?_join bs i hk⟩

end Sys2Proof.Machine
end

section
/-! The four modes as functions on blocks (O51, O52; spec/44_modes.md R104 to R106, R119, R120): decryption undoes
encryption, and the OFB keystream of a longer message begins as that of a shorter one. -/

namespace Sys2Proof.Machine

/-! ## Decryption undoes encryption (R119) -/

theorem cbcDecrypt_cbcEncrypt {E D : Block → Block} (hDE : ∀ x, D (E x) = x) (iv : Block) (bs : List Block) :
    cbcDecrypt D iv (cbcEncrypt E iv bs) = bs := by
  induction bs generalizing iv with
  | nil => rfl
  | cons b bs ih => rw [cbcEncrypt, cbcDecrypt, ih, hDE, BitVec.xor_assoc, BitVec.xor_self, BitVec.xor_zero]

theorem cfbDecrypt_cfbEncrypt (E : Block → Block) (iv : Block) (bs : List Block) :
    cfbDecrypt E iv (cfbEncrypt E iv bs) = bs := by
  induction bs generalizing iv with
  | nil => rfl
  | cons b bs ih => rw [cfbEncrypt, cfbDecrypt, ih, ← BitVec.xor_assoc, BitVec.xor_self, BitVec.zero_xor]

/-- The keystream does not depend on the blocks, so that a second xor takes it off (R120). -/
theorem ofbXor_ofbXor (E : Block → Block) (iv : Block) (bs : List Block) : ofbXor E iv (ofbXor E iv bs) = bs := by
  induction bs generalizing iv with
  | nil => rfl
  | cons b bs ih => rw [ofbXor, ofbXor, ih, ← BitVec.xor_assoc, BitVec.xor_self, BitVec.zero_xor]

/-- CFB and OFB decrypt with `E`, so that only ECB and CBC need `D` to undo it. -/
theorem Mode.decrypt_encrypt (mode : Mode) {E D : Block → Block} (hDE : ∀ x, D (E x) = x) (iv : Block)
    (bs : List Block) : mode.decrypt E D iv (mode.encrypt E iv bs) = bs := by
  cases mode with
  | ecb => exact List.map_map.trans (List.map_id'' hDE bs)
  | cbc => exact cbcDecrypt_cbcEncrypt hDE iv bs
  | cfb => exact cfbDecrypt_cfbEncrypt E iv bs
  | ofb => exact ofbXor_ofbXor E iv bs

/-! ## Messages block by block -/

theorem split_join_append (bs : List Block) (rest : List Byte) : split (join bs ++ rest) = bs ++ split rest := by
  induction bs with
  | nil => rfl
  | cons b bs ih => rw [join, List.append_assoc, split_blockBytes, ih, List.cons_append]

theorem join_append (bs bs' : List Block) : join (bs ++ bs') = join bs ++ join bs' := by
  induction bs with
  | nil => rfl
  | cons b bs ih => rw [List.cons_append, join, join, ih, List.append_assoc]

/-- The keystream of more blocks begins with that of the first ones (R106). -/
theorem ofbXor_append (E : Block → Block) (iv : Block) (bs bs' : List Block) :
    ∃ out, ofbXor E iv (bs ++ bs') = ofbXor E iv bs ++ out := by
  induction bs generalizing iv with
  | nil => exact ⟨_, rfl⟩
  | cons b bs ih =>
    obtain ⟨out, h⟩ := ih (E iv)
    exact ⟨out, by rw [List.cons_append, ofbXor, h]; rfl⟩

theorem join_split_pad (m : List Byte) : join (split (pad m)) = pad m := by
  refine join_split _ ?_
  rw [length_pad, add_padlen]
  omega

/-- The message of two OFB encryptions begins with the padded message of the first (R120). -/
theorem ofb_pad_ofb_pad (E : Block → Block) (iv : Block) (m : List Byte) :
    ∃ rest, join (ofbXor E iv (split (pad (join (ofbXor E iv (split (pad m))))))) = pad m ++ rest := by
  obtain ⟨out, h⟩ := ofbXor_append E iv (ofbXor E iv (split (pad m)))
    (split (padBytes (padlen (join (ofbXor E iv (split (pad m)))).length)))
  refine ⟨join out, ?_⟩
  rw [pad, split_join_append, h, ofbXor_ofbXor, join_append, join_split_pad]

end Sys2Proof.Machine
end

section
/-! The sequencing of a mode command (spec/44_modes.md R105, R109 to R118): which block step, IV and subkey order each
command runs, and what processing a whole message leaves in MSG and in the sequencer's registers. -/

namespace Sys2Proof.Machine

/-! ## The block step, the IV and the subkey order of each command -/

def Mode.encryptStep : Mode → BlockStep
  | .ecb => stepEcbEncrypt
  | .cbc => stepCbcEncrypt
  | .cfb => stepCfbEncrypt
  | .ofb => stepOfb

def Mode.decryptStep : Mode → BlockStep
  | .ecb => stepEcbDecrypt
  | .cbc => stepCbcDecrypt
  | .cfb => stepCfbDecrypt
  | .ofb => stepOfb

/-- The IV that a command of the mode loads into FB: none for ECB (R107, R108). -/
def Mode.ivLoaded (iv : Block) : Mode → Option Block
  | .ecb => none
  | .cbc | .cfb | .ofb => some iv

/-- The order in which a decrypt command takes the subkeys: CFB and OFB decrypt with `E` (R105). -/
def Mode.decryptOrder : Mode → RoundKeyOrder
  | .ecb | .cbc => .decrypt
  | .cfb | .ofb => .encrypt

theorem exec_encryptCommand (mode : Mode) (iv : Block) (s : State) :
    exec (mode.encryptCommand iv) s = encryptFrame mode.encryptStep (mode.ivLoaded iv) s := by
  cases mode <;> rfl

theorem exec_decryptCommand (mode : Mode) (iv : Block) (s : State) :
    exec (mode.decryptCommand iv) s = decryptFrame mode.decryptStep (mode.ivLoaded iv) s := by
  cases mode <;> rfl

theorem Mode.decryptOrder_eq (mode : Mode) :
    mode.decryptOrder = if mode = .ecb ∨ mode = .cbc then .decrypt else .encrypt := by
  cases mode <;> rfl

/-! ## What a block step computes -/

/-- With the IV loaded, the step's outputs block after block are `F` of the blocks. -/
def StepRealizes (step : BlockStep) (iv : Option Block) (rk : KeyFile) (sbox : SboxFile)
    (F : List Block → List Block) : Prop :=
  ∃ g, StepComputes step rk sbox g ∧ ∀ fb bs, chain g (iv.getD fb) bs = F bs

section
variable (mode : Mode) (iv : Block) (rk : KeyFile) (sbox : SboxFile)

theorem Mode.encryptStep_realizes : StepRealizes mode.encryptStep (mode.ivLoaded iv) rk sbox
    (mode.encrypt (transform rk sbox .encrypt) iv) := by
  have h := unloads_transform rk sbox .encrypt
  cases mode with
  | ecb => exact ⟨_, stepEcbEncrypt_computes h, fun fb => chain_ecb _ fb⟩
  | cbc => exact ⟨_, stepCbcEncrypt_computes h, fun _ => chain_cbcEncrypt _ iv⟩
  | cfb => exact ⟨_, stepCfbEncrypt_computes h, fun _ => chain_cfbEncrypt _ iv⟩
  | ofb => exact ⟨_, stepOfb_computes h, fun _ => chain_ofb _ iv⟩

theorem Mode.decryptStep_realizes : StepRealizes mode.decryptStep (mode.ivLoaded iv) rk sbox
    (mode.decrypt (transform rk sbox .encrypt) (transform rk sbox .decrypt) iv) := by
  have hE := unloads_transform rk sbox .encrypt
  have hD := unloads_transform rk sbox .decrypt
  cases mode with
  | ecb => exact ⟨_, stepEcbDecrypt_computes hD, fun fb => chain_ecb _ fb⟩
  | cbc => exact ⟨_, stepCbcDecrypt_computes hD, fun _ => chain_cbcDecrypt _ iv⟩
  | cfb => exact ⟨_, stepCfbDecrypt_computes hE, fun _ => chain_cfbDecrypt _ iv⟩
  | ofb => exact ⟨_, stepOfb_computes hE, fun _ => chain_ofb _ iv⟩

end

/-! ## What a block step leaves in ORD, RND and PADL -/

/-- `tr'` holds what a whole transform in the given order leaves in ORD and RND, and the PADL of `tr`. -/
structure TransformRan (order : RoundKeyOrder) (tr tr' : Transient) : Prop where
  ord : tr'.ord = order
  rnd : tr'.rnd.toNat = 32
  padl : tr'.padl = tr.padl

theorem runTransform_ran (rk : KeyFile) (sbox : SboxFile) (order : RoundKeyOrder) (x : Block) (tr : Transient) :
    TransformRan order tr (runTransform rk sbox order x tr) := by
  obtain ⟨hord, -, -, -, -, hpadl⟩ := roundSteps_frame rk sbox 32 (blockLoad order x tr)
  refine ⟨hord, ?_, hpadl⟩
  rw [runTransform, roundSteps_rnd]
  rfl

/-- The block step runs one transform, in the given order. -/
def StepRuns (step : BlockStep) (order : RoundKeyOrder) : Prop :=
  ∀ rk sbox tr x, TransformRan order tr (step rk sbox tr x).1

theorem TransformRan.setFb {order : RoundKeyOrder} {tr tr' : Transient} (h : TransformRan order tr tr') (fb : Block) :
    TransformRan order tr { tr' with fb := fb } := ⟨h.ord, h.rnd, h.padl⟩

theorem TransformRan.of_setTmp {order : RoundKeyOrder} {tr tr' : Transient} {tmp : Block}
    (h : TransformRan order { tr with tmp := tmp } tr') : TransformRan order tr tr' := ⟨h.ord, h.rnd, h.padl⟩

theorem Mode.encryptStep_runs (mode : Mode) : StepRuns mode.encryptStep .encrypt := by
  intro rk sbox tr x
  cases mode with
  | ecb => exact runTransform_ran rk sbox .encrypt x tr
  | cbc => exact (runTransform_ran rk sbox .encrypt (x ^^^ tr.fb) tr).setFb _
  | cfb | ofb => exact (runTransform_ran rk sbox .encrypt tr.fb tr).setFb _

theorem Mode.decryptStep_runs (mode : Mode) : StepRuns mode.decryptStep mode.decryptOrder := by
  intro rk sbox tr x
  cases mode with
  | ecb => exact runTransform_ran rk sbox .decrypt x tr
  | cbc => exact (runTransform_ran rk sbox .decrypt x { tr with tmp := x }).of_setTmp.setFb _
  | cfb | ofb => exact (runTransform_ran rk sbox .encrypt tr.fb tr).setFb _

/-- After one block or more the last transform's ORD and RND stand (R109). -/
theorem processBlocks_ran {step : BlockStep} {order : RoundKeyOrder} (hstep : StepRuns step order) (n : Nat)
    (s : State) : TransformRan order s.tr (processBlocks step (n + 1) s).tr := by
  induction n generalizing s with
  | zero =>
    obtain ⟨hord, hrnd, hpadl⟩ := hstep s.rk s.sbox s.tr (s.msg.readBlock (8 * s.tr.blk.toNat))
    exact ⟨hord, hrnd, hpadl⟩
  | succ n ih =>
    obtain ⟨hord, hrnd, hpadl⟩ := ih (processBlock step s)
    exact ⟨hord, hrnd, hpadl.trans (hstep s.rk s.sbox s.tr _).padl⟩

end Sys2Proof.Machine
end

section
/-! What the mode commands do with a message (O47, O48, O50 to O54; spec/44_modes.md R104 to R121): the message buffer
and the sequencer's registers after the blocks were processed, and from them the ways a mode command ends. -/

namespace Sys2Proof.Machine

/-! ## Bytes of the message buffer -/

theorem Memory.take_readBytes (m : Memory) (a : Nat) {j n : Nat} (h : j ≤ n) :
    (m.readBytes a n).take j = m.readBytes a j := by
  obtain ⟨k, rfl⟩ := Nat.exists_eq_add_of_le h
  rw [Memory.readBytes_append, List.take_left' (Memory.readBytes_length m a j)]

theorem Memory.getElem?_readBytes (m : Memory) (a : Nat) {k n : Nat} (h : k < n) :
    (m.readBytes a n)[k]? = some (m.readByte (a + k)) := by
  rw [List.getElem?_eq_getElem (by rwa [Memory.readBytes_length]), Memory.readBytes_getElem]

theorem Memory.getLast?_readBytes (m : Memory) (a : Nat) {n : Nat} (h : 0 < n) :
    (m.readBytes a n).getLast? = some (m.readByte (a + (n - 1))) := by
  rw [List.getLast?_eq_getElem?, Memory.readBytes_length, Memory.getElem?_readBytes m a (Nat.sub_lt h Nat.one_pos)]

theorem length_padBytes (p : Nat) : (padBytes p).length = p := List.length_replicate

theorem getElem?_pad (m : List Byte) {k : Nat} (h : k < padlen m.length) :
    (pad m)[m.length + k]? = some (BitVec.ofNat 8 (padlen m.length)) := by
  rw [pad, List.getElem?_append_right (Nat.le_add_right _ _), Nat.add_sub_cancel_left, padBytes,
    List.getElem?_replicate_of_lt h]

@[simp] theorem State.message_length (s : State) : s.message.length = s.len.toNat := Memory.readBytes_length _ _ _

/-- The pad step makes the padded message of MSG (R100). -/
theorem readBytes_padStep {s : State} (hwf : s.msg.wf) :
    s.padStep.msg.readBytes 0 (s.len.toNat + padlen s.len.toNat) = pad s.message := by
  have hmessage : s.padStep.msg.readBytes 0 s.len.toNat = s.message := by
    refine Memory.readBytes_congr fun k hk => ?_
    rw [State.padStep_msg, Memory.readByte_writeBytes hwf, if_neg (by omega)]
  have hbytes : s.padStep.msg.readBytes s.len.toNat (padlen s.len.toNat) = padBytes (padlen s.len.toNat) := by
    have hwritten := Memory.readBytes_writeBytes hwf s.len.toNat (padBytes (padlen s.len.toNat))
    rwa [length_padBytes] at hwritten
  rw [Memory.readBytes_append, hmessage, Nat.zero_add, hbytes, pad, State.message_length]

/-! ## Processing a message -/

/-- `m` and `tr` are what MSG and the transient registers of `s` become when `n` blocks are processed to `out`: `out`
stands in their place, the bytes behind it and PADL are as in `s`, and the sequencer has counted (R109). -/
structure Processed (order : RoundKeyOrder) (n : Nat) (out : List Byte) (s : State) (tr : Transient) (m : Memory) :
    Prop where
  wf : m.wf
  bytes : m.readBytes 0 (8 * n) = out
  beyond : ∀ a, 8 * n ≤ a → m.readByte a = s.msg.readByte a
  nblk : tr.nblk.toNat = n
  blk : tr.blk.toNat = n
  ran : TransformRan order s.tr tr

theorem State.loadIv_tr_fb (s : State) (iv : Option Block) : (s.loadIv iv).tr.fb = iv.getD s.tr.fb := by
  cases iv <;> rfl

theorem State.loadIv_tr_padl (s : State) (iv : Option Block) : (s.loadIv iv).tr.padl = s.tr.padl := by
  cases iv <;> rfl

theorem processMessage_processed {step : BlockStep} {g : Block → Block → Block × Block} {order : RoundKeyOrder}
    {s : State} {n : Nat} (hg : StepComputes step s.rk s.sbox g) (hruns : StepRuns step order) (hwf : s.msg.wf)
    (hnblk : s.tr.nblk.toNat = n) (hpos : 0 < n) (hlt : n < 2 ^ 13) :
    Processed order n (join (chain g s.tr.fb (split (s.msg.readBytes 0 (8 * n))))) s (processMessage step s).tr
      (processMessage step s).msg := by
  obtain ⟨hwf', hblk, hnblk', hbeyond, hbytes⟩ :=
    processBlocks_spec n { s with tr := { s.tr with blk := 0 } } 0 hg hwf rfl (by omega)
  obtain ⟨k, rfl⟩ := Nat.exists_eq_add_one.2 hpos
  obtain ⟨hord, hrnd, hpadl⟩ := processBlocks_ran hruns k { s with tr := { s.tr with blk := 0 } }
  rw [processMessage, hnblk]
  refine ⟨hwf', hbytes, fun a ha => hbeyond a (.inr ?_), ?_, hblk.trans (Nat.zero_add _), hord, hrnd, hpadl⟩
  · rwa [Nat.mul_zero, Nat.zero_add]
  · rw [hnblk', hnblk]

/-- The same from a state with the IV loaded, said of the state before the load, in which FB may hold anything. -/
theorem processMessage_loadIv_processed {step : BlockStep} {iv : Option Block} {order : RoundKeyOrder}
    {F : List Block → List Block} {s : State} {n : Nat} (hF : StepRealizes step iv s.rk s.sbox F)
    (hruns : StepRuns step order) (hwf : s.msg.wf) (hnblk : s.tr.nblk.toNat = n) (hpos : 0 < n) (hlt : n < 2 ^ 13) :
    Processed order n (join (F (split (s.msg.readBytes 0 (8 * n))))) s (processMessage step (s.loadIv iv)).tr
      (processMessage step (s.loadIv iv)).msg := by
  obtain ⟨g, hg, hchain⟩ := hF
  obtain ⟨hwf', hbytes, hbeyond, hnblk', hblk, hord, hrnd, hpadl⟩ := processMessage_processed (s := s.loadIv iv)
    (by rwa [State.loadIv_rk, State.loadIv_sbox]) hruns (by rwa [State.loadIv_msg]) (by rwa [State.loadIv_tr_nblk])
    hpos hlt
  rw [State.loadIv_tr_fb, hchain, State.loadIv_msg] at hbytes
  rw [State.loadIv_msg] at hbeyond
  exact ⟨hwf', hbytes, hbeyond, hnblk', hblk, hord, hrnd, hpadl.trans (s.loadIv_tr_padl iv)⟩

/-! ## The encrypt commands -/

/-- Unless the buffer is full there is room for the padded message, whose length is a value of LEN (R7, R107). -/
theorem padded_bounds {s : State} (hlegal : s.cfg.legal) (hlen : s.len.toNat < s.cfg.msgBytes) :
    8 * (s.len.toNat / 8 + 1) ≤ s.cfg.msgBytes ∧ 8 * (s.len.toNat / 8 + 1) ≤ 65528 := by
  obtain ⟨hwhole, -, hmax⟩ := hlegal
  omega

/-- An encrypt command that passes its checks processes the padded message and sets LEN to its length (R107). -/
theorem exec_encryptCommand_ready (mode : Mode) (iv : Block) {s : State} (hwf : s.msg.wf) (hlegal : s.cfg.legal)
    (hready : s.ready = true) (hlen : s.len.toNat < s.cfg.msgBytes) :
    ∃ tr m, exec (mode.encryptCommand iv) s = .next (State.respond
        { s with tr := tr, msg := m, len := BitVec.ofNat 16 (8 * (s.len.toNat / 8 + 1)) } .ok 0) ∧
      Processed .encrypt (s.len.toNat / 8 + 1) (encrypted mode iv s) s.padStep tr m := by
  obtain ⟨hroom, hmax⟩ := padded_bounds hlegal hlen
  rcases encryptFrame_cases mode.encryptStep (mode.ivLoaded iv) s with
    ⟨h, -⟩ | ⟨-, h, -⟩ | ⟨-, -, tr, m, hmsg, hexec⟩
  · exact absurd hready h
  · rw [add_padlen] at h
    omega
  · rw [add_padlen] at hexec
    have hnblk : s.padStep.tr.nblk.toNat = s.len.toNat / 8 + 1 := by
      rw [State.padStep_tr, add_padlen, BitVec.toNat_ofNat]
      omega
    have hdone := processMessage_loadIv_processed (s := s.padStep) (mode.encryptStep_realizes iv s.rk s.sbox)
      mode.encryptStep_runs (Memory.wf_writeBytes hwf _ _) hnblk (by omega) (by omega)
    rw [← add_padlen, readBytes_padStep hwf, hmsg] at hdone
    exact ⟨tr, m, (exec_encryptCommand mode iv s).trans hexec, hdone⟩

/-- What an encrypt command that passes its checks leaves: the ciphertext as the message, KEY, RK, SBOX, READY, ERR and
every byte behind it as they were. -/
theorem completes_encryptCommand (mode : Mode) (iv : Block) {s : State} (hwf : s.msg.wf) (hlegal : s.cfg.legal)
    (hready : s.ready = true) (hlen : s.len.toNat < s.cfg.msgBytes) :
    Completes (mode.encryptCommand iv) s 0 fun t =>
      t.msg.wf ∧ t.len.toNat = 8 * (s.len.toNat / 8 + 1) ∧ t.message = encrypted mode iv s ∧
        SameBytesOutside 0 (8 * (s.len.toNat / 8 + 1)) s t ∧ SameInstance s t ∧ t.err = s.err := by
  obtain ⟨-, hmax⟩ := padded_bounds hlegal hlen
  have hpadded := add_padlen s.len.toNat
  obtain ⟨tr, m, hexec, hdone⟩ := exec_encryptCommand_ready mode iv hwf hlegal hready hlen
  have hlen' : (BitVec.ofNat 16 (8 * (s.len.toNat / 8 + 1))).toNat = 8 * (s.len.toNat / 8 + 1) :=
    Nat.mod_eq_of_lt (by omega)
  refine completes_of hexec (samePort_refl s) ⟨hdone.wf, hlen', ?_, fun a ha => ?_, sameInstance_refl s, rfl⟩
  · rw [State.message, State.respond_len, hlen']
    exact hdone.bytes
  · rw [State.respond_msg, hdone.beyond a (by omega), State.padStep_msg, Memory.readByte_writeBytes hwf,
      length_padBytes, if_neg (by omega)]

/-- Settles O47: the processed message is the padded one, and the pad step writes nothing behind it. -/
theorem encryptCommandsComputeModes : Obligations.EncryptCommandsComputeModes := by
  unfold Obligations.EncryptCommandsComputeModes
  intro mode iv s hbuf hready hlen
  obtain ⟨t, hexec, hrsp, hport, -, h⟩ := completes_encryptCommand mode iv hbuf.msgWf hbuf.cfgLegal hready hlen
  exact ⟨t, hexec, hrsp, hport, h⟩

/-! ## The decrypt commands -/

/-- A decrypt command that passes its checks processes the message; then it is refused with PAD, or it sets LEN to the
length of the unpadded plaintext, which stands in MSG already (R101, R108). -/
theorem exec_decryptCommand_ready (mode : Mode) (iv : Block) {s : State} (hwf : s.msg.wf) (hready : s.ready = true)
    (hpos : s.len.toNat ≠ 0) (hwhole : s.len.toNat % 8 = 0) :
    ∃ tr m, Processed mode.decryptOrder (s.len.toNat / 8) (decrypted mode iv s) s tr m ∧
      ((unpad (decrypted mode iv s) = none ∧
          exec (mode.decryptCommand iv) s = .next (State.errorEntry { s with tr := tr, msg := m } .pad)) ∨
        ∃ n padl, n ≤ s.len.toNat ∧ unpad (decrypted mode iv s) = some (m.readBytes 0 n) ∧
          exec (mode.decryptCommand iv) s = .next (State.respond
            { s with tr := { tr with padl := padl }, msg := m, len := BitVec.ofNat 16 n } .ok 0)) := by
  rcases decryptFrame_cases mode.decryptStep (mode.ivLoaded iv) s with
    ⟨h, -⟩ | ⟨-, h, -⟩ | ⟨-, -, -, tr, m, hmsg, hend⟩
  · exact absurd hready h
  · omega
  · have hlt := s.len.isLt
    have hblocks : 8 * (s.len.toNat / 8) = s.len.toNat := by omega
    have hnblk : (BitVec.ofNat 14 (s.len.toNat / 8)).toNat = s.len.toNat / 8 := Nat.mod_eq_of_lt (by omega)
    have hdone := processMessage_loadIv_processed
      (s := { s with tr := { s.tr with nblk := BitVec.ofNat 14 (s.len.toNat / 8) } })
      (mode.decryptStep_realizes iv s.rk s.sbox) mode.decryptStep_runs hwf hnblk (by omega) (by omega)
    rw [hmsg] at hdone
    obtain ⟨hwf', hbytes, hbeyond, hnblk', hblk', hord, hrnd, hpadl⟩ := hdone
    have hout : m.readBytes 0 s.len.toNat = decrypted mode iv s := by
      rw [hblocks] at hbytes
      exact hbytes
    have hunpad := unpad_of_getLast? (Memory.getLast?_readBytes m 0 (Nat.pos_of_ne_zero hpos))
    rw [Memory.readBytes_length, Nat.zero_add, hout] at hunpad
    refine ⟨tr, m, ⟨hwf', by rw [hblocks, hout], hbeyond, hnblk', hblk', hord, hrnd, hpadl⟩, ?_⟩
    rw [hunpad, exec_decryptCommand]
    rcases hend with ⟨hbad, hexec⟩ | ⟨hgood, hexec⟩
    · exact .inl ⟨if_pos hbad, hexec⟩
    · refine .inr ⟨s.len.toNat - (m.readByte (s.len.toNat - 1)).toNat, _, Nat.sub_le _ _, ?_, hexec⟩
      rw [if_neg hgood, ← hout, Memory.take_readBytes m 0 (Nat.sub_le _ _)]

/-- Settles O48: unpadding leaves the first bytes of the plaintext, which the shorter LEN makes the message. -/
theorem decryptCommandsComputeModes : Obligations.DecryptCommandsComputeModes := by
  unfold Obligations.DecryptCommandsComputeModes
  intro mode iv s pt hbuf hready hpos hwhole hpt
  obtain ⟨tr, m, hdone, ⟨hbad, -⟩ | ⟨n, padl, hn, hunpad, hexec⟩⟩ :=
    exec_decryptCommand_ready mode iv hbuf.msgWf hready hpos hwhole
  · rw [hpt] at hbad
    cases hbad
  · have hblocks : 8 * (s.len.toNat / 8) = s.len.toNat := by omega
    have hlen : (BitVec.ofNat 16 n).toNat = n := Nat.mod_eq_of_lt (hn.trans_lt s.len.isLt)
    obtain rfl : m.readBytes 0 n = pt := Option.some.inj (hunpad.symm.trans hpt)
    refine completes_of hexec (samePort_refl s) ⟨?_, ?_, ?_, fun a ha => ?_, sameInstance_refl s, rfl⟩
    · rw [State.respond_len, hlen, Memory.readBytes_length]
    · rw [State.message, State.respond_len, hlen, State.respond_msg]
    · rw [State.respond_msg, ← hdone.bytes, hblocks]
    · rw [State.respond_msg, hdone.beyond a (by omega)]

/-! ## Refusals -/

theorem encryptFrame_len {s : State} (hready : s.ready = true) (h : s.cfg.msgBytes < s.len.toNat + padlen s.len.toNat)
    (step : BlockStep) (iv : Option Block) : encryptFrame step iv s = .next (s.errorEntry .len) :=
  (requireReady_pos hready _).trans (if_pos h)

theorem decryptFrame_len {s : State} (hready : s.ready = true) (h : s.len.toNat = 0 ∨ s.len.toNat % 8 ≠ 0)
    (step : BlockStep) (iv : Option Block) : decryptFrame step iv s = .next (s.errorEntry .len) :=
  (requireReady_pos hready _).trans (if_pos h)

/-- Settles O50: the checks come first, and a full buffer has no room for a pad byte. -/
theorem modeCommandRefusals : Obligations.ModeCommandRefusals := by
  unfold Obligations.ModeCommandRefusals
  intro mode iv s
  rw [exec_encryptCommand, exec_decryptCommand]
  refine ⟨fun hready => ?_, fun _ hready hfull => ?_, fun hready hlen => ?_⟩
  · have hnot : s.ready ≠ true := by simp [hready]
    rw [encryptFrame_state hnot, decryptFrame_state hnot]
    exact ⟨cleanRefusal_errorEntry s .state, cleanRefusal_errorEntry s .state⟩
  · have hpad := (padlen_bounds s.len.toNat).1
    rw [encryptFrame_len hready (by omega)]
    exact cleanRefusal_errorEntry s .len
  · rw [decryptFrame_len hready hlen]
    exact cleanRefusal_errorEntry s .len

/-! ## Lengths -/

/-- Settles O53: of the ways a mode command ends, the one with OK sets LEN, up to the padded length or down by the pad
byte. -/
theorem outputLengths : Obligations.OutputLengths := by
  unfold Obligations.OutputLengths
  intro mode iv s t v hbuf hok
  rw [exec_encryptCommand, exec_decryptCommand]
  refine ⟨fun hexec => ?_, fun hexec => ?_⟩
  · rcases encryptFrame_cases mode.encryptStep (mode.ivLoaded iv) s with
      ⟨-, h⟩ | ⟨-, -, h⟩ | ⟨-, hroom, tr, m, -, h⟩ <;>
      obtain rfl := Host.Outcome.next.inj (h.symm.trans hexec)
    · cases hok
    · cases hok
    · have hmax := hbuf.msgBytes_le
      rw [State.respond_len, BitVec.toNat_ofNat, ← add_padlen]
      omega
  · rcases decryptFrame_cases mode.decryptStep (mode.ivLoaded iv) s with
      ⟨-, h⟩ | ⟨-, -, h⟩ | ⟨-, -, hwhole, tr, m, -, ⟨-, h⟩ | ⟨hgood, h⟩⟩ <;>
      obtain rfl := Host.Outcome.next.inj (h.symm.trans hexec)
    · cases hok
    · cases hok
    · cases hok
    · have hlt := s.len.isLt
      rw [BadPad] at hgood
      refine ⟨(m.readByte (s.len.toNat - 1)).toNat, by omega, by omega, hwhole, ?_⟩
      rw [State.respond_len, BitVec.toNat_ofNat]
      omega

/-! ## The sequencer's registers -/

/-- Settles O54: unpadding and the error entry come after the last block and write none of these registers. -/
theorem modeCommandSequencing : Obligations.ModeCommandSequencing := by
  unfold Obligations.ModeCommandSequencing
  intro mode iv s t hbuf hready
  refine ⟨fun hlen hexec => ?_, fun hpos hwhole hexec => ?_⟩
  · obtain ⟨tr, m, h, -, -, -, hnblk, hblk, hord, hrnd, hpadl⟩ :=
      exec_encryptCommand_ready mode iv hbuf.msgWf hbuf.cfgLegal hready hlen
    obtain rfl := Host.Outcome.next.inj (h.symm.trans hexec)
    refine ⟨hord, hrnd, hnblk, hblk.trans hnblk.symm, ?_⟩
    have hpad := padlen_bounds s.len.toNat
    rw [State.respond_tr, hpadl, State.padStep_tr, BitVec.toNat_ofNat]
    omega
  · rw [← mode.decryptOrder_eq]
    obtain ⟨tr, m, ⟨-, -, -, hnblk, hblk, hord, hrnd, -⟩, ⟨-, h⟩ | ⟨n, padl, -, -, h⟩⟩ :=
      exec_decryptCommand_ready mode iv hbuf.msgWf hready hpos hwhole <;>
    · obtain rfl := Host.Outcome.next.inj (h.symm.trans hexec)
      exact ⟨hord, hrnd, hnblk, hblk.trans hnblk.symm⟩

/-! ## Decrypting what was encrypted (R119) -/

theorem State.E_congr {s t : State} (hrk : t.rk = s.rk) (hsbox : t.sbox = s.sbox) : t.E = s.E := by
  funext x
  rw [State.E, State.E, hrk, hsbox]

/-- Decrypting a message that is the ciphertext of `m` gives `m` with its pad back (R119). -/
theorem decrypted_of_message_eq (mode : Mode) (iv : Block) {s : State} {m : List Byte}
    (h : s.message = join (mode.encrypt s.E iv (split (pad m)))) : decrypted mode iv s = pad m := by
  have hDE : ∀ x, s.D (s.E x) = x := fun x => (blockInvertibility s.rk s.sbox x).1
  rw [decrypted, h, split_join, mode.decrypt_encrypt hDE, join_split_pad]

/-- On the ciphertext of `pt` a decrypt command completes with `pt` as the message, its pad behind it (R119). -/
theorem exec_decryptCommand_of_encrypted (mode : Mode) (iv : Block) {s : State} {pt : List Byte} (hwf : s.msg.wf)
    (hready : s.ready = true) (hlen : s.len.toNat = 8 * (pt.length / 8 + 1))
    (hmessage : s.message = join (mode.encrypt s.E iv (split (pad pt)))) :
    ∃ u, exec (mode.decryptCommand iv) s = .next u ∧ u.rsp = some ⟨.ok, 0⟩ ∧ u.len.toNat = pt.length ∧
      u.message = pt ∧ ∀ k < padlen pt.length, (u.msg.readByte (pt.length + k)).toNat = padlen pt.length := by
  have hdec := decrypted_of_message_eq mode iv hmessage
  have hpt : unpad (decrypted mode iv s) = some pt := by rw [hdec, unpadUndoesPad]
  obtain ⟨tr, m, hdone, ⟨hbad, -⟩ | ⟨n, padl, hn, hunpad, hexec⟩⟩ :=
    exec_decryptCommand_ready mode iv hwf hready (by omega) (by omega)
  · rw [hpt] at hbad
    cases hbad
  · obtain rfl : m.readBytes 0 n = pt := Option.some.inj (hunpad.symm.trans hpt)
    have hlen' : (BitVec.ofNat 16 n).toNat = n := Nat.mod_eq_of_lt (hn.trans_lt s.len.isLt)
    refine ⟨_, hexec, rfl, ?_, ?_, fun k hk => ?_⟩
    · rw [State.respond_len, hlen', Memory.readBytes_length]
    · rw [State.message, State.respond_len, hlen', State.respond_msg]
    · have hpad := getElem?_pad (m.readBytes 0 n) hk
      have hpadded := add_padlen (m.readBytes 0 n).length
      rw [← hdec, ← hdone.bytes, Memory.getElem?_readBytes m 0 (by omega), Nat.zero_add] at hpad
      rw [State.respond_msg, Option.some.inj hpad, padByte_toNat]

/-- Settles O51: DEC_X finds the ciphertext that ENC_X left, which holds the padded message. -/
theorem modeRoundTrip : Obligations.ModeRoundTrip := by
  unfold Obligations.ModeRoundTrip
  intro mode iv s hbuf hready hlen
  obtain ⟨t, hexec, hrsp, -, hwf, hlen', hmessage, -, ⟨-, hrk, hsbox, hready'⟩, -⟩ :=
    completes_encryptCommand mode iv hbuf.msgWf hbuf.cfgLegal hready hlen
  refine ⟨t, hexec, hrsp, hwf, fun t' _ hrk' hsbox' hready'' hlen'' hwf' hbytes => ?_⟩
  have hE : t'.E = s.E := State.E_congr (hrk'.trans hrk) (hsbox'.trans hsbox)
  have hmessage' : t'.message = join (mode.encrypt t'.E iv (split (pad s.message))) := by
    rw [hE, State.message, hlen'', Memory.readBytes_congr fun k _ => hbytes (0 + k)]
    exact hmessage
  obtain ⟨u, hexec', hrsp', hulen, humessage, hupad⟩ := exec_decryptCommand_of_encrypted mode iv hwf'
    (hready''.trans (hready'.trans hready)) (by rw [hlen'', hlen', State.message_length]) hmessage'
  rw [State.message_length] at hulen hupad
  exact ⟨u, hexec', hrsp', BitVec.eq_of_toNat_eq hulen, humessage, hupad⟩

/-- Settles O52: two runs of one keystream cancel on the blocks of the first padded message, whether the second run pads
anew or unpads. -/
theorem ofbSelfInverse : Obligations.OfbSelfInverse := by
  unfold Obligations.OfbSelfInverse
  refine ⟨ofbXor_ofbXor, fun iv s hbuf hready hroom => ?_⟩
  obtain ⟨c, hc, -, ⟨hcfg, -⟩, hcwf, hclen, hcmessage, -, ⟨-, hrk, hsbox, hcready⟩, -⟩ :=
    completes_encryptCommand .ofb iv hbuf.msgWf hbuf.cfgLegal hready (by omega)
  have hE : c.E = s.E := State.E_congr hrk hsbox
  obtain ⟨t, ht, htrsp, -, -, htlen, htmessage, -⟩ :=
    completes_encryptCommand .ofb iv hcwf (by rw [hcfg]; exact hbuf.cfgLegal) (hcready.trans hready)
      (by rw [hclen, hcfg]; exact hroom)
  obtain ⟨u, hu, hursp, -, humessage, -⟩ := exec_decryptCommand_of_encrypted .ofb iv (pt := s.message) hcwf
    (hcready.trans hready) (by rw [hclen, State.message_length]) (by rw [hE]; exact hcmessage)
  have htlen' : t.len.toNat = 8 * (s.len.toNat / 8 + 1) + 8 := by omega
  obtain ⟨rest, hrest⟩ := ofb_pad_ofb_pad s.E iv s.message
  have htbytes : t.msg.readBytes 0 (8 * (s.len.toNat / 8 + 1) + 8) = pad s.message ++ rest := by
    rw [← hrest, ← htlen']
    refine htmessage.trans ?_
    rw [encrypted, hcmessage, hE]
    rfl
  refine ⟨t, u, (execAll_cons hc _).trans (execAll_single ht), htrsp, htlen', ?_,
    (execAll_cons hc _).trans (execAll_single hu), hursp, humessage⟩
  rw [← Memory.take_readBytes t.msg 0 (Nat.le_add_right _ 8), htbytes, List.take_left']
  rw [length_pad, State.message_length, add_padlen]

end Sys2Proof.Machine
end

section
/-! The five buffer commands (O40 to O44, O46; spec/45_buffer_access.md R123 to R128): what each one writes and returns,
and from the shape the four accesses share the laws about their order and about the registers they do not read. -/

namespace Sys2Proof.Machine

/-! ## Byte accesses -/

/-- Settles O40: WRB is one byte write to MSG at a valid address, and the error entry with ADDR beyond the buffer. -/
theorem wrbWritesOneByte : Obligations.WrbWritesOneByte := by
  unfold Obligations.WrbWritesOneByte
  refine fun s addr b hwf => ⟨fun hin => ?_, fun hout => ?_⟩
  · have hread := Memory.readByte_writeByte hwf addr.toNat b
    exact completes_of (exec_wrb hin b) (samePort_refl s)
      ⟨(hread _).trans (if_pos rfl), fun x hx => (hread x).trans (if_neg (by omega)), sameInstance_refl s, rfl, rfl⟩
  · rw [exec_wrb_addr (Nat.not_lt.2 hout)]
    exact cleanRefusal_errorEntry s .addr

/-- Settles O41: RDB completes from the state it was run in, and is the error entry with ADDR beyond the buffer. -/
theorem rdbReturnsByte : Obligations.RdbReturnsByte := by
  unfold Obligations.RdbReturnsByte
  refine fun s addr => ⟨fun hin => ?_, fun hout => ?_⟩
  · rw [← zext64_byte]
    exact completes_of (exec_rdb hin) (samePort_refl s) ⟨sameInstance_refl s, rfl, rfl, sameBytes_refl s⟩
  · rw [exec_rdb_addr (Nat.not_lt.2 hout)]
    exact cleanRefusal_errorEntry s .addr

/-! ## Block accesses -/

/-- An address of no valid 8-byte access is misaligned or too near the end of the buffer (R41). -/
theorem not_quadAddrValid {cfg : Config} {a : Addr} (h : a.toNat % 8 ≠ 0 ∨ cfg.msgBytes < a.toNat + 8) :
    ¬QuadAddrValid cfg a := by
  rintro ⟨halign, hfit⟩
  omega

/-- Settles O42: WRQ is one block write to MSG at a valid address, of which each byte is read back in its place, and the
error entry with ADDR otherwise. -/
theorem wrqWritesEightBytes : Obligations.WrqWritesEightBytes := by
  unfold Obligations.WrqWritesEightBytes
  refine fun s addr q hwf => ⟨fun halign hfit => ?_, fun hbad => ?_⟩
  · have hread := Memory.readByte_writeBlock hwf addr.toNat q
    refine completes_of (exec_wrq ⟨halign, hfit⟩ q) (samePort_refl s)
      ⟨fun k hk => ?_, fun x hx => (hread x).trans (if_neg (by omega)), sameInstance_refl s, rfl, rfl⟩
    rw [State.respond_msg, hread, if_pos (by omega), Nat.add_sub_cancel_left]
    rfl
  · rw [exec_wrq_addr (not_quadAddrValid hbad)]
    exact cleanRefusal_errorEntry s .addr

/-- Settles O43: RDQ completes from the state it was run in with the block at the address, whose bytes are those of MSG,
and is the error entry with ADDR at an invalid address. -/
theorem rdqReturnsBlock : Obligations.RdqReturnsBlock := by
  unfold Obligations.RdqReturnsBlock
  refine fun s addr => ⟨fun halign hfit => ?_, fun hbad => ?_⟩
  · exact ⟨s.msg.readBlock addr.toNat, completes_of (exec_rdq ⟨halign, hfit⟩) (samePort_refl s)
      ⟨sameInstance_refl s, rfl, rfl, sameBytes_refl s⟩, byteOf_readBlock s.msg addr.toNat⟩
  · rw [exec_rdq_addr (not_quadAddrValid hbad)]
    exact cleanRefusal_errorEntry s .addr

/-! ## SETLEN -/

/-- Settles O44: SETLEN is one write to LEN up to MSG_BYTES, and the error entry with LEN beyond. -/
theorem setlenSetsLength : Obligations.SetlenSetsLength := by
  unfold Obligations.SetlenSetsLength
  refine fun s len => ⟨fun hfit => ?_, fun hlong => ?_⟩
  · exact completes_of (exec_setlen hfit) (samePort_refl s) ⟨rfl, sameBytes_refl s, sameInstance_refl s, rfl⟩
  · rw [exec_setlen_len hlong]
    exact cleanRefusal_errorEntry s .len

/-- SETLEN's end, OK or LEN, is the same at every state of one MSG_BYTES (R128 f). -/
theorem exec_setlen_cases (cfg : Config) (len : Addr) :
    (∀ s, s.cfg = cfg → exec (.setlen len) s = .next (s.errorEntry .len)) ∨
      (∀ s, s.cfg = cfg → exec (.setlen len) s = .next (State.respond { s with len := len } .ok 0)) := by
  rcases Nat.lt_or_ge cfg.msgBytes len.toNat with hlong | hfit
  · exact .inl fun s hcfg => exec_setlen_len (hcfg ▸ hlong)
  · exact .inr fun s hcfg => exec_setlen (hcfg ▸ hfit)

/-! ## The shape the four accesses share -/

/-- The command is WRB, RDB, WRQ or RDQ. -/
def IsAccess (i : Instr) : Prop :=
  (∃ a b, i = .wrb a b) ∨ (∃ a, i = .rdb a) ∨ (∃ a q, i = .wrq a q) ∨ (∃ a, i = .rdq a)

/-- At every state of MSG_BYTES `cfg` and content `msg` the command responds with `c` and `v`, raises the flag of `c`,
makes MSG `m`, and writes nothing else (R128 e, f). -/
def AccessAnswers (i : Instr) (cfg : Config) (msg : Memory) (c : Code) (v : Block) (m : Memory) : Prop :=
  ∀ s : State, s.cfg = cfg → s.msg = msg →
    exec i s = .next (State.respond { s with err := raiseFlag s.err c, msg := m } c v)

section
variable {i : Instr} {cfg : Config} {msg : Memory}

theorem accessAnswers_addr (h : ∀ s, s.cfg = cfg → exec i s = .next (s.errorEntry .addr)) :
    AccessAnswers i cfg msg .addr 0 msg := by
  rintro s hcfg rfl
  exact h s hcfg

theorem accessAnswers_ok {v : Block} {m : Memory}
    (h : ∀ s, s.cfg = cfg → s.msg = msg → exec i s = .next (State.respond { s with msg := m } .ok v)) :
    AccessAnswers i cfg msg .ok v m := by
  intro s hcfg hmsg
  rw [h s hcfg hmsg, raiseFlag, or_flag_ok]

/-- What an access responds and writes is fixed by MSG_BYTES and MSG alone (R128 f). -/
theorem exists_accessAnswers (hi : IsAccess i) (cfg : Config) (msg : Memory) :
    ∃ c v m, AccessAnswers i cfg msg c v m := by
  rcases hi with ⟨a, b, rfl⟩ | ⟨a, rfl⟩ | ⟨a, q, rfl⟩ | ⟨a, rfl⟩
  · by_cases ha : ByteAddrValid cfg a
    · exact ⟨.ok, 0, msg.writeByte a.toNat b, accessAnswers_ok (by rintro s rfl rfl; exact exec_wrb ha b)⟩
    · exact ⟨.addr, 0, msg, accessAnswers_addr (by rintro s rfl; exact exec_wrb_addr ha b)⟩
  · by_cases ha : ByteAddrValid cfg a
    · exact ⟨.ok, zext64 (msg.readByte a.toNat), msg, accessAnswers_ok (by rintro s rfl rfl; exact exec_rdb ha)⟩
    · exact ⟨.addr, 0, msg, accessAnswers_addr (by rintro s rfl; exact exec_rdb_addr ha)⟩
  · by_cases ha : QuadAddrValid cfg a
    · exact ⟨.ok, 0, msg.writeBlock a.toNat q, accessAnswers_ok (by rintro s rfl rfl; exact exec_wrq ha q)⟩
    · exact ⟨.addr, 0, msg, accessAnswers_addr (by rintro s rfl; exact exec_wrq_addr ha q)⟩
  · by_cases ha : QuadAddrValid cfg a
    · exact ⟨.ok, msg.readBlock a.toNat, msg, accessAnswers_ok (by rintro s rfl rfl; exact exec_rdq ha)⟩
    · exact ⟨.addr, 0, msg, accessAnswers_addr (by rintro s rfl; exact exec_rdq_addr ha)⟩

end

/-! ## The laws of R128 -/

section
variable {s : State} {a : Addr}

/-- A byte read returns the byte just written to its address (R128 a). -/
theorem execAll_wrb_rdb (hwf : s.msg.wf) (ha : ByteAddrValid s.cfg a) (b : Byte) :
    ∃ t, execAll [.wrb a b, .rdb a] s = .next t ∧ t.rsp = some ⟨.ok, 0#56 ++ b⟩ := by
  refine ⟨_, (execAll_cons (exec_wrb ha b) _).trans (execAll_single (exec_rdb ha)), ?_⟩
  rw [State.respond_rsp, State.respond_msg, Memory.readByte_writeByte hwf, if_pos rfl, zext64_byte]

/-- A block read returns the block just written to its address (R128 a). -/
theorem execAll_wrq_rdq (hwf : s.msg.wf) (ha : QuadAddrValid s.cfg a) (q : Block) :
    ∃ t, execAll [.wrq a q, .rdq a] s = .next t ∧ t.rsp = some ⟨.ok, q⟩ := by
  refine ⟨_, (execAll_cons (exec_wrq ha q) _).trans (execAll_single (exec_rdq ha)), ?_⟩
  rw [State.respond_rsp, State.respond_msg, Memory.readBlock_writeBlock hwf]

end

/-- SETLEN and an access write different state, but for ERR, where two flags may be raised in either order (R128 e). -/
theorem execAll_setlen_access_comm {i : Instr} (hi : IsAccess i) (s : State) (len : Addr) :
    ∃ t u, execAll [.setlen len, i] s = .next t ∧ execAll [i, .setlen len] s = .next u ∧
      { t with rsp := none } = { u with rsp := none } := by
  obtain ⟨c, v, m, haccess⟩ := exists_accessAnswers hi s.cfg s.msg
  rcases exec_setlen_cases s.cfg len with hsetlen | hsetlen
  · refine ⟨_, _, (execAll_cons (hsetlen s rfl) _).trans (execAll_single (haccess _ rfl rfl)),
      (execAll_cons (haccess s rfl rfl) _).trans (execAll_single (hsetlen _ rfl)), ?_⟩
    have hflags : raiseFlag (raiseFlag s.err .len) c = raiseFlag (raiseFlag s.err c) .len := by
      rw [raiseFlag, raiseFlag, raiseFlag, raiseFlag, BitVec.or_assoc, BitVec.or_comm Code.len.flag, BitVec.or_assoc]
    exact congrArg (fun e => { s with err := e, msg := m, rsp := none }) hflags
  · exact ⟨_, _, (execAll_cons (hsetlen s rfl) _).trans (execAll_single (haccess _ rfl rfl)),
      (execAll_cons (haccess s rfl rfl) _).trans (execAll_single (hsetlen _ rfl)), rfl⟩

/-- An access from another state of the same MSG_BYTES and MSG responds and writes the same (R128 f). -/
theorem exec_access_congr {i : Instr} (hi : IsAccess i) {s s' t : State} (hcfg : s'.cfg = s.cfg) (hmsg : s'.msg = s.msg)
    (h : exec i s = .next t) : ∃ t', exec i s' = .next t' ∧ t'.rsp = t.rsp ∧ t'.msg = t.msg := by
  obtain ⟨c, v, m, haccess⟩ := exists_accessAnswers hi s.cfg s.msg
  cases h.symm.trans (haccess s rfl rfl)
  exact ⟨_, haccess s' hcfg hmsg, rfl, rfl⟩

/-- SETLEN from another state of the same MSG_BYTES responds the same and, on OK, leaves the same LEN (R128 f). -/
theorem exec_setlen_congr {s s' t : State} {len : Addr} (hcfg : s'.cfg = s.cfg) (h : exec (.setlen len) s = .next t) :
    ∃ t', exec (.setlen len) s' = .next t' ∧ t'.rsp = t.rsp ∧
      (t.rsp = some ⟨.ok, 0⟩ → t.len = len ∧ t'.len = len) := by
  rcases exec_setlen_cases s.cfg len with hsetlen | hsetlen
  · cases h.symm.trans (hsetlen s rfl)
    exact ⟨_, hsetlen s' hcfg, rfl, nofun⟩
  · cases h.symm.trans (hsetlen s rfl)
    exact ⟨_, hsetlen s' hcfg, rfl, fun _ => ⟨rfl, rfl⟩⟩

/-- Settles O46: one lemma above for each law of R128. -/
theorem bufferAccessLaws : Obligations.BufferAccessLaws := by
  unfold Obligations.BufferAccessLaws
  exact ⟨fun _ _ b hwf hin => execAll_wrb_rdb hwf hin b,
    fun _ _ q hwf halign hfit => execAll_wrq_rdq hwf ⟨halign, hfit⟩ q,
    fun s len _ hi => execAll_setlen_access_comm hi s len, fun _ _ _ _ hi => exec_access_congr hi,
    fun _ _ _ _ => exec_setlen_congr⟩

end Sys2Proof.Machine
end

section
/-! NOP and CLRERR (O19, O21; spec/46_system.md R129, R131): NOP completes from the state it was run in, CLRERR from
that state with ERR cleared. -/

namespace Sys2Proof.Machine

theorem exec_nop (s : State) : exec .nop s = complete 0 s := rfl

theorem exec_clrerr (s : State) : exec .clrerr s = complete 0 s.clearErrors := rfl

/-- Settles O19: NOP completes from the state it was run in, and responding writes the response alone. -/
theorem nopDoesNothing : Obligations.NopDoesNothing := by
  unfold Obligations.NopDoesNothing
  exact fun s => completes_of (exec_nop s) (samePort_refl s) ⟨sameInstance_refl s, rfl, rfl, sameBytes_refl s⟩

/-- Settles O21: before it responds CLRERR writes ERR alone, all of it at once. -/
theorem clrerrClearsFlags : Obligations.ClrerrClearsFlags := by
  unfold Obligations.ClrerrClearsFlags
  exact fun s => completes_of (exec_clrerr s) (samePort_refl s)
    ⟨s.clearErrors_err, sameInstance_refl s, s.clearErrors_len, sameBytes_refl s⟩

end Sys2Proof.Machine
end

section
/-! Refused commands (O49, O57 to O60; spec/60_exceptions.md R132 to R139): the codes a command can answer, what a refusal
raises in ERR, and what it leaves as it was. -/

namespace Sys2Proof.Machine

/-! ## What a response says about the way its command ended -/

/-- The three ways a command ends, told apart by the code it responds with (R137 to R139). -/
theorem exec_response_cases {i : Instr} {s t : State} {r : Response} (hexec : exec i s = .next t)
    (hrsp : t.rsp = some r) :
    (r.code.cleanRefusal = true ∧ r.rdat = 0 ∧ t = s.errorEntry r.code) ∨
      (r.code = .ok ∧ (i ≠ .clrerr → t.err = s.err)) ∨
      (r.code = .pad ∧ r.rdat = 0 ∧ ErrRaised .pad s t) := by
  rcases exec_cases i s with ⟨c, hc, h⟩ | ⟨u, v, h, -, herr⟩ | ⟨tr, m, h⟩ <;>
    obtain rfl := Host.Outcome.next.inj (h.symm.trans hexec) <;>
    obtain rfl := Option.some.inj hrsp
  · exact .inl ⟨hc, rfl, rfl⟩
  · exact .inr (.inl ⟨rfl, herr⟩)
  · exact .inr (.inr ⟨rfl, rfl, errRaised_errorEntry s .pad⟩)

/-- Settles O59: every refusal is an error entry, and a completed command writes ERR only if it is CLRERR. -/
theorem errorEntrySetsOneFlag : Obligations.ErrorEntrySetsOneFlag := by
  unfold Obligations.ErrorEntrySetsOneFlag
  intro i s t r hexec hrsp
  rcases exec_response_cases hexec hrsp with ⟨hclean, hrdat, rfl⟩ | ⟨hok, herr⟩ | ⟨hpad, hrdat, herr⟩
  · refine ⟨fun _ => ⟨errRaised_errorEntry s r.code, hrdat⟩, fun hok => ?_⟩
    rw [hok] at hclean
    cases hclean
  · exact ⟨fun hne => absurd hok hne, fun _ => herr⟩
  · rw [hpad]
    exact ⟨fun _ => ⟨herr, hrdat⟩, nofun⟩

/-- Settles O60: the four codes come from an error entry at the state the command was run in; the other ways a command
ends answer OK or PAD. -/
theorem refusalsArePrecise : Obligations.RefusalsArePrecise := by
  unfold Obligations.RefusalsArePrecise
  intro i s t r hexec hrsp hcode
  rcases exec_response_cases hexec hrsp with ⟨-, -, rfl⟩ | ⟨hok, -⟩ | ⟨hpad, -⟩
  · rw [hexec]
    exact cleanRefusal_errorEntry s r.code
  · simp [hok] at hcode
  · simp [hpad] at hcode

/-! ## The codes of a command -/

/-- The result is a next state that responds with one of the codes. -/
def AnswersOneOf (cs : List Code) (r : Result) : Prop := ∃ t c v, r = .next t ∧ t.rsp = some ⟨c, v⟩ ∧ c ∈ cs

section
variable {cs : List Code}

theorem AnswersOneOf.complete (hok : .ok ∈ cs) (v : Block) (s : State) : AnswersOneOf cs (complete v s) :=
  ⟨_, _, _, rfl, rfl, hok⟩

theorem AnswersOneOf.raise {c : Code} (hc : c ∈ cs) (s : State) : AnswersOneOf cs (raise c s) :=
  ⟨_, _, _, rfl, rfl, hc⟩

theorem AnswersOneOf.ite {p : Prop} [Decidable p] {x y : Result} (hx : AnswersOneOf cs x) (hy : AnswersOneOf cs y) :
    AnswersOneOf cs (if p then x else y) := by
  split
  · exact hx
  · exact hy

theorem AnswersOneOf.transformCommand {s : State} (hready : s.ready = true) (hok : .ok ∈ cs) (order : RoundKeyOrder)
    (d : Block) : AnswersOneOf cs (transformCommand order d s) :=
  transformCommand_ready hready order d ▸ .complete hok _ _

theorem AnswersOneOf.encryptFrame {s : State} (hready : s.ready = true) (step : BlockStep) (iv : Option Block) :
    AnswersOneOf [.ok, .len] (encryptFrame step iv s) := by
  rcases encryptFrame_cases step iv s with ⟨h, -⟩ | ⟨-, -, h⟩ | ⟨-, -, tr, m, -, h⟩
  · exact absurd hready h
  · exact ⟨_, .len, _, h, rfl, by decide⟩
  · exact ⟨_, .ok, _, h, rfl, by decide⟩

theorem AnswersOneOf.decryptFrame {s : State} (hready : s.ready = true) (step : BlockStep) (iv : Option Block) :
    AnswersOneOf [.ok, .len, .pad] (decryptFrame step iv s) := by
  rcases decryptFrame_cases step iv s with ⟨h, -⟩ | ⟨-, -, h⟩ | ⟨-, -, -, tr, m, -, ⟨-, h⟩ | ⟨-, h⟩⟩
  · exact absurd hready h
  · exact ⟨_, .len, _, h, rfl, by decide⟩
  · exact ⟨_, .pad, _, h, rfl, by decide⟩
  · exact ⟨_, .ok, _, h, rfl, by decide⟩

end

/-- READY is what the command needs it to be, if it needs anything (R135). -/
def PassesLifeCycle (i : Instr) (s : State) : Prop := ∀ b, needsReady i = some b → s.ready = b

/-- The codes left to a command that has passed the life-cycle check. -/
def codesWhenPassed (i : Instr) : List Code := (possibleCodes i).filter (· ≠ .state)

theorem ok_mem_codesWhenPassed (i : Instr) : .ok ∈ codesWhenPassed i := by
  cases i <;> simp [codesWhenPassed, possibleCodes]

/-- A command that passes the life-cycle check goes on to its other checks, whose codes are those of R133. -/
theorem exec_answersOneOf_of_passes {i : Instr} {s : State} (hi : i.WellFormed) (hpass : PassesLifeCycle i s) :
    AnswersOneOf (codesWhenPassed i) (exec i s) := by
  have hok := ok_mem_codesWhenPassed i
  cases i with
  | nop | rdsr | clrerr | clr => exact .complete hok _ _
  | init => exact exec_init (hpass _ rfl) ▸ .complete hok _ _
  | ldk k w =>
    exact exec_ldk (hpass _ rfl) (of_decide_eq_true hi) w ▸ .complete hok _ _
  | lds t n v =>
    obtain ⟨ht, hn⟩ : t < 8 ∧ n < 16 := by simpa [Instr.WellFormed, Instr.wellFormed] using hi
    exact exec_lds (hpass _ rfl) ht hn v ▸ .complete hok _ _
  | rndf half subkey => exact exec_rndf (hpass _ rfl) half subkey ▸ .complete hok _ _
  | encblk | decblk => exact .transformCommand (hpass _ rfl) hok _ _
  | wrb | rdb | wrq | rdq =>
    exact .ite (.complete hok _ _) (.raise (by simp [codesWhenPassed, possibleCodes]) s)
  | setlen => exact .ite (.raise (by simp [codesWhenPassed, possibleCodes]) s) (.complete hok _ _)
  | encEcb | encCbc | encCfb | encOfb => exact .encryptFrame (hpass _ rfl) _ _
  | decEcb | decCbc | decCfb | decOfb => exact .decryptFrame (hpass _ rfl) _ _

theorem code_mem_codesWhenPassed {i : Instr} {s t : State} {r : Response} (hi : i.WellFormed)
    (hpass : PassesLifeCycle i s) (hexec : exec i s = .next t) (hrsp : t.rsp = some r) : r.code ∈ codesWhenPassed i := by
  obtain ⟨u, c, v, hu, hursp, hc⟩ := exec_answersOneOf_of_passes hi hpass
  obtain rfl := Host.Outcome.next.inj (hu.symm.trans hexec)
  obtain rfl := Option.some.inj (hursp.symm.trans hrsp)
  exact hc

/-- Settles O57: a failed check is the error entry with STATE, and no check behind the life-cycle check answers STATE. -/
theorem lifeCycleCheck : Obligations.LifeCycleCheck := by
  unfold Obligations.LifeCycleCheck
  refine fun i s hi => ⟨fun b => cleanRefusal_state_of_needsReady hi, fun t r hpass hexec hrsp => ?_⟩
  exact of_decide_eq_true (List.mem_filter.1 (code_mem_codesWhenPassed hi hpass hexec hrsp)).2

theorem state_mem_possibleCodes {i : Instr} {b : Bool} (h : needsReady i = some b) : .state ∈ possibleCodes i := by
  cases i with
  | nop | rdsr | clrerr | clr | wrb | rdb | wrq | rdq | setlen => cases h
  | _ => simp [possibleCodes]

/-- Settles O58: a failed life-cycle check answers STATE, which is a code of every command that has the check; behind
it come the codes of the other checks. -/
theorem codesPerCommand : Obligations.CodesPerCommand := by
  unfold Obligations.CodesPerCommand
  intro i s t r hi hexec hrsp
  by_cases hpass : PassesLifeCycle i s
  · exact (List.mem_filter.1 (code_mem_codesWhenPassed hi hpass hexec hrsp)).1
  · obtain ⟨b, hb, hready⟩ : ∃ b, needsReady i = some b ∧ s.ready ≠ b := by
      simpa only [PassesLifeCycle, not_forall, exists_prop] using hpass
    obtain rfl := Host.Outcome.next.inj ((exec_state_of_needsReady hi hb hready).symm.trans hexec)
    obtain rfl := Option.some.inj hrsp
    exact state_mem_possibleCodes hb

/-! ## The refusal with PAD -/

/-- Settles O49: the blocks were decrypted into MSG before the pad byte was looked at, and the error entry writes ERR
alone. -/
theorem paddingErrorLeavesPlaintext : Obligations.PaddingErrorLeavesPlaintext := by
  unfold Obligations.PaddingErrorLeavesPlaintext
  intro mode iv s hbuf hready hpos hwhole hbad
  obtain ⟨tr, m, hdone, ⟨-, hexec⟩ | ⟨n, padl, -, hunpad, -⟩⟩ :=
    exec_decryptCommand_ready mode iv hbuf.msgWf hready hpos hwhole
  · have hblocks : 8 * (s.len.toNat / 8) = s.len.toNat := by omega
    refine ⟨_, hexec, rfl, errRaised_errorEntry s .pad, samePort_refl s, sameInstance_refl s, rfl, ?_, fun a ha => ?_⟩
    · rw [State.errorEntry_msg, ← hdone.bytes, hblocks]
    · rw [State.errorEntry_msg, hdone.beyond a (by omega)]
  · rw [hbad] at hunpad
    cases hunpad

end Sys2Proof.Machine
end

section
/-! What a reset leaves of MSG (O9; spec/70_reset_and_hazards.md R145, spec/20_memory.md R46): a command writes only the
bytes of its span, and a reset only those of the span of the command in flight. -/

namespace Sys2Proof.Machine

/-! ## Writing within a span -/

/-- The byte at `a` is none of the bytes of the span. -/
def Outside (span : Option (Nat × Nat)) (a : Nat) : Prop := ∀ b n, span = some (b, n) → a < b ∨ b + n ≤ a

theorem outside_some {b n a : Nat} (h : Outside (some (b, n)) a) : a < b ∨ b + n ≤ a := h b n rfl

/-- From `m` to `m'` no byte outside the span changes, and the canonical form is kept. -/
structure WritesWithin (span : Option (Nat × Nat)) (m m' : Memory) : Prop where
  wf : m'.wf
  outside : ∀ a, Outside span a → m'.readByte a = m.readByte a

theorem writesWithin_refl {m : Memory} (hwf : m.wf) (span : Option (Nat × Nat)) : WritesWithin span m m :=
  ⟨hwf, fun _ _ => rfl⟩

theorem WritesWithin.trans {span : Option (Nat × Nat)} {m m' m'' : Memory} (h : WritesWithin span m m')
    (h' : WritesWithin span m' m'') : WritesWithin span m m'' :=
  ⟨h'.wf, fun a ha => (h'.outside a ha).trans (h.outside a ha)⟩

/-- A reset writes no byte that the command in flight could not have written (R145). -/
theorem writesWithin_applyReset {s : State} {span : Option (Nat × Nat)} (hwf : s.msg.wf) (hspan : s.inFlight = span) :
    WritesWithin span s.msg s.applyReset.msg := by
  rcases hexposed : s.exposed with _ | ⟨b, n⟩
  · rw [applyReset_msg_none hexposed]
    exact writesWithin_refl hwf span
  · obtain rfl : span = some (b, n) := by
      rcases exposed_cases s with h | h
      · rw [hexposed] at h
        cases h
      · rw [← hspan, ← h, hexposed]
    rw [applyReset_msg_some hexposed]
    exact ⟨Memory.wf_scramble hwf _ _ _ _, fun a ha => Memory.readByte_scramble hwf _ _ _ _ _ (outside_some ha)⟩

/-! ## The bytes a command writes (R46) -/

/-- The bytes an encrypt command could write are its padded message (R93, R107). -/
theorem couldWrite_encryptCommand (len : Addr) (mode : Mode) (iv : Block) :
    couldWrite len (mode.encryptCommand iv) = some (0, 8 * (len.toNat / 8 + 1)) := by
  rw [← add_padlen]
  cases mode <;> rfl

/-- The bytes a decrypt command could write are its message (R108). -/
theorem couldWrite_decryptCommand (len : Addr) (mode : Mode) (iv : Block) :
    couldWrite len (mode.decryptCommand iv) = some (0, len.toNat) := by
  cases mode <;> rfl

/-- The result is a next state, reached by writing within the span. -/
def AnswersWithin (span : Option (Nat × Nat)) (s : State) (r : Result) : Prop :=
  ∃ t, r = .next t ∧ WritesWithin span s.msg t.msg

theorem AnswersWithin.ite {span : Option (Nat × Nat)} {s : State} {p : Prop} [Decidable p] {x y : Result}
    (hx : AnswersWithin span s x) (hy : AnswersWithin span s y) : AnswersWithin span s (if p then x else y) := by
  split
  · exact hx
  · exact hy

section
variable {span : Option (Nat × Nat)} {s : State} (hwf : s.msg.wf)
include hwf

theorem AnswersWithin.complete {u : State} (v : Block) (h : u.msg = s.msg) : AnswersWithin span s (complete v u) :=
  ⟨_, rfl, h ▸ writesWithin_refl hwf span⟩

theorem AnswersWithin.raise (c : Code) : AnswersWithin span s (raise c s) :=
  ⟨_, rfl, writesWithin_refl hwf span⟩

theorem AnswersWithin.requireReady {b : Bool} {rest : State → Result} (hrest : AnswersWithin span s (rest s)) :
    AnswersWithin span s (requireReady b s rest) := by
  rcases requireReady_cases b s rest with ⟨-, h⟩ | ⟨-, h⟩
  · exact h ▸ hrest
  · exact h ▸ .raise hwf .state

theorem AnswersWithin.transformCommand (order : RoundKeyOrder) (d : Block) :
    AnswersWithin span s (transformCommand order d s) :=
  .requireReady hwf (.complete hwf _ rfl)

theorem answersWithin_wrb (addr : Addr) (b : Byte) :
    AnswersWithin (couldWrite s.len (.wrb addr b)) s (exec (.wrb addr b) s) := by
  by_cases hvalid : ByteAddrValid s.cfg addr
  · refine ⟨_, exec_wrb hvalid b, Memory.wf_writeByte hwf _ _, fun a ha => ?_⟩
    have hout := outside_some ha
    rw [State.respond_msg, Memory.readByte_writeByte hwf, if_neg (by omega)]
  · exact exec_wrb_addr hvalid b ▸ .raise hwf .addr

theorem answersWithin_wrq (addr : Addr) (q : Block) :
    AnswersWithin (couldWrite s.len (.wrq addr q)) s (exec (.wrq addr q) s) := by
  by_cases hvalid : QuadAddrValid s.cfg addr
  · refine ⟨_, exec_wrq hvalid q, Memory.wf_writeBlock hwf _ _, fun a ha => ?_⟩
    have hout := outside_some ha
    rw [State.respond_msg, Memory.readByte_writeBlock hwf, if_neg (by omega)]
  · exact exec_wrq_addr hvalid q ▸ .raise hwf .addr

theorem answersWithin_encryptCommand (hlegal : s.cfg.legal) (mode : Mode) (iv : Block) :
    AnswersWithin (couldWrite s.len (mode.encryptCommand iv)) s (exec (mode.encryptCommand iv) s) := by
  rw [couldWrite_encryptCommand]
  by_cases hready : s.ready = true
  · by_cases hlen : s.len.toNat < s.cfg.msgBytes
    · obtain ⟨t, hexec, -, -, hwf', -, -, hbytes, -⟩ := completes_encryptCommand mode iv hwf hlegal hready hlen
      exact ⟨t, hexec, hwf', fun a ha => hbytes a (outside_some ha)⟩
    · have hpad := (padlen_bounds s.len.toNat).1
      rw [exec_encryptCommand, encryptFrame_len hready (by omega)]
      exact .raise hwf .len
  · rw [exec_encryptCommand, encryptFrame_state hready]
    exact .raise hwf .state

theorem answersWithin_decryptCommand (mode : Mode) (iv : Block) :
    AnswersWithin (couldWrite s.len (mode.decryptCommand iv)) s (exec (mode.decryptCommand iv) s) := by
  rw [couldWrite_decryptCommand]
  by_cases hready : s.ready = true
  · by_cases hlen : s.len.toNat = 0 ∨ s.len.toNat % 8 ≠ 0
    · rw [exec_decryptCommand, decryptFrame_len hready hlen]
      exact .raise hwf .len
    · obtain ⟨tr, m, hdone, hend⟩ := exec_decryptCommand_ready mode iv hwf hready (by omega) (by omega)
      have hbytes : ∀ a, Outside (some (0, s.len.toNat)) a → m.readByte a = s.msg.readByte a := fun a ha =>
        hdone.beyond a (by have hout := outside_some ha; omega)
      rcases hend with ⟨-, hexec⟩ | ⟨n, padl, -, -, hexec⟩
      · exact ⟨_, hexec, hdone.wf, hbytes⟩
      · exact ⟨_, hexec, hdone.wf, hbytes⟩
  · rw [exec_decryptCommand, decryptFrame_state hready]
    exact .raise hwf .state

/-- Every command writes no byte of MSG but those it could write (R46, R145). -/
theorem exec_answersWithin (hlegal : s.cfg.legal) (i : Instr) : AnswersWithin (couldWrite s.len i) s (exec i s) := by
  cases i with
  | nop | rdsr | clrerr | clr => exact .complete hwf _ rfl
  | init =>
    rw [exec, execInit]
    exact .requireReady hwf (.complete hwf _ rfl)
  | ldk k w =>
    rw [exec, execLdk]
    split
    · exact .requireReady hwf (.complete hwf _ rfl)
    · exact .raise hwf .ill
  | lds t n v =>
    rw [exec, execLds]
    split
    · exact .requireReady hwf (.complete hwf _ rfl)
    · exact .raise hwf .ill
  | wrb addr b => exact answersWithin_wrb hwf addr b
  | wrq addr q => exact answersWithin_wrq hwf addr q
  | rdb | rdq => exact .ite (.complete hwf _ rfl) (.raise hwf .addr)
  | setlen => exact .ite (.raise hwf .len) (.complete hwf _ rfl)
  | rndf half subkey =>
    rw [exec, execRndf]
    exact .requireReady hwf (.complete hwf _ rfl)
  | encblk | decblk => exact .transformCommand hwf _ _
  | encEcb => exact answersWithin_encryptCommand hwf hlegal .ecb 0
  | encCbc iv => exact answersWithin_encryptCommand hwf hlegal .cbc iv
  | encCfb iv => exact answersWithin_encryptCommand hwf hlegal .cfb iv
  | encOfb iv => exact answersWithin_encryptCommand hwf hlegal .ofb iv
  | decEcb => exact answersWithin_decryptCommand hwf .ecb 0
  | decCbc iv => exact answersWithin_decryptCommand hwf .cbc iv
  | decCfb iv => exact answersWithin_decryptCommand hwf .cfb iv
  | decOfb iv => exact answersWithin_decryptCommand hwf .ofb iv

end

/-! ## A reset while a command is in flight (R145) -/

/-- The bytes that the command of an accepted packet could write: none when the packet is illegal. -/
def packetSpan (len : Addr) (cw : Packet) : Option (Nat × Nat) :=
  match decode cw with
  | .ok i => couldWrite len i
  | .error _ => none

theorem packetSpan_ok {cw : Packet} {i : Instr} (h : decode cw = .ok i) (len : Addr) :
    packetSpan len cw = couldWrite len i := by
  rw [packetSpan, h]

theorem packetSpan_error {cw : Packet} {e : Illegal} (h : decode cw = .error e) (len : Addr) :
    packetSpan len cw = none := by
  rw [packetSpan, h]

/-- An accepted packet is in flight with its span, and its command has written within that span. -/
theorem runPacket_inFlight {s : State} (hwf : s.msg.wf) (hlegal : s.cfg.legal) (cw : Packet) :
    ∃ t, runPacket cw s = .next t ∧ SamePort (s.accept (packetSpan s.len cw)) t ∧
      WritesWithin (packetSpan s.len cw) s.msg t.msg := by
  rcases hdecode : decode cw with e | i
  · rw [runPacket, hdecode, packetSpan_error hdecode]
    exact ⟨_, rfl, samePort_refl _, writesWithin_refl hwf none⟩
  · rw [runPacket, hdecode, packetSpan_ok hdecode]
    obtain ⟨t, r, hexec, -, hport, -⟩ := exec_responds i (s.accept (couldWrite s.len i))
    obtain ⟨t', hexec', hwrites⟩ :=
      exec_answersWithin (s := s.accept (couldWrite s.len i)) hwf hlegal i
    obtain rfl := Host.Outcome.next.inj (hexec'.symm.trans hexec)
    exact ⟨t', hexec, hport, hwrites⟩

/-- A command that a reset aborts before the host takes its response delivers none, and MSG has changed within the
command's span at most. -/
theorem steps_abort {s : State} {c d : PortInput} {waits rest : List PortInput} (hbuf : BufferInv s)
    (hin : s.inputs = c :: (waits ++ d :: rest)) (hrst : c.rstN = true) (hvalid : c.cmdValid = true)
    (hidle : s.phase = .idle) (hwaits : ∀ w ∈ waits, w.rstN = true ∧ w.rspReady = false) (hreset : d.rstN = false) :
    ∃ u, steps (waits.length + 2) s = .next u ∧ u.inputs = rest ∧ u.phase = .idle ∧ u.rsp = none ∧
      u.delivered = s.delivered ∧ WritesWithin (packetSpan s.len c.cmd) s.msg u.msg := by
  obtain ⟨t, hrun, ⟨-, hphase, hspan, hinputs, hdelivered, -⟩, hwrites⟩ :=
    runPacket_inFlight (s := { s with inputs := waits ++ d :: rest }) hbuf.msgWf hbuf.cfgLegal c.cmd
  have haccept : steps (waits.length + 2) s = steps (waits.length + 1) t :=
    steps_succ ((step_accept hin hrst hvalid hidle).trans hrun) _
  have hwait : steps (waits.length + 1) t = steps 1 { t with inputs := d :: rest } :=
    steps_waits hinputs hwaits hphase 1
  have habort : steps 1 { t with inputs := d :: rest } = .next (State.applyReset { t with inputs := rest }) :=
    steps_succ (step_reset rfl hreset) 0
  exact ⟨_, haccept.trans (hwait.trans habort), rfl, rfl, rfl, hdelivered,
    hwrites.trans (writesWithin_applyReset (s := { t with inputs := rest }) hwrites.wf hspan)⟩

/-- Settles O9: in IDLE no command is in flight; in BUSY the command has written, and the reset leaves open, bytes of one
span only. -/
theorem resetKeepsOtherBytes : Obligations.ResetKeepsOtherBytes := by
  unfold Obligations.ResetKeepsOtherBytes
  refine ⟨fun s t c rest hin hreset hidle hwf hstep => ?_,
    fun s c d waits rest hbuf hin hrst hvalid hidle hwaits hreset => ?_, fun len addr b q mode iv => ?_⟩
  · obtain rfl := Host.Outcome.next.inj ((step_reset hin hreset).symm.trans hstep)
    have hmsg := applyReset_msg_none (s := { s with inputs := rest }) (exposed_idle hidle)
    exact fun a => by rw [hmsg]
  · obtain ⟨u, hsteps, hinputs, hphase, hrsp, hdelivered, hwrites⟩ :=
      steps_abort hbuf hin hrst hvalid hidle hwaits hreset
    refine ⟨u, hsteps, hinputs, hphase, hrsp, hdelivered, fun i hi => ?_, fun e he => ?_⟩
    · rw [packetSpan_ok hi] at hwrites
      exact hwrites.outside
    · rw [packetSpan_error he] at hwrites
      exact fun a => hwrites.outside a nofun
  · exact ⟨rfl, rfl, couldWrite_encryptCommand len mode iv, couldWrite_decryptCommand len mode iv⟩

end Sys2Proof.Machine
end
